-- ==== Sys2Proof/Word.lean ====
section
/-! DEFINITION. The word types of SPIDC (00_scope.md R10; 30_encoding.md R64, R68; 40_color.md R83, R87): bytes, 16-bit packed
colours, 9-bit sequencer words, binary32 channels held as their bits, and a Color of four channels. -/

namespace Sys2Proof

/-- One byte of a transfer (`u8`, R10). -/
abbrev Byte := BitVec 8

/-- A packed colour or a pixel word (`u16`, R10, R74). -/
abbrev U16 := BitVec 16

/-- A sequencer word: bit 8 is the D/C flag, bits 7:0 the byte (R68). -/
abbrev W9 := BitVec 9

/-- A channel number of `CHAN_FMT` = IEEE 754 binary32, held as its 32 bits (R40 stores it bit for bit; R87). -/
abbrev F32 := BitVec 32

/-- A Color: four channels, a pure value (R83, R51 "a record of four numbers"). -/
structure Color where
  r : F32
  g : F32
  b : F32
  a : F32
  deriving DecidableEq, Repr

/-- The default Color (+0.0, +0.0, +0.0, +0.0), which every cell holds at reset (R42, R86). -/
def Color.zero : Color := ⟨0, 0, 0, 0⟩

/-- The three-argument constructor: alpha takes the type's default +0.0 (R86). -/
def Color.rgb (r g b : F32) : Color := ⟨r, g, b, 0⟩

end Sys2Proof
end

