-- ==== Sys2Proof/Config.lean ====
section
/-! DEFINITION. The configuration record `Cfg` of 00_scope.md R8 and the free values the spec leaves open (opaque constants with no
body). No rule of the block writes a Cfg (10_state.md R29). -/

namespace Sys2Proof

/-- Order of the two pin writes before the pixel stream (`STREAM_SETUP`, R150, D7). -/
inductive StreamSetup where
  | csFirst
  | dcFirst
  deriving DecidableEq, Repr

/-- Four window bytes in the order they are sent: start high, start low, end high, end low (R50, R72). -/
structure WinBytes where
  startHi : Byte
  startLo : Byte
  endHi : Byte
  endLo : Byte
  deriving DecidableEq, Repr

/-- Pin numbers, device paths, SPI mode and clock: open, and no rule reads them (R8, R114, R131). -/
structure Wiring where
  pinBl : Nat
  pinDc : Nat
  pinRst : Nat
  pinCs : Nat
  pinAux0 : Nat
  pinAux1 : Nat
  gpioChip : String
  spiPath : String
  spiMode : Nat
  spiHz : Nat
  deriving DecidableEq, Repr

/-- The configuration record of R8. A level is a Bool: false is 0 (low), true is 1 (high). -/
structure Cfg where
  panelW : Nat
  panelH : Nat
  fbW : Nat
  fbH : Nat
  csIdle : Bool
  csActive : Bool
  dcIdle : Bool
  dcCmd : Bool
  dcData : Bool
  opCaset : Byte
  opRaset : Byte
  opRamwr : Byte
  winCol : WinBytes
  winRow : WinBytes
  initWords : List W9
  streamSetup : StreamSetup
  wiring : Wiring
  deriving DecidableEq, Repr

/-- `N_PIX = PANEL_W * PANEL_H`: the law R9 asks a model to keep holds by definition. -/
def Cfg.nPix (c : Cfg) : Nat := c.panelW * c.panelH

/-- `PIX_XFER_LEN`: bytes per pixel transfer (R8, fixed by the source). -/
def Config.pixXferLen : Nat := 2

/-- ENV's answer to one transport call (R11, R171): success, the failure kind of that call, or "invalid handle". -/
inductive Answer where
  | ok
  | fail
  | invalidHandle
  deriving DecidableEq, Repr, Inhabited

/-- FREE VALUE (log 4). ENV is an oracle under no law (R6): its n-th answer past the answers listed in the state's `env`. -/
opaque Config.freeAnswer : Nat → Answer

/-- FREE VALUE (log 12). `oob565`: the result of TO565 on channels of which one is outside [0,1]; only that it is a function of
r, g and b is assumed (R90, D10). -/
opaque Config.oob565 : F32 → F32 → F32 → U16

/-- The arithmetic operations that can produce a NaN (R91). -/
inductive ArithOp where
  | mul
  | add
  | sub
  deriving DecidableEq, Repr

/-- FREE VALUE (log 13). The sign bit of the NaN an operation delivers: R91 says the result is NaN and gives no bits. -/
opaque Config.nanSign : ArithOp → F32 → F32 → Bool

/-- FREE VALUE (log 13). The fraction bits of the NaN an operation delivers; Machine/Float.lean makes a NaN of any value of it. -/
opaque Config.nanFrac : ArithOp → F32 → F32 → BitVec 23

end Sys2Proof
end

