-- ==== Sys2Proof/Syntax.lean ====
section
/-! DEFINITION. The instructions: one constructor per row of spec/opcode_table.json (seven host operations of format H, the two
sequencer words of format W9, nineteen panel command words), and what the block fetches: an instruction word of one of the two
formats (30_encoding.md R63 to R69, R75 to R77). -/

namespace Sys2Proof

/-- The instructions of spec/opcode_table.json, in the table's order. -/
inductive Instr where
  /-- `TO565 c` (R88). -/
  | to565 (c : Color)
  /-- `GETPIXEL x y` (R103); coordinates are mathematical integers (R43). -/
  | getpixel (x y : Int)
  /-- `SETPIXEL x y c OVER` (R106). -/
  | setpixelOver (x y : Int) (c : Color)
  /-- `SETPIXEL x y c BLEND` (R107). -/
  | setpixelBlend (x y : Int) (c : Color)
  /-- `START` (R129). -/
  | start
  /-- `PRESENT` (R146). -/
  | present
  /-- `CLOSE` (R162). -/
  | close
  /-- `SENDC b` (R119). -/
  | sendc (b : Byte)
  /-- `SENDD b` (R120). -/
  | sendd (b : Byte)
  /-- "memory access control/orientation" (R76). -/
  | madctl
  /-- "color format (16 bits/pixel)" (R76). -/
  | colmod
  /-- "frame-rate/timing registers" (R76). -/
  | frmctr1
  /-- "frame-rate/timing registers" (R76). -/
  | frmctr2
  /-- "frame-rate/timing registers" (R76). -/
  | frmctr3
  /-- "power-sequence registers" (R76). -/
  | pwctr1
  /-- "power-sequence registers" (R76). -/
  | pwctr2
  /-- "power-sequence registers" (R76). -/
  | pwctr3
  /-- "power-sequence registers" (R76). -/
  | pwctr4
  /-- "power-sequence registers" (R76). -/
  | pwctr5
  /-- "power-sequence registers" (R76). -/
  | vmctr1
  /-- "inversion control" (R76). -/
  | invctr
  /-- "gamma curves" (R76). -/
  | gmctrp1
  /-- "gamma curves" (R76). -/
  | gmctrn1
  /-- "exit sleep mode" (R76). -/
  | slpout
  /-- "turn the display on" (R76). -/
  | dispon
  /-- "column-address-set command" (R76). -/
  | caset
  /-- "row-address-set command" (R76). -/
  | raset
  /-- "memory-write command" (R76). -/
  | ramwr
  deriving DecidableEq, Repr

/-- One operand of a host operation: operands are values, not bit fields (R64). -/
inductive Operand where
  | int (v : Int)
  | color (c : Color)
  deriving DecidableEq, Repr

/-- An instruction word as it is fetched: a host operation (4-bit number, then operands, R65) or a sequencer word (R68). -/
inductive FetchWord where
  | h (hop : BitVec 4) (operands : List Operand)
  | w9 (w : W9)
  deriving DecidableEq, Repr

/-- A host operation as HOST issues it. Its interface has no other form of word: `SENDC` and `SENDD` are not host operations (R65,
R127). -/
structure HostWord where
  hop : BitVec 4
  operands : List Operand
  deriving DecidableEq, Repr

/-- The word the block fetches for a host operation. -/
def HostWord.fetched (w : HostWord) : FetchWord := .h w.hop w.operands

end Sys2Proof
end

