-- ==== Sys2Proof/WellFormed.lean ====
section
/-! DEFINITION. What makes an instruction and a configuration well formed. An instruction: a `SENDC` of a byte that has a panel
command row of its own is written by that row's constructor. A configuration: the laws of 30_encoding.md R70 and R73,
42_signalling.md R126 and 70_reset_and_hazards.md R201. -/

namespace Sys2Proof

/-- The nineteen panel command bytes of R76, each with its group of R71 (1 to 8 for the init groups, 0 for the three commands of
PRESENT). -/
def panelCommands : List (Byte × Nat) :=
  [(0x36, 1), (0x3A, 2), (0xB1, 3), (0xB2, 3), (0xB3, 3), (0xC0, 4), (0xC1, 4), (0xC2, 4), (0xC3, 4), (0xC4, 4), (0xC5, 4),
    (0xB4, 5), (0xE0, 6), (0xE1, 6), (0x11, 7), (0x29, 8), (0x2A, 0), (0x2B, 0), (0x2C, 0)]

/-- The number of data bytes R76 gives each command of the init groups. -/
def initDataBytes : List (Byte × Nat) :=
  [(0x36, 1), (0x3A, 1), (0xB1, 3), (0xB2, 3), (0xB3, 6), (0xC0, 3), (0xC1, 1), (0xC2, 2), (0xC3, 2), (0xC4, 2), (0xC5, 1),
    (0xB4, 1), (0xE0, 16), (0xE1, 16), (0x11, 0), (0x29, 0)]

/-- Does the byte have a panel command row of its own? -/
def isPanelByte (b : Byte) : Bool := panelCommands.any (fun p => p.1 == b)

/-- An instruction is well formed unless it is a `SENDC` of a byte that a panel command row names (log 21). -/
def Instr.wellFormed : Instr → Bool
  | .sendc b => !isPanelByte b
  | _ => true

/-- Is the sequencer word a command word (D/C flag 0, R68)? -/
def isCommandWord (w : W9) : Bool := !w.getLsbD 8

/-- The commands of a list of words, in order, each with the number of data words that follow it; data words with no command before
them belong to none. -/
def commandsOf : List W9 → List (Byte × Nat)
  | [] => []
  | w :: ws =>
    if isCommandWord w then (w.setWidth 8, (ws.takeWhile (fun v => !isCommandWord v)).length) :: commandsOf ws else commandsOf ws

/-- The init groups (1 to 8) that a list of command bytes goes through, in order; bytes outside the map of R76 count for none. -/
def initGroups (bs : List Byte) : List Nat :=
  (bs.filterMap (fun b => (panelCommands.find? (fun p => p.1 == b)).map Prod.snd)).filter (fun g => g != 0)

/-- Is a command followed by the data words R76 gives it? A byte outside the map of R76 may have any number. -/
def hasItsData (p : Byte × Nat) : Bool := initDataBytes.all (fun q => q.1 != p.1 || q.2 == p.2)

/-- Law (a) of R70: not empty, first word a command word. -/
def Cfg.lawInitFirst (c : Cfg) : Bool := (c.initWords.head?.map isCommandWord).getD false

/-- Law (b) of R70 (DEDUCED form, log 26): every group of R71 occurs, in the order of R71, its command words followed by their data
words. -/
def Cfg.lawInitGroups (c : Cfg) : Bool :=
  let cs := commandsOf c.initWords
  let gs := initGroups (cs.map Prod.fst)
  [1, 2, 3, 4, 5, 6, 7, 8].all (fun g => gs.contains g) && decide (gs.Pairwise (· ≤ ·)) && cs.all hasItsData

/-- Law (c) of R70 as D12 and R140 read it: the table ends with the exit-sleep command and the display-on command, with no data
after either. -/
def Cfg.lawInitLast (c : Cfg) : Bool := decide (([0x011, 0x029] : List W9) <:+ c.initWords)

/-- A window coordinate from its two bytes (R73). -/
def coord (hi lo : Byte) : Nat := hi.toNat * 256 + lo.toNat

/-- Number of panel columns (or rows) a window selects, both ends included (R73); 0 if the end lies before the start. -/
def WinBytes.extent (w : WinBytes) : Nat := coord w.endHi w.endLo + 1 - coord w.startHi w.startLo

/-- The window holds `N_PIX` pixels (R73, R201). -/
def Cfg.lawWindow (c : Cfg) : Bool := c.winCol.extent * c.winRow.extent == c.nPix

/-- Levels (R126): command and data level differ, data level is the idle level; the active chip-select level is not the idle one. -/
def Cfg.lawLevels (c : Cfg) : Bool := c.dcCmd != c.dcData && c.dcData == c.dcIdle && c.csActive != c.csIdle

/-- The framebuffer has the panel's size (R147, R201). -/
def Cfg.fbFits (c : Cfg) : Bool := c.fbW == c.panelW && c.fbH == c.panelH

/-- The laws a consistent `Cfg` keeps (R201). The orientation law R138 cannot be stated in bytes, as that rule says. -/
def Cfg.lawful (c : Cfg) : Bool :=
  c.lawInitFirst && c.lawInitGroups && c.lawInitLast && c.lawWindow && c.lawLevels && c.fbFits

end Sys2Proof
end

