-- ==== Sys2Proof/Decode.lean ====
section
/-! DEFINITION. Decoding an instruction word of either format (30_encoding.md R65 to R69, R75 to R79), total, rejecting by name, and
the encoder written from the same tables. -/

namespace Sys2Proof

/-- Why a fetched word is no instruction. -/
inductive DecodeError where
  /-- A host operation number of R79 that selects no operation. -/
  | noSuchOperation (hop : BitVec 4)
  /-- A host operation number followed by operands that are not the ones R66 lists (log 23). -/
  | wrongOperands (hop : BitVec 4)
  deriving DecidableEq, Repr

/-- Host operation numbers of R75 (`HOP_*`). -/
def hopTo565 : BitVec 4 := 0x1
def hopGetpixel : BitVec 4 := 0x2
def hopSetpixelOver : BitVec 4 := 0x3
def hopSetpixelBlend : BitVec 4 := 0x4
def hopStart : BitVec 4 := 0x8
def hopPresent : BitVec 4 := 0x9
def hopClose : BitVec 4 := 0xA

/-- The nine-bit word of a D/C flag and a byte (R68). -/
def w9Of (dcf : Bool) (b : Byte) : W9 := BitVec.ofBool dcf ++ b

/-- The D/C flag, bit 8 (R68). -/
def w9Flag (w : W9) : Bool := w.getLsbD 8

/-- The byte, bits 7:0 (R68). -/
def w9Byte (w : W9) : Byte := w.setWidth 8

/-- The panel command rows of R76 by their byte. -/
def panelTable : List (Byte × Instr) :=
  [(0x36, .madctl), (0x3A, .colmod), (0xB1, .frmctr1), (0xB2, .frmctr2), (0xB3, .frmctr3), (0xC0, .pwctr1), (0xC1, .pwctr2),
    (0xC2, .pwctr3), (0xC3, .pwctr4), (0xC4, .pwctr5), (0xC5, .vmctr1), (0xB4, .invctr), (0xE0, .gmctrp1), (0xE1, .gmctrn1),
    (0x11, .slpout), (0x29, .dispon), (0x2A, .caset), (0x2B, .raset), (0x2C, .ramwr)]

/-- The command word a byte stands for: a panel command row of R76, else `SENDC` (log 21). -/
def decodeCommand (b : Byte) : Instr :=
  match panelTable.find? (fun p => p.1 == b) with
  | some p => p.2
  | none => .sendc b

/-- Decoding a sequencer word is total (R69): flag 0 a command, flag 1 `SENDD`. -/
def decodeW9 (w : W9) : Instr := if w9Flag w then .sendd (w9Byte w) else decodeCommand (w9Byte w)

/-- Decoding a host operation: its number (R75) and its operands in the order R66 lists them. -/
def decodeH (hop : BitVec 4) (operands : List Operand) : Except DecodeError Instr :=
  if hop = hopTo565 then
    match operands with
    | [.color c] => .ok (.to565 c)
    | _ => .error (.wrongOperands hop)
  else if hop = hopGetpixel then
    match operands with
    | [.int x, .int y] => .ok (.getpixel x y)
    | _ => .error (.wrongOperands hop)
  else if hop = hopSetpixelOver then
    match operands with
    | [.int x, .int y, .color c] => .ok (.setpixelOver x y c)
    | _ => .error (.wrongOperands hop)
  else if hop = hopSetpixelBlend then
    match operands with
    | [.int x, .int y, .color c] => .ok (.setpixelBlend x y c)
    | _ => .error (.wrongOperands hop)
  else if hop = hopStart then
    match operands with
    | [] => .ok .start
    | _ => .error (.wrongOperands hop)
  else if hop = hopPresent then
    match operands with
    | [] => .ok .present
    | _ => .error (.wrongOperands hop)
  else if hop = hopClose then
    match operands with
    | [] => .ok .close
    | _ => .error (.wrongOperands hop)
  else .error (.noSuchOperation hop)

/-- Decoding a fetched word of either format. -/
def decode : FetchWord → Except DecodeError Instr
  | .h hop operands => decodeH hop operands
  | .w9 w => .ok (decodeW9 w)

/-- Encoding, from the tables of R66, R68, R75 and R76. -/
def encode : Instr → FetchWord
  | .to565 c => .h hopTo565 [.color c]
  | .getpixel x y => .h hopGetpixel [.int x, .int y]
  | .setpixelOver x y c => .h hopSetpixelOver [.int x, .int y, .color c]
  | .setpixelBlend x y c => .h hopSetpixelBlend [.int x, .int y, .color c]
  | .start => .h hopStart []
  | .present => .h hopPresent []
  | .close => .h hopClose []
  | .sendc b => .w9 (w9Of false b)
  | .sendd b => .w9 (w9Of true b)
  | .madctl => .w9 0x036
  | .colmod => .w9 0x03A
  | .frmctr1 => .w9 0x0B1
  | .frmctr2 => .w9 0x0B2
  | .frmctr3 => .w9 0x0B3
  | .pwctr1 => .w9 0x0C0
  | .pwctr2 => .w9 0x0C1
  | .pwctr3 => .w9 0x0C2
  | .pwctr4 => .w9 0x0C3
  | .pwctr5 => .w9 0x0C4
  | .vmctr1 => .w9 0x0C5
  | .invctr => .w9 0x0B4
  | .gmctrp1 => .w9 0x0E0
  | .gmctrn1 => .w9 0x0E1
  | .slpout => .w9 0x011
  | .dispon => .w9 0x029
  | .caset => .w9 0x02A
  | .raset => .w9 0x02B
  | .ramwr => .w9 0x02C

/-- Operands of value zero for an operation number: what a table word stands for when its operands have no bits (log 22). -/
def zeroOperands (hop : BitVec 4) : List Operand :=
  if hop = hopTo565 then [.color Color.zero]
  else if hop = hopGetpixel then [.int 0, .int 0]
  else if hop = hopSetpixelOver then [.int 0, .int 0, .color Color.zero]
  else if hop = hopSetpixelBlend then [.int 0, .int 0, .color Color.zero]
  else []

/-- The fetched word of a row of spec/opcode_table.json given its bits: a row of at most one byte is of format H (four bits), a
longer one of format W9 (nine bits); bits above belong to no field of the word (log 22). -/
def tableFetchWord (nbits w : Nat) : FetchWord :=
  if nbits ≤ 8 then .h (BitVec.ofNat 4 w) (zeroOperands (BitVec.ofNat 4 w)) else .w9 (BitVec.ofNat 9 w)

/-- What the decoder reads from an instruction whose bits are `w`, numbered as spec/opcode_table.json numbers them. -/
def decodeTableWord (nbits w : Nat) : Option Instr := (decode (tableFetchWord nbits w)).toOption

end Sys2Proof
end

