-- ==== Sys2Proof/Machine/Defaults.lean ====
section
/-! DEFINITION. The default values of the open parameters: what State.reset's configuration holds. Every byte here is "from general
knowledge, not in source" by the spec's own mark (00_scope.md R8; 93_implementation_defined.md U10 to U12), PRESUMED, log 2; no
statement rests on one. -/

namespace Sys2Proof.Machine

/-- Groups 1 to 3 of the default init table U12. -/
def defaultInitA : List W9 :=
  [0x036, 0x160, 0x03A, 0x105,
   0x0B1, 0x101, 0x12C, 0x12D,
   0x0B2, 0x101, 0x12C, 0x12D,
   0x0B3, 0x101, 0x12C, 0x12D, 0x101, 0x12C, 0x12D]

/-- Groups 4 and 5 of U12. -/
def defaultInitB : List W9 :=
  [0x0C0, 0x1A2, 0x102, 0x184,
   0x0C1, 0x1C5,
   0x0C2, 0x10A, 0x100,
   0x0C3, 0x18A, 0x12A,
   0x0C4, 0x18A, 0x1EE,
   0x0C5, 0x10E,
   0x0B4, 0x107]

/-- Group 6, first half, of U12. -/
def defaultInitC : List W9 :=
  [0x0E0, 0x10F, 0x11A, 0x10F, 0x118, 0x12F, 0x128, 0x120, 0x122, 0x11F, 0x11B, 0x123, 0x137, 0x100, 0x107, 0x102, 0x110]

/-- Group 6, second half, then groups 7 and 8 of U12. -/
def defaultInitD : List W9 :=
  [0x0E1, 0x10F, 0x11B, 0x10F, 0x117, 0x133, 0x12C, 0x129, 0x12E, 0x130, 0x130, 0x139, 0x13F, 0x100, 0x107, 0x103, 0x110,
   0x011, 0x029]

/-- The default `INIT_WORDS` of U12: 74 words. -/
def defaultInitWords : List W9 := defaultInitA ++ defaultInitB ++ defaultInitC ++ defaultInitD

/-- Pin numbers, paths, SPI mode and clock: not in the spec and read by no rule (log 2). -/
def defaultWiring : Wiring :=
  { pinBl := 0, pinDc := 0, pinRst := 0, pinCs := 0, pinAux0 := 0, pinAux1 := 0, gpioChip := "", spiPath := "", spiMode := 0, spiHz := 0 }

/-- The reference instance of R8 with the default values of the open parameters; the attached framebuffer has the panel's size (log 3). -/
def defaultCfg : Cfg :=
  { panelW := 160, panelH := 128, fbW := 160, fbH := 128
    csIdle := true, csActive := false, dcIdle := true, dcCmd := false, dcData := true
    opCaset := 0x2A, opRaset := 0x2B, opRamwr := 0x2C
    winCol := ⟨0x00, 0x01, 0x00, 0xA0⟩, winRow := ⟨0x00, 0x02, 0x00, 0x81⟩
    initWords := defaultInitWords, streamSetup := .csFirst, wiring := defaultWiring }

end Sys2Proof.Machine
end

