-- ==== Sys2Proof/Machine/State.lean ====
section
/-! DEFINITION. The state of SPIDC (10_state.md) as plain data, and its value right after reset (R38, R196). The fields `cfg`, `input`,
`reply`, `env` and `envCount` are the model's own places for what the spec passes from outside: the configuration argument (R29), the
host's script and answers (R37, R66), and ENV's answers (R6, R37); `testPort` is the model's own way of running a lone sequencer
word (log 31). -/

namespace Sys2Proof.Machine

/-- A pin latch: 0, 1, or U, "not driven by the block or not known" (R10, R15). -/
inductive Level where
  | low
  | high
  | undriven
  deriving DecidableEq, Repr

/-- The resources the block opens (R22, R27). -/
inductive Resource where
  | spi
  | cs
  | dc
  | rst
  deriving DecidableEq, Repr

/-- The lines the block writes (R15, R22). -/
inductive Line where
  | cs
  | dc
  | rst
  deriving DecidableEq, Repr

/-- The lifecycle register (R25). -/
inductive Phase where
  | off
  | construct
  | init
  | ready
  | presenting
  | closing
  | closed
  | halted
  deriving DecidableEq, Repr

/-- The five micro-operations of R22; each is one transport call. A pin level is a Bool, true for 1. -/
inductive MicroOp where
  | openr (r : Resource)
  | pinw (l : Line) (v : Bool)
  | xferb (b : Byte)
  | xferpx
  | relr (r : Resource)
  deriving DecidableEq, Repr

/-- The kinds of failure an event carries (R169, R170). -/
inductive FailKind where
  | openFailure
  | writeFailure
  | transferFailure
  | invalidHandle
  deriving DecidableEq, Repr

/-- The outcome of a transport call in an event (R33). -/
inductive CallResult where
  | ok
  | fail (kind : FailKind)
  deriving DecidableEq, Repr

/-- The events of the history (R33). -/
inductive Event where
  | opened (r : Resource) (o : CallResult)
  | pin (l : Line) (v : Bool) (o : CallResult)
  | xfer (bytes : List Byte) (o : CallResult)
  | rel (r : Resource)
  | halt
  deriving DecidableEq, Repr

/-- A recorded failure: cause and information (R28, R170); `pc` is the index of the micro-operation that failed. -/
inductive Failure where
  | openFailure (r : Resource)
  | writeFailure (l : Line) (pc : Nat)
  | transferFailure (n : Nat) (pc : Nat)
  | invalidHandle (r : Resource) (pc : Nat)
  deriving DecidableEq, Repr

/-- The reasons of a refusal: the closed list of R183. -/
inductive RefuseReason where
  | badPhase
  | dimMismatch
  | outOfBounds
  | fbRace
  | noSuchOperation
  deriving DecidableEq, Repr

/-- What HOST was answered by its last operation (R66: its result; R183: the reason of a refusal). Model's own (log 7). -/
inductive Reply where
  /-- No operation has been answered since reset, or one is running, or the block halted in one. -/
  | nothing
  /-- An operation without a result has completed. -/
  | done
  /-- The result of TO565. -/
  | word (v : U16)
  /-- The result of GETPIXEL. -/
  | color (c : Color)
  /-- The operation was refused. -/
  | refused (why : RefuseReason)
  deriving DecidableEq, Repr

/-- Where a lone sequencer word stands that a test runs (vectors V20 to V25; the opcode table's W9 rows). HOST has no access to it
and no step fills it (R127). Model's own (log 31). -/
inductive TestPort where
  /-- No lone word has been placed since reset: the case of every run of host operations. -/
  | unused
  /-- The next step that is not SEQ's runs this word. -/
  | placed (w : W9)
  /-- A lone word has run: sticky, so that such a run is never taken for the host's. -/
  | used
  deriving DecidableEq, Repr

/-- The pixel memory: the cells that differ from the default Color, by rising linear address (R31, R48; log 15). -/
abbrev Memory := List (Nat × Color)

/-- What a cell nobody has written reads as: the spec's own value (R42). -/
def Memory.unlisted : Color := Color.zero

/-- The canonical form: addresses strictly rising, no cell listed that holds what an unlisted one reads as. -/
abbrev Memory.wf (m : Memory) : Prop := (m.map Prod.fst).Pairwise (· < ·) ∧ ∀ p ∈ m, p.2 ≠ Memory.unlisted

/-- Why the machine stops with a fault. -/
inductive Fault where
  /-- Raised by `step` alone, when the next micro-operation is `XFERPX` and the cell it would read does not exist (`pixctr` is 0 or
  above the size of the framebuffer): R48 defines `MemRead` only inside the grid. Safe: the machine stops; no run from reset, and no
  state of `Safety.Inv`, reaches it (log 18). -/
  | noSuchCell
  deriving DecidableEq, Repr

/-- Why an instruction has no meaning. -/
inductive Refusal where
  /-- Raised by no arm: an arm of `exec` whose instruction has no meaning yet would answer it. Safe. (The spec's own refusals, R183,
  are next states that set `refused`.) -/
  | notModelled (mnemonic : String)
  deriving DecidableEq, Repr

/-- The state. -/
structure State where
  /-- The configuration (R8, R29); no step changes it. -/
  cfg : Cfg
  /-- Lifecycle register (R25). -/
  phase : Phase
  /-- Sequencer position (R20). -/
  pc : Nat
  /-- Micro-program of the running host operation (R20, R22). -/
  prog : List MicroOp
  /-- Chip-select latch (R15, R16). -/
  cs : Level
  /-- Data/command latch (R15, R16). -/
  dc : Level
  /-- Reset-line latch (R15, R16). -/
  rst : Level
  /-- Backlight line: never driven (R17). -/
  bl : Level
  /-- First reserved line: never driven (R17). -/
  aux0 : Level
  /-- Second reserved line: never driven (R17). -/
  aux1 : Level
  /-- Packed colour of the pixel being sent (R15, R18). -/
  pixw : U16
  /-- Pixels of the frame still to send (R15, R18). -/
  pixctr : Nat
  /-- Open flags (R27). -/
  spiOpen : Bool
  csOpen : Bool
  dcOpen : Bool
  rstOpen : Bool
  /-- The sticky set of failures, in the order they entered, without repeats (R28, R172, R179). -/
  fault : List Failure
  /-- The sticky mark of a refused operation (R32). -/
  refused : Bool
  /-- The event history (R33). -/
  trace : List Event
  /-- The pixel memory (R39 to R42). -/
  fb : Memory
  /-- Host operations waiting to be fetched, next first: the host's script (R37, R215; log 6). Model's own. -/
  input : List HostWord
  /-- The place of a lone sequencer word under test (log 31). Model's own. -/
  testPort : TestPort
  /-- What HOST was last answered (log 7). Model's own. -/
  reply : Reply
  /-- ENV's answers still to come, next first (R6, R37; log 4). Model's own. -/
  env : List Answer
  /-- How many of ENV's answers past `env` have been drawn (log 4). Model's own. -/
  envCount : Nat
  deriving DecidableEq, Repr

/-- The state right after reset (R38, R196): nothing open, no line driven, every cell zero, no failure, no refusal, no event, and no
host operation issued yet (R197). -/
def State.reset : State :=
  { cfg := defaultCfg
    phase := .off, pc := 0, prog := []
    cs := .undriven, dc := .undriven, rst := .undriven, bl := .undriven, aux0 := .undriven, aux1 := .undriven
    pixw := 0, pixctr := 0
    spiOpen := false, csOpen := false, dcOpen := false, rstOpen := false
    fault := [], refused := false, trace := [], fb := []
    input := [], testPort := .unused, reply := .nothing, env := [], envCount := 0 }

end Sys2Proof.Machine
end

