-- ==== Sys2Proof/Machine/Flags.lean ====
section
/-! DEFINITION. The status of the block. It has no condition codes (10_state.md R24): the only status is the four open flags (R27), the
sticky failure set (R28) with its causes (60_exceptions.md R170), and the sticky mark of a refusal (R32, R183). -/

namespace Sys2Proof.Machine

/-- The open flag of a resource (R27). -/
def openFlag (r : Resource) (s : State) : Bool :=
  match r with
  | .spi => s.spiOpen
  | .cs => s.csOpen
  | .dc => s.dcOpen
  | .rst => s.rstOpen

/-- Writing the open flag of a resource (R27, R114, R117). -/
def setOpen (r : Resource) (v : Bool) (s : State) : State :=
  match r with
  | .spi => { s with spiOpen := v }
  | .cs => { s with csOpen := v }
  | .dc => { s with dcOpen := v }
  | .rst => { s with rstOpen := v }

/-- Cause code of a failure (R170). -/
def failureCode : Failure → Nat
  | .openFailure .spi => 1
  | .openFailure .cs => 2
  | .openFailure .dc => 3
  | .openFailure .rst => 4
  | .writeFailure _ _ => 5
  | .transferFailure _ _ => 6
  | .invalidHandle _ _ => 7

/-- `fault <- fault ∪ {f}` (R172). -/
def addFailure (f : Failure) (fs : List Failure) : List Failure := if f ∈ fs then fs else fs ++ [f]

/-- `refuse reason` (R11, R183): the sticky mark is set and nothing else of the block changes; HOST is told the reason (log 7, log 8). -/
def refuse (why : RefuseReason) (s : State) : State := { s with refused := true, reply := .refused why }

end Sys2Proof.Machine
end

