-- ==== Sys2Proof/Machine/Float.lean ====
section
/-! DEFINITION. `CHAN_FMT` arithmetic: IEEE 754 binary32, round to nearest, ties to even, every operation rounded once, no fused
multiply-add (40_color.md R87, R91; 92_eei_decisions.md D9). Each operation computes the exact result as an integer times a power
of two and rounds it at the end. -/

namespace Sys2Proof.Machine

/-- The sign bit. -/
def f32Sign (x : F32) : Bool := x.getLsbD 31

/-- The biased exponent field (8 bits). -/
def f32Exp (x : F32) : Nat := x.toNat / 2 ^ 23 % 2 ^ 8

/-- The fraction field (23 bits). -/
def f32Frac (x : F32) : Nat := x.toNat % 2 ^ 23

/-- The bits below the sign, which order the magnitudes. -/
def f32Mag (x : F32) : Nat := x.toNat % 2 ^ 31

/-- The magnitude bits of an infinity. -/
def infMag : Nat := 255 * 2 ^ 23

/-- Is it a NaN? -/
def f32IsNaN (x : F32) : Bool := decide (infMag < f32Mag x)

/-- Is it an infinity? -/
def f32IsInf (x : F32) : Bool := decide (f32Mag x = infMag)

/-- Is it a finite number (zeros and subnormal numbers included)? -/
def f32IsFinite (x : F32) : Bool := decide (f32Mag x < infMag)

/-- Is it a zero of either sign? -/
def f32IsZero (x : F32) : Bool := decide (f32Mag x = 0)

/-- The integer significand of a finite number. -/
def f32Sig (x : F32) : Nat := if f32Exp x = 0 then f32Frac x else f32Frac x + 2 ^ 23

/-- The exponent of that significand's unit, counted from the least one (2 ^ -149): a finite number is `f32Sig x * 2 ^ (f32Pow x - 149)`. -/
def f32Pow (x : F32) : Nat := f32Exp x - 1

/-- A number from its sign and its magnitude bits. -/
def f32Of (sign : Bool) (mag : Nat) : F32 := BitVec.ofNat 32 ((if sign then 2 ^ 31 else 0) + mag)

/-- `m / 2 ^ k` rounded to an integer, to nearest, ties to even. -/
def roundShift (m k : Nat) : Nat :=
  let q := m / 2 ^ k
  let r := m % 2 ^ k
  if 2 * r > 2 ^ k ∨ (2 * r = 2 ^ k ∧ q % 2 = 1) then q + 1 else q

/-- The magnitude bits of the number nearest to `m * 2 ^ (e - 298)`, ties to even; past the largest finite number, an infinity.
The unit of the last place kept is `2 ^ (u - 298)`, at least the unit `2 ^ -149` of the subnormal numbers. A significand that the
rounding carries to 2 ^ 24 runs over into the exponent field, which is the right number. -/
def roundMag (m e : Nat) : Nat :=
  let u := max (e + (Nat.log2 m + 1) - 24) 149
  let sig := if u ≤ e then m * 2 ^ (e - u) else roundShift m (u - e)
  if m = 0 then 0 else min ((u - 149) * 2 ^ 23 + sig) infMag

/-- A NaN from free sign and fraction bits: any NaN can come out, and nothing else (log 13). -/
def makeNaN (sign : Bool) (frac : BitVec 23) : F32 := f32Of sign (infMag + (if frac = 0 then 2 ^ 22 else frac.toNat))

/-- The NaN an operation delivers on its operands. -/
def nanResult (op : ArithOp) (a b : F32) : F32 := makeNaN (Config.nanSign op a b) (Config.nanFrac op a b)

/-- `fmul(a, b)` (R91). -/
def fmul (a b : F32) : F32 :=
  let s := f32Sign a != f32Sign b
  if f32IsNaN a || f32IsNaN b then nanResult .mul a b
  else if f32IsInf a then (if f32IsZero b then nanResult .mul a b else f32Of s infMag)
  else if f32IsInf b then (if f32IsZero a then nanResult .mul a b else f32Of s infMag)
  else f32Of s (roundMag (f32Sig a * f32Sig b) (f32Pow a + f32Pow b))

/-- The exact value of a finite number as an integer count of `2 ^ -149`. -/
def f32Units (x : F32) : Int :=
  if f32Sign x then -((f32Sig x * 2 ^ f32Pow x : Nat) : Int) else ((f32Sig x * 2 ^ f32Pow x : Nat) : Int)

/-- The number nearest to an exact count of `2 ^ -149` that is not zero. -/
def roundUnits (v : Int) : F32 := f32Of (decide (v < 0)) (roundMag v.natAbs 149)

/-- The sum of two numbers under an operation's name (for the NaN it may deliver). The sign of an exact zero sum is +, unless both
operands are negative zeros (R91). -/
def addWith (op : ArithOp) (a0 b0 a b : F32) : F32 :=
  if f32IsNaN a || f32IsNaN b then nanResult op a0 b0
  else if f32IsInf a then (if f32IsInf b && (f32Sign a != f32Sign b) then nanResult op a0 b0 else a)
  else if f32IsInf b then b
  else
    let v := f32Units a + f32Units b
    if v = 0 then (if f32Sign a && f32Sign b then f32Of true 0 else f32Of false 0)
    else roundUnits v

/-- `fadd(a, b)` (R91). -/
def fadd (a b : F32) : F32 := addWith .add a b a b

/-- The number with its sign bit turned over. -/
def f32Neg (x : F32) : F32 := x ^^^ (1#32 <<< 31)

/-- `fsub(a, b)` (R91): the sum of `a` and `b` with its sign turned over. -/
def fsub (a b : F32) : F32 := addWith .sub a b a (f32Neg b)

/-- The order of the number format on numbers that are not NaN: both zeros are 0 and negative numbers lie below. -/
def f32Key (x : F32) : Int := if f32Sign x then -(f32Mag x : Int) else (f32Mag x : Int)

/-- `a <= b` of the number format; false if either is NaN. -/
def f32Le (a b : F32) : Bool := !f32IsNaN a && !f32IsNaN b && decide (f32Key a ≤ f32Key b)

/-- Numeric equality of the number format: the two zeros are equal, NaN equals nothing (R110 (b)). -/
def f32Eq (a b : F32) : Bool := f32Le a b && f32Le b a

/-- 1.0 -/
def f32One : F32 := 0x3F800000

/-- `inrange(c)` of R84. -/
def inrange (c : F32) : Bool := f32Le 0 c && f32Le c f32One

/-- The number of a small natural number (31 and 63 are exact, R91). -/
def f32OfNat (n : Nat) : F32 := f32Of false (roundMag n 298)

/-- `floor` of a finite number that is not negative. -/
def f32Floor (x : F32) : Nat := f32Sig x * 2 ^ f32Pow x / 2 ^ 149

/-- `quant(c, n) = floor(fmul(c, n))` (R92); used for `c` in range only. -/
def quant (c : F32) (n : Nat) : Nat := f32Floor (fmul c (f32OfNat n))

end Sys2Proof.Machine
end

