-- ==== Sys2Proof/Machine/Operands.lean ====
section
/-! DEFINITION. Operand forms: coordinates and linear addresses (20_memory.md R43, R48), the packed colour and its bytes
(30_encoding.md R74; 20_memory.md R49), the blend of two Colors (41_framebuffer.md R107 to R111), window bytes and the window
words (30_encoding.md R72, R73), pin levels (10_state.md R10). -/

namespace Sys2Proof.Machine

/-- The level a driven line shows. -/
def Level.ofBit (v : Bool) : Level := if v then .high else .low

/-- The bit a level stands for; none for U (R198: a latch that is U is not read as a level). -/
def Level.bit : Level → Option Bool
  | .low => some false
  | .high => some true
  | .undriven => none

/-- The resource a line is opened as. -/
def Line.resource : Line → Resource
  | .cs => .cs
  | .dc => .dc
  | .rst => .rst

/-- The bounds precondition `0 <= x < FB_W`, `0 <= y < FB_H` on mathematical integers (R43, R101). -/
def inBounds (c : Cfg) (x y : Int) : Bool := decide (0 ≤ x ∧ x < c.fbW ∧ 0 ≤ y ∧ y < c.fbH)

/-- `addr(x, y) = y * FB_W + x` for coordinates in bounds (R48). -/
def cellAddr (c : Cfg) (x y : Int) : Nat := y.toNat * c.fbW + x.toNat

/-- Number of cells, `FB_W * FB_H` (R39). -/
def fbSize (c : Cfg) : Nat := c.fbW * c.fbH

/-- Packing of the three quantized channels: `(r5 << 11) | (g6 << 5) | b5` (R74, R88). -/
def pack565 (r5 g6 b5 : Nat) : U16 :=
  (BitVec.ofNat 16 r5 <<< 11) ||| (BitVec.ofNat 16 g6 <<< 5) ||| BitVec.ofNat 16 b5

/-- The colour quantizer `TO565` as a function (R88, R90). -/
def to565 (c : Color) : U16 :=
  if inrange c.r && inrange c.g && inrange c.b then pack565 (quant c.r 31) (quant c.g 63) (quant c.b 31)
  else Config.oob565 c.r c.g c.b

/-- High byte of a 16-bit word (R12, R49). -/
def hiByte (v : U16) : Byte := (v >>> 8).setWidth 8

/-- Low byte of a 16-bit word (R12, R49). -/
def loByte (v : U16) : Byte := v.setWidth 8

/-- The two bytes of a 16-bit word in transmission order, high byte first (R12, R49). -/
def wordBytes (v : U16) : List Byte := [hiByte v, loByte v]

/-- One channel of the blend: `fadd(old, fmul(fsub(new, old), weight))`, each operation rounded once (R107, R109). -/
def blendChannel (old new weight : F32) : F32 := fadd old (fmul (fsub new old) weight)

/-- The blended Color: the weight is the incoming alpha, and the result's alpha is +0.0 (R107, R108, R111). -/
def blendColor (old c : Color) : Color :=
  Color.rgb (blendChannel old.r c.r c.a) (blendChannel old.g c.g c.a) (blendChannel old.b c.b c.a)

/-- The window bytes of a pair of coordinates (R73). -/
def windowBytes (first last : U16) : WinBytes := ⟨hiByte first, loByte first, hiByte last, loByte last⟩

/-- The four bytes of a window in the order they are sent (R50). -/
def winList (w : WinBytes) : List Byte := [w.startHi, w.startLo, w.endHi, w.endLo]

/-- `WINDOW_WORDS`: the eleven words of R72. -/
def windowWords (c : Cfg) : List W9 :=
  w9Of false c.opCaset :: (winList c.winCol).map (w9Of true)
    ++ w9Of false c.opRaset :: (winList c.winRow).map (w9Of true)
    ++ [w9Of false c.opRamwr]

end Sys2Proof.Machine
end

