-- ==== Sys2Proof/Machine/Ops.lean ====
section
/-! DEFINITION. The named operations: the pixel memory (20_memory.md R48), the pin latches, ENV's answers, the recording of a failure
(60_exceptions.md R172, R173, the block's one "exception": nothing is saved, control goes nowhere, there is no return), the four
transport calls (42_signalling.md R114 to R117), the performing of a micro-operation (R118; 44_present.md R152), and the
sequencer's small step with the completion of an operation (10_state.md R20, R21, R26). -/

namespace Sys2Proof.Machine

/-! ## The pixel memory -/

/-- The Color of the cell at a linear address. -/
def Memory.read : Memory → Nat → Color
  | [], _ => Memory.unlisted
  | p :: m, a => if p.1 = a then p.2 else if a < p.1 then Memory.unlisted else Memory.read m a

/-- Replacing the Color of one cell, in canonical form: a cell that comes to hold the unlisted value is taken out. -/
def Memory.write : Memory → Nat → Color → Memory
  | [], a, c => if c = Memory.unlisted then [] else [(a, c)]
  | p :: m, a, c =>
    if p.1 = a then (if c = Memory.unlisted then m else (a, c) :: m)
    else if a < p.1 then (if c = Memory.unlisted then p :: m else (a, c) :: p :: m)
    else p :: Memory.write m a c

/-- `MemRead(addr, n)` (R11, R48). -/
def memRead (m : Memory) (a n : Nat) : List Color := (List.range n).map (fun i => m.read (a + i))

/-- `MemWrite(addr, n, v)`, `n` the length of `v` (R11, R48). -/
def memWrite (m : Memory) (a : Nat) : List Color → Memory
  | [] => m
  | c :: cs => memWrite (m.write a c) (a + 1) cs

/-! ## The pin latches -/

/-- `x[l]` (R11). -/
def latch (l : Line) (s : State) : Level :=
  match l with
  | .cs => s.cs
  | .dc => s.dc
  | .rst => s.rst

/-- `x[l] <- v` (R11). -/
def setLatch (l : Line) (v : Level) (s : State) : State :=
  match l with
  | .cs => { s with cs := v }
  | .dc => { s with dc := v }
  | .rst => { s with rst := v }

/-! ## ENV -/

/-- ENV's next answer (log 4). -/
def envAnswer (s : State) : Answer :=
  match s.env with
  | a :: _ => a
  | [] => Config.freeAnswer s.envCount

/-- The state once that answer is drawn. -/
def envNext (s : State) : State :=
  match s.env with
  | _ :: rest => { s with env := rest }
  | [] => { s with envCount := s.envCount + 1 }

/-- The outcome of a call on a resource: ENV's answer, but never success when the resource is not open (R115, R116, R171; which
failure then stands for an answer "ok" is D14's InvalidHandle, log 5). -/
def callResult (isOpen : Bool) (own : FailKind) (a : Answer) : CallResult :=
  match a with
  | .fail => .fail own
  | .invalidHandle => .fail .invalidHandle
  | .ok => if isOpen then .ok else .fail .invalidHandle

/-! ## Recording a failure -/

/-- Appending one event to the history (R33). -/
def emit (e : Event) (s : State) : State := { s with trace := s.trace ++ [e] }

/-- The fatal failure (R173): `Halt` is appended, the phase is HALTED, the micro-program is dropped; nothing is released. -/
def haltNow (s : State) : State := { s with trace := s.trace ++ [Event.halt], phase := .halted, prog := [] }

/-- `raise E(info)` (R172): the failure enters the sticky set; a fatal one halts the block; otherwise nothing else. -/
def raise (f : Failure) (fatal : Bool) (s : State) : State :=
  if fatal then haltNow { s with fault := addFailure f s.fault } else { s with fault := addFailure f s.fault }

/-- What is recorded of a failed call: an invalid handle as such, any other kind as the call's own failure (R170, R171). -/
def failureOf (kind : FailKind) (own invalid : Failure) : Failure :=
  match kind with
  | .invalidHandle => invalid
  | _ => own

/-! ## The four transport calls -/

/-- `call OPEN(r)` (R114); a failure is fatal for chip-select alone (R173, R174). -/
def callOpen (r : Resource) (s : State) : State :=
  let o := callResult true .openFailure (envAnswer s)
  let s1 := emit (.opened r o) (envNext s)
  match o with
  | .ok => setOpen r true s1
  | .fail k => raise (failureOf k (.openFailure r) (.invalidHandle r s.pc)) (decide (r = .cs)) s1

/-- `call PINW(l, v)` (R115, R176). -/
def callPinw (l : Line) (v : Bool) (s : State) : State :=
  let o := callResult (openFlag l.resource s) .writeFailure (envAnswer s)
  let s1 := emit (.pin l v o) (envNext s)
  match o with
  | .ok => setLatch l (Level.ofBit v) s1
  | .fail k => raise (failureOf k (.writeFailure l s.pc) (.invalidHandle l.resource s.pc)) false (setLatch l .undriven s1)

/-- `call XFER(bytes)` (R116). -/
def callXfer (bytes : List Byte) (s : State) : State :=
  let o := callResult s.spiOpen .transferFailure (envAnswer s)
  let s1 := emit (.xfer bytes o) (envNext s)
  match o with
  | .ok => s1
  | .fail k => raise (failureOf k (.transferFailure bytes.length s.pc) (.invalidHandle .spi s.pc)) false s1

/-- `call REL(r)` (R117): no outcome, the open flag cleared, a line's latch U. -/
def callRel (r : Resource) (s : State) : State :=
  let s1 := setOpen r false (emit (.rel r) s)
  match r with
  | .spi => s1
  | .cs => setLatch .cs .undriven s1
  | .dc => setLatch .dc .undriven s1
  | .rst => setLatch .rst .undriven s1

/-- `XFERPX` (R152): read the cell `pixctr - 1`, quantize it, send two bytes, count down. -/
def callXferpx (s : State) : State :=
  let s1 := { s with pixw := to565 (s.fb.read (s.pixctr - 1)) }
  let s2 := callXfer (wordBytes s1.pixw) s1
  { s2 with pixctr := s2.pixctr - 1 }

/-! ## Micro-operations -/

/-- The call of a micro-operation (R118). -/
def callOf (m : MicroOp) (s : State) : State :=
  match m with
  | .openr r => callOpen r s
  | .pinw l v => callPinw l v s
  | .xferb b => callXfer [b] s
  | .xferpx => callXferpx s
  | .relr r => callRel r s

/-- Performing a micro-operation (R118): its call, then `pc + 1` unless the call halted the block. A halted block performs nothing
(R21, R173). -/
def perform (m : MicroOp) (s : State) : State :=
  if s.phase = .halted then s
  else
    let s1 := callOf m s
    if s1.phase = .halted then s1 else { s1 with pc := s1.pc + 1 }

/-- Performing a list of micro-operations in order. -/
def performAll (ms : List MicroOp) (s : State) : State := ms.foldl (fun t m => perform m t) s

/-! ## Micro-programs of the sequencer words and of the operations -/

/-- `SENDC(b)` (R119). -/
def sendcProg (c : Cfg) (b : Byte) : List MicroOp :=
  [.pinw .cs c.csActive, .pinw .dc c.dcCmd, .xferb b, .pinw .cs c.csIdle]

/-- `SENDD(b)` (R120). -/
def senddProg (c : Cfg) (b : Byte) : List MicroOp :=
  [.pinw .dc c.dcData, .pinw .cs c.csActive, .xferb b, .pinw .cs c.csIdle]

/-- `exec_w9(w)` (R69, R122). -/
def execW9 (c : Cfg) (w : W9) : List MicroOp := if w9Flag w then senddProg c (w9Byte w) else sendcProg c (w9Byte w)

/-- `exec_words(ws)` (R122). -/
def execWords (c : Cfg) (ws : List W9) : List MicroOp := (ws.map (execW9 c)).flatten

/-- `CONSTRUCT_PROG` (R130). -/
def constructProg (c : Cfg) : List MicroOp :=
  [.openr .spi, .openr .cs, .openr .dc, .openr .rst, .pinw .cs c.csIdle, .pinw .dc c.dcIdle]

/-- `RESET_PROG` (R134). -/
def resetProg : List MicroOp := [.pinw .rst true, .pinw .rst false, .pinw .rst true]

/-- `INIT_PROG` (R135). -/
def initProg (c : Cfg) : List MicroOp := resetProg ++ execWords c c.initWords

/-- `START_PROG` (R129). -/
def startProg (c : Cfg) : List MicroOp := constructProg c ++ initProg c

/-- `STREAM_SETUP_PROG` (R150). -/
def streamSetupProg (c : Cfg) : List MicroOp :=
  match c.streamSetup with
  | .csFirst => [.pinw .cs c.csActive, .pinw .dc c.dcData]
  | .dcFirst => [.pinw .dc c.dcData, .pinw .cs c.csActive]

/-- `PRESENT_PROG` (R149). -/
def presentProg (c : Cfg) : List MicroOp :=
  execWords c (windowWords c) ++ streamSetupProg c ++ List.replicate c.nPix .xferpx ++ [.pinw .cs c.csIdle]

/-- `CLOSE_PROG` (R163): the open resources in the order SPI, CS, DC, RST. -/
def closeProg (s : State) : List MicroOp :=
  (([.spi, .cs, .dc, .rst] : List Resource).filter (fun r => openFlag r s)).map .relr

/-! ## The small step -/

/-- The end of a host operation (R20, R26): the phase moves, `prog` is empty, `pc` is 0, HOST is answered. A lone sequencer word ends
in a phase that is not a running operation's, which it keeps (log 10). -/
def finish (s : State) : State :=
  match s.phase with
  | .init => { s with phase := .ready, prog := [], pc := 0, reply := .done }
  | .presenting => { s with phase := .ready, prog := [], pc := 0, reply := .done }
  | .closing => { s with phase := .closed, prog := [], pc := 0, reply := .done }
  | .construct => { s with prog := [], pc := 0 }
  | .off => { s with prog := [], pc := 0 }
  | .ready => { s with prog := [], pc := 0 }
  | .closed => { s with prog := [], pc := 0 }
  | .halted => s

/-- What follows a micro-operation (R20, R26): at the end of the micro-program the operation is complete; at the end of
CONSTRUCT_PROG the phase becomes INIT. -/
def settle (s : State) : State :=
  if s.phase = .halted then s
  else if s.prog.length ≤ s.pc then finish s
  else if s.phase = .construct ∧ (constructProg s.cfg).length ≤ s.pc then { s with phase := .init }
  else s

/-- Has SEQ a step (R21)? -/
def running (s : State) : Bool := decide (s.phase ≠ .halted ∧ s.pc < s.prog.length)

/-- The micro-operation SEQ performs next, if it has a step. -/
def nextOp (s : State) : Option MicroOp := if running s then s.prog[s.pc]? else none

/-- One step of SEQ (R21): perform `prog[pc]`. Where SEQ has no step, nothing happens. -/
def seqStep (s : State) : State :=
  match nextOp s with
  | some m => settle (perform m s)
  | none => s

/-- `n` steps of SEQ. -/
def seqRun : Nat → State → State
  | 0, s => s
  | n + 1, s => seqRun n (seqStep s)

/-- Does the cell the next `XFERPX` would read exist (R48, R152)? -/
def pixelCellExists (s : State) : Bool := decide (0 < s.pixctr ∧ s.pixctr ≤ fbSize s.cfg)

/-- SEQ's step as an outcome: a pixel transfer whose cell does not exist stops the machine (log 18). -/
def seqOutcome (s : State) : Host.Outcome State Fault Refusal :=
  if nextOp s = some .xferpx ∧ pixelCellExists s = false then .fault .noSuchCell else .next (seqStep s)

/-! ## Host operations -/

/-- A host operation: refused with a reason, with no effect but that (R183), or performed. -/
def hostOp (check : Option RefuseReason) (s : State) (effect : State → State) : Host.Outcome State Fault Refusal :=
  .next (match check with
    | some why => refuse why s
    | none => effect s)

/-- A fetched word that selects no operation: `refuse NoSuchOperation` (R79, R183; wrong operands: log 23). -/
def rejectWord (s : State) : Host.Outcome State Fault Refusal := .next (refuse .noSuchOperation s)

/-- A sequencer word as an instruction: its micro-operations are performed as the next ones of the running micro-program, or, when
none is running, as a micro-program of their own (R118 to R122; log 10). -/
def wordOp (ms : List MicroOp) (s : State) : Host.Outcome State Fault Refusal := .next (settle (performAll ms s))

end Sys2Proof.Machine
end

