-- ==== Sys2Proof/Machine/Close.lean ====
section
/-! DEFINITION. The Close family: `CLOSE` (45_close.md). -/

namespace Sys2Proof.Machine

/-- `CLOSE` is accepted in phase READY alone (R162, R165, R166). -/
def closeCheck (s : State) : Option RefuseReason := if s.phase = .ready then none else some .badPhase

/-- HOST issues `CLOSE` (R26): the micro-program is the release of what is open (R163). -/
def beginClose (s : State) : State :=
  { s with phase := .closing, prog := closeProg s, pc := 0, reply := .nothing }

/-- The big-step reading of `CLOSE` (R162). -/
def closeRun (s : State) : State :=
  let s1 := performAll (closeProg s) (beginClose s)
  { s1 with phase := .closed, prog := [], pc := 0, reply := .done }

/-- `CLOSE` (R162). -/
def execClose (s : State) : Host.Outcome State Fault Refusal := hostOp (closeCheck s) s closeRun

end Sys2Proof.Machine
end

