-- ==== Sys2Proof/Machine/Color.lean ====
section
/-! DEFINITION. The Color family: `TO565` (40_color.md). -/

namespace Sys2Proof.Machine

/-- `TO565` is allowed in every phase in which HOST has a step (R26, R88); elsewhere the pair (phase, operation) is refused (R26;
log 19). -/
def to565Check (s : State) : Option RefuseReason :=
  match s.phase with
  | .off | .ready | .closed | .halted => none
  | .construct | .init | .presenting | .closing => some .badPhase

/-- `TO565 c` (R88): HOST is answered the packed word; no state of the block is read or written. -/
def execTo565 (c : Color) (s : State) : Host.Outcome State Fault Refusal :=
  hostOp (to565Check s) s (fun t => { t with reply := .word (to565 c) })

end Sys2Proof.Machine
end

