-- ==== Sys2Proof/Machine/Framebuffer.lean ====
section
/-! DEFINITION. The Framebuffer family: `GETPIXEL`, `SETPIXEL OVER`, `SETPIXEL BLEND` (41_framebuffer.md). -/

namespace Sys2Proof.Machine

/-- When a framebuffer operation is refused: by the phase (R102, R183; `FbRace` while PRESENTING, R207), then by its coordinates
(R44, R101). The order of the two checks is log 20. -/
def pixelCheck (x y : Int) (s : State) : Option RefuseReason :=
  match s.phase with
  | .presenting => some .fbRace
  | .construct | .init | .closing | .halted => some .badPhase
  | .off | .ready | .closed => if inBounds s.cfg x y then none else some .outOfBounds

/-- `GETPIXEL x y` (R103): HOST is answered the cell's Color, bit for bit. -/
def execGetpixel (x y : Int) (s : State) : Host.Outcome State Fault Refusal :=
  hostOp (pixelCheck x y s) s (fun t =>
    { t with reply := .color ((memRead t.fb (cellAddr t.cfg x y) 1).headD Memory.unlisted) })

/-- `SETPIXEL x y c OVER` (R106): the cell becomes `c`, all four channels. -/
def execSetpixelOver (x y : Int) (c : Color) (s : State) : Host.Outcome State Fault Refusal :=
  hostOp (pixelCheck x y s) s (fun t =>
    { t with fb := memWrite t.fb (cellAddr t.cfg x y) [c], reply := .done })

/-- `SETPIXEL x y c BLEND` (R107): the cell becomes the blend of itself and `c`. -/
def execSetpixelBlend (x y : Int) (c : Color) (s : State) : Host.Outcome State Fault Refusal :=
  hostOp (pixelCheck x y s) s (fun t =>
    let old := (memRead t.fb (cellAddr t.cfg x y) 1).headD Memory.unlisted
    { t with fb := memWrite t.fb (cellAddr t.cfg x y) [blendColor old c], reply := .done })

end Sys2Proof.Machine
end

