-- ==== Sys2Proof/Machine/Present.lean ====
section
/-! DEFINITION. The Present family: `PRESENT` (44_present.md). -/

namespace Sys2Proof.Machine

/-- `PRESENT` is accepted in phase READY alone, with a framebuffer of the panel's size (R146, R147). -/
def presentCheck (s : State) : Option RefuseReason :=
  if s.phase ≠ .ready then some .badPhase
  else if s.cfg.fbW ≠ s.cfg.panelW ∨ s.cfg.fbH ≠ s.cfg.panelH then some .dimMismatch
  else none

/-- HOST issues `PRESENT` (R26, R146): the micro-program is loaded and the pixel counter set. -/
def beginPresent (s : State) : State :=
  { s with phase := .presenting, prog := presentProg s.cfg, pc := 0, pixctr := s.cfg.nPix, reply := .nothing }

/-- `while x[pixctr] > 0 do perform XFERPX` (R146), at most `fuel` times. -/
def streamPixels : Nat → State → State
  | 0, s => s
  | fuel + 1, s => if 0 < s.pixctr then streamPixels fuel (perform .xferpx s) else s

/-- The big-step reading of `PRESENT` (R146): window, stream set-up, every pixel, chip-select idle, then READY. -/
def presentRun (s : State) : State :=
  let s1 := performAll (execWords s.cfg (windowWords s.cfg)) (beginPresent s)
  let s2 := performAll (streamSetupProg s.cfg) s1
  let s3 := streamPixels s2.pixctr s2
  let s4 := perform (.pinw .cs s.cfg.csIdle) s3
  { s4 with phase := .ready, prog := [], pc := 0, reply := .done }

/-- `PRESENT` (R146). -/
def execPresent (s : State) : Host.Outcome State Fault Refusal := hostOp (presentCheck s) s presentRun

end Sys2Proof.Machine
end

