-- ==== Sys2Proof/Machine/Signalling.lean ====
section
/-! DEFINITION. The Signalling family: the sequencer words `SENDC` and `SENDD` (42_signalling.md), and the nineteen panel command words,
each a `SENDC` of its own byte (30_encoding.md R76, R77: sending is all the block does with it). -/

namespace Sys2Proof.Machine

/-- `SENDC b` (R119). -/
def execSendc (b : Byte) (s : State) : Host.Outcome State Fault Refusal := wordOp (sendcProg s.cfg b) s

/-- `SENDD b` (R120). -/
def execSendd (b : Byte) (s : State) : Host.Outcome State Fault Refusal := wordOp (senddProg s.cfg b) s

/-- `MADCTL` (R76, R119). -/
def execMadctl (s : State) : Host.Outcome State Fault Refusal := wordOp (sendcProg s.cfg 0x36) s

/-- `COLMOD` (R76, R119). -/
def execColmod (s : State) : Host.Outcome State Fault Refusal := wordOp (sendcProg s.cfg 0x3A) s

/-- `FRMCTR1` (R76, R119). -/
def execFrmctr1 (s : State) : Host.Outcome State Fault Refusal := wordOp (sendcProg s.cfg 0xB1) s

/-- `FRMCTR2` (R76, R119). -/
def execFrmctr2 (s : State) : Host.Outcome State Fault Refusal := wordOp (sendcProg s.cfg 0xB2) s

/-- `FRMCTR3` (R76, R119). -/
def execFrmctr3 (s : State) : Host.Outcome State Fault Refusal := wordOp (sendcProg s.cfg 0xB3) s

/-- `PWCTR1` (R76, R119). -/
def execPwctr1 (s : State) : Host.Outcome State Fault Refusal := wordOp (sendcProg s.cfg 0xC0) s

/-- `PWCTR2` (R76, R119). -/
def execPwctr2 (s : State) : Host.Outcome State Fault Refusal := wordOp (sendcProg s.cfg 0xC1) s

/-- `PWCTR3` (R76, R119). -/
def execPwctr3 (s : State) : Host.Outcome State Fault Refusal := wordOp (sendcProg s.cfg 0xC2) s

/-- `PWCTR4` (R76, R119). -/
def execPwctr4 (s : State) : Host.Outcome State Fault Refusal := wordOp (sendcProg s.cfg 0xC3) s

/-- `PWCTR5` (R76, R119). -/
def execPwctr5 (s : State) : Host.Outcome State Fault Refusal := wordOp (sendcProg s.cfg 0xC4) s

/-- `VMCTR1` (R76, R119). -/
def execVmctr1 (s : State) : Host.Outcome State Fault Refusal := wordOp (sendcProg s.cfg 0xC5) s

/-- `INVCTR` (R76, R119). -/
def execInvctr (s : State) : Host.Outcome State Fault Refusal := wordOp (sendcProg s.cfg 0xB4) s

/-- `GMCTRP1` (R76, R119). -/
def execGmctrp1 (s : State) : Host.Outcome State Fault Refusal := wordOp (sendcProg s.cfg 0xE0) s

/-- `GMCTRN1` (R76, R119). -/
def execGmctrn1 (s : State) : Host.Outcome State Fault Refusal := wordOp (sendcProg s.cfg 0xE1) s

/-- `SLPOUT` (R76, R119). -/
def execSlpout (s : State) : Host.Outcome State Fault Refusal := wordOp (sendcProg s.cfg 0x11) s

/-- `DISPON` (R76, R119). -/
def execDispon (s : State) : Host.Outcome State Fault Refusal := wordOp (sendcProg s.cfg 0x29) s

/-- `CASET` (R76, R119). -/
def execCaset (s : State) : Host.Outcome State Fault Refusal := wordOp (sendcProg s.cfg 0x2A) s

/-- `RASET` (R76, R119). -/
def execRaset (s : State) : Host.Outcome State Fault Refusal := wordOp (sendcProg s.cfg 0x2B) s

/-- `RAMWR` (R76, R119). -/
def execRamwr (s : State) : Host.Outcome State Fault Refusal := wordOp (sendcProg s.cfg 0x2C) s

end Sys2Proof.Machine
end

