-- ==== Sys2Proof/Machine/Startup.lean ====
section
/-! DEFINITION. The Start-up family: `START` (43_startup_init.md). -/

namespace Sys2Proof.Machine

/-- `START` is accepted in phase OFF alone (R129, R142). -/
def startCheck (s : State) : Option RefuseReason := if s.phase = .off then none else some .badPhase

/-- HOST issues `START` (R26): the micro-program is loaded. This is also the first state of the small-step reading. -/
def beginStart (s : State) : State :=
  { s with phase := .construct, prog := startProg s.cfg, pc := 0, reply := .nothing }

/-- The big-step reading of `START` (R129): construct, unless chip-select cannot be opened initialise, then READY (R141). -/
def startRun (s : State) : State :=
  let s1 := performAll (constructProg s.cfg) (beginStart s)
  if s1.phase = .halted then s1
  else
    let s2 := performAll (initProg s.cfg) { s1 with phase := .init }
    { s2 with phase := .ready, prog := [], pc := 0, reply := .done }

/-- `START` (R128, R129). -/
def execStart (s : State) : Host.Outcome State Fault Refusal := hostOp (startCheck s) s startRun

end Sys2Proof.Machine
end

