-- ==== Sys2Proof/Machine/Dispatch.lean ====
section
/-! DEFINITION. The meaning of every instruction: one arm per constructor of Instr. -/

namespace Sys2Proof.Machine

def exec (i : Instr) (s : State) : Host.Outcome State Fault Refusal :=
  match i with
  | .to565 c => Sys2Proof.Machine.execTo565 c s
  | .getpixel x y => Sys2Proof.Machine.execGetpixel x y s
  | .setpixelOver x y c => Sys2Proof.Machine.execSetpixelOver x y c s
  | .setpixelBlend x y c => Sys2Proof.Machine.execSetpixelBlend x y c s
  | .start => Sys2Proof.Machine.execStart s
  | .present => Sys2Proof.Machine.execPresent s
  | .close => Sys2Proof.Machine.execClose s
  | .sendc b => Sys2Proof.Machine.execSendc b s
  | .sendd b => Sys2Proof.Machine.execSendd b s
  | .madctl => Sys2Proof.Machine.execMadctl s
  | .colmod => Sys2Proof.Machine.execColmod s
  | .frmctr1 => Sys2Proof.Machine.execFrmctr1 s
  | .frmctr2 => Sys2Proof.Machine.execFrmctr2 s
  | .frmctr3 => Sys2Proof.Machine.execFrmctr3 s
  | .pwctr1 => Sys2Proof.Machine.execPwctr1 s
  | .pwctr2 => Sys2Proof.Machine.execPwctr2 s
  | .pwctr3 => Sys2Proof.Machine.execPwctr3 s
  | .pwctr4 => Sys2Proof.Machine.execPwctr4 s
  | .pwctr5 => Sys2Proof.Machine.execPwctr5 s
  | .vmctr1 => Sys2Proof.Machine.execVmctr1 s
  | .invctr => Sys2Proof.Machine.execInvctr s
  | .gmctrp1 => Sys2Proof.Machine.execGmctrp1 s
  | .gmctrn1 => Sys2Proof.Machine.execGmctrn1 s
  | .slpout => Sys2Proof.Machine.execSlpout s
  | .dispon => Sys2Proof.Machine.execDispon s
  | .caset => Sys2Proof.Machine.execCaset s
  | .raset => Sys2Proof.Machine.execRaset s
  | .ramwr => Sys2Proof.Machine.execRamwr s

end Sys2Proof.Machine
end

