-- ==== Sys2Proof/Machine/Step.lean ====
section
/-! DEFINITION. The machine's step. While a micro-program is running it is one step of SEQ, one transport call (10_state.md R21).
Otherwise HOST has the step: its next operation is fetched, decoded and executed, a whole operation in one step (R21 allows it; the
two readings agree). With nothing to fetch the block does nothing (70_reset_and_hazards.md R197). A lone sequencer word that a test
has placed is run first (log 31); HOST cannot place one (42_signalling.md R127). -/

namespace Sys2Proof.Machine

def step (s : State) : Host.Outcome State Fault Refusal :=
  if running s then seqOutcome s
  else
    match s.testPort with
    | .placed w => exec (decodeW9 w) { s with testPort := .used }
    | _ =>
      match s.input with
      | [] => .next s
      | w :: rest =>
        match decode w.fetched with
        | .ok i => exec i { s with input := rest }
        | .error _ => rejectWord { s with input := rest }

/-- The port without a word waiting in it. -/
def TestPort.settled : TestPort → TestPort
  | .placed _ => .used
  | p => p

/-- `s` with the instruction of a table row placed where `step` takes its next instruction from: a host operation in front of those
waiting, a sequencer word in the test port; with no micro-program running (a running one would have the step). -/
def State.withFetchWord (s : State) (nbits w : Nat) : State :=
  let s := { s with prog := if running s then [] else s.prog }
  match tableFetchWord nbits w with
  | .h hop operands => { s with input := ⟨hop, operands⟩ :: s.input, testPort := s.testPort.settled }
  | .w9 word => { s with testPort := .placed word }

end Sys2Proof.Machine
end

