-- ==== Sys2Proof/Machine/Projections.lean ====
section
/-! DEFINITION. The projections of the event history on which claims about the wire are stated: `wire`, `levels`, `rx`
(10_state.md R34, R35), and the calls SEQ attempted, outcomes left out (R23). -/

namespace Sys2Proof.Machine

/-- A transport call without its outcome (R23). -/
inductive Attempt where
  | opened (r : Resource)
  | pin (l : Line) (v : Bool)
  | xfer (bytes : List Byte)
  | rel (r : Resource)
  deriving DecidableEq, Repr

/-- The call an event records; `Halt` records none. -/
def attemptOf : Event → Option Attempt
  | .opened r _ => some (.opened r)
  | .pin l v _ => some (.pin l v)
  | .xfer bytes _ => some (.xfer bytes)
  | .rel r => some (.rel r)
  | .halt => none

/-- The list of calls SEQ attempted (R23). -/
def attempts (t : List Event) : List Attempt := t.filterMap attemptOf

/-- Is it a `Pin` or an `Xfer` event (R34)? -/
def isWireEvent : Event → Bool
  | .pin _ _ _ => true
  | .xfer _ _ => true
  | _ => false

/-- `wire(trace)` (R34). -/
def wire (t : List Event) : List Event := t.filter isWireEvent

/-- The levels of the three driven lines during a walk (R34, R35). -/
structure Pins where
  cs : Level
  dc : Level
  rst : Level
  deriving DecidableEq, Repr

/-- All lines U, as at reset (R34). -/
def Pins.start : Pins := ⟨.undriven, .undriven, .undriven⟩

/-- The level of a line. -/
def Pins.get (p : Pins) : Line → Level
  | .cs => p.cs
  | .dc => p.dc
  | .rst => p.rst

/-- The pins once a line has taken a level. -/
def Pins.set (p : Pins) (l : Line) (v : Bool) : Pins :=
  match l with
  | .cs => { p with cs := Level.ofBit v }
  | .dc => { p with dc := Level.ofBit v }
  | .rst => { p with rst := Level.ofBit v }

/-- Dropping every pin write of the level the line already has; none if a wire event failed (R34). -/
def dropRedundant : Pins → List Event → Option (List Event)
  | _, [] => some []
  | p, .pin l v o :: t =>
    if o = .ok then
      if p.get l = Level.ofBit v then dropRedundant p t
      else (dropRedundant (p.set l v) t).map (fun r => .pin l v .ok :: r)
    else none
  | p, .xfer bytes o :: t => if o = .ok then (dropRedundant p t).map (fun r => .xfer bytes .ok :: r) else none
  | p, .opened _ _ :: t => dropRedundant p t
  | p, .rel _ :: t => dropRedundant p t
  | p, .halt :: t => dropRedundant p t

/-- Putting a transfer in front of a list whose runs of transfers are merged. -/
def consXfer (bytes : List Byte) : List Event → List Event
  | .xfer more .ok :: t => .xfer (bytes ++ more) .ok :: t
  | t => .xfer bytes .ok :: t

/-- Replacing every maximal run of adjacent transfers by one transfer of the concatenated bytes (R34). -/
def mergeXfers : List Event → List Event
  | [] => []
  | .xfer bytes .ok :: t => consXfer bytes (mergeXfers t)
  | e :: t => e :: mergeXfers t

/-- `levels(trace)` (R34). -/
def levels (t : List Event) : Option (List Event) := (dropRedundant Pins.start (wire t)).map mergeXfers

/-- The words of a transfer: each byte with the D/C level as bit 8 (R35). -/
def rxWords (dc : Bool) (bytes : List Byte) : List W9 := bytes.map (w9Of dc)

/-- The walk that defines `rx` (R35), from given levels: a transfer is received with chip-select active and a known D/C level; any
other transfer, and any failed wire event, leaves it undefined. -/
def rxFrom (c : Cfg) : Pins → List Event → Option (List W9)
  | _, [] => some []
  | p, .pin l v o :: t => if o = .ok then rxFrom c (p.set l v) t else none
  | p, .xfer bytes o :: t =>
    if o = .ok ∧ p.cs = Level.ofBit c.csActive then
      match p.dc.bit with
      | some d => (rxFrom c p t).map (fun r => rxWords d bytes ++ r)
      | none => none
    else none
  | p, .opened _ _ :: t => rxFrom c p t
  | p, .rel _ :: t => rxFrom c p t
  | p, .halt :: t => rxFrom c p t

/-- `rx(trace)` (R35): the stream of words the panel receives. -/
def rx (c : Cfg) (t : List Event) : Option (List W9) := rxFrom c Pins.start (wire t)

end Sys2Proof.Machine
end

