-- ==== Sys2Proof/Machine/Script.lean ====
section
/-! DEFINITION. The script notation's pseudo-instructions and their expansions (30_encoding.md R82; 00_scope.md R13). They are
conveniences of a host program, not operations of the block. -/

namespace Sys2Proof.Machine

/-- `D b0 b1 ... bn` (R82). -/
def pseudoD (bs : List Byte) : List Instr := bs.map .sendd

/-- `CMD c ; p0 ... pn` (R82): the command word as the decoder names it, then its data words. -/
def pseudoCmd (c : Byte) (ps : List Byte) : List Instr := decodeCommand c :: pseudoD ps

/-- `WINDOW` (R82): the eleven window words. -/
def pseudoWindow (c : Cfg) : List Instr := (windowWords c).map decodeW9

/-- `RESETPULSE` (R82). -/
def pseudoResetPulse : List MicroOp := resetProg

/-- `SETPIXEL x y c` with no keyword is the BLEND form (R82, R105). -/
def pseudoSetpixel (x y : Int) (c : Color) : Instr := .setpixelBlend x y c

/-- `FILL c` (R82): every row from 0, inside it every column from 0. -/
def pseudoFill (cfg : Cfg) (c : Color) : List Instr :=
  ((List.range cfg.fbH).map (fun (y : Nat) =>
    (List.range cfg.fbW).map (fun (x : Nat) => Instr.setpixelOver (x : Int) (y : Int) c))).flatten

/-- The host operation of an instruction; none for a sequencer word, which HOST cannot issue (R127). -/
def hostWord (i : Instr) : Option HostWord :=
  match encode i with
  | .h hop operands => some ⟨hop, operands⟩
  | .w9 _ => none

/-- A host program: its operations placed where the block fetches them, after those already waiting (R215). A script is made of host
operations alone (R127). -/
def State.withScript (s : State) (ws : List HostWord) : State := { s with input := s.input ++ ws }

end Sys2Proof.Machine
end

