-- ==== Sys2Proof/Safety.lean ====
section
/-! DEFINITION. The terms claims use: what a good run is (60_exceptions.md R194, R195; 70_reset_and_hazards.md R215), the premise on
ENV's answers, the event lists the rules spell out (R119, R120, R130, R134, R145, R148 to R156), the invariants, and the value of a
channel number as a rational. -/

namespace Sys2Proof.Machine

/-! ## Premises and ends of runs -/

/-- ENV answers "ok" to the next `n` calls. -/
abbrev answersOk (n : Nat) (s : State) : Prop := s.env.take n = List.replicate n .ok

/-- The premise of every claim about the wire (R194). -/
abbrev wirePremise (s : State) : Prop := s.fault = [] ∧ s.refused = false

/-- A run of host operations has ended well (R215): script exhausted, no micro-program, a final phase, nothing failed, nothing
refused, and no lone sequencer word was ever placed (R127). -/
abbrev endedWell (s : State) : Prop :=
  s.input = [] ∧ s.prog = [] ∧ (s.phase = .off ∨ s.phase = .ready ∨ s.phase = .closed) ∧ wirePremise s ∧ s.testPort = .unused

/-- The bytes R127 allows on the bus in one transfer: one of the init table or of the window words, or the two of a pixel. -/
def ownBytes (c : Cfg) (m : Memory) (bytes : List Byte) : Prop :=
  (∃ w ∈ c.initWords ++ windowWords c, bytes = [w9Byte w]) ∨ (∃ a, a < fbSize c ∧ bytes = wordBytes (to565 (m.read a)))

/-- A run of host operations (R127): no lone sequencer word has been placed, and a micro-program that is loaded sends only bytes of
the init table, of the window words, and pixels. -/
abbrev hostRun (s : State) : Prop :=
  s.testPort = .unused ∧ ∀ b, MicroOp.xferb b ∈ s.prog → ∃ w ∈ s.cfg.initWords ++ windowWords s.cfg, b = w9Byte w

/-- HOST has the step (R21): no micro-program is running, and no lone sequencer word waits in the test port. -/
abbrev hostHasStep (s : State) : Prop := running s = false ∧ (s.testPort = .unused ∨ s.testPort = .used)

/-- HOST has the step and no operation is running: the phases in which R26 lets HOST act. -/
abbrev betweenOps (s : State) : Prop :=
  s.prog = [] ∧ (s.phase = .off ∨ s.phase = .ready ∨ s.phase = .closed ∨ s.phase = .halted) ∧ (s.phase ≠ .halted → s.pc = 0)

/-! ## Event lists -/

/-- The events of one sequencer word, all calls successful (R119, R120). -/
def wordEvents (c : Cfg) (w : W9) : List Event :=
  if w9Flag w then
    [.pin .dc c.dcData .ok, .pin .cs c.csActive .ok, .xfer [w9Byte w] .ok, .pin .cs c.csIdle .ok]
  else
    [.pin .cs c.csActive .ok, .pin .dc c.dcCmd .ok, .xfer [w9Byte w] .ok, .pin .cs c.csIdle .ok]

/-- The events of a list of words (R122). -/
def wordsEvents (c : Cfg) (ws : List W9) : List Event := (ws.map (wordEvents c)).flatten

/-- The events of `START`, all calls successful (R130, R134, R135, R145). -/
def startEvents (c : Cfg) : List Event :=
  [.opened .spi .ok, .opened .cs .ok, .opened .dc .ok, .opened .rst .ok, .pin .cs c.csIdle .ok, .pin .dc c.dcIdle .ok,
    .pin .rst true .ok, .pin .rst false .ok, .pin .rst true .ok] ++ wordsEvents c c.initWords

/-- The two events before the pixel stream (R150). -/
def setupEvents (c : Cfg) : List Event :=
  match c.streamSetup with
  | .csFirst => [.pin .cs c.csActive .ok, .pin .dc c.dcData .ok]
  | .dcFirst => [.pin .dc c.dcData .ok, .pin .cs c.csActive .ok]

/-- The pixel transfers of the cells `n - 1` down to 0 (R151, R152). -/
def pixelEvents (m : Memory) : Nat → List Event
  | 0 => []
  | n + 1 => .xfer (wordBytes (to565 (m.read n))) .ok :: pixelEvents m n

/-- The events of `PRESENT`, all calls successful (R148 to R153). -/
def presentEvents (c : Cfg) (m : Memory) : List Event :=
  wordsEvents c (windowWords c) ++ setupEvents c ++ pixelEvents m c.nPix ++ [.pin .cs c.csIdle .ok]

/-- The events of `CLOSE` (R163): one release for every open resource, in the order SPI, CS, DC, RST. -/
def closeEvents (s : State) : List Event :=
  (if s.spiOpen then [.rel .spi] else []) ++ (if s.csOpen then [.rel .cs] else [])
    ++ (if s.dcOpen then [.rel .dc] else []) ++ (if s.rstOpen then [.rel .rst] else [])

/-- The words the panel receives for the pixels `n - 1` down to 0 (R156): every pixel byte as a data word, high byte first. -/
def pixelWords (m : Memory) : Nat → List W9
  | 0 => []
  | n + 1 => w9Of true (hiByte (to565 (m.read n))) :: w9Of true (loByte (to565 (m.read n))) :: pixelWords m n

/-- The outcome of an event, if it has one (R33). -/
def Event.result : Event → Option CallResult
  | .opened _ o => some o
  | .pin _ _ o => some o
  | .xfer _ o => some o
  | .rel _ => none
  | .halt => none

/-- Is it an `Open` event? -/
def Event.isOpen : Event → Bool
  | .opened _ _ => true
  | _ => false

/-- Is it a `Pin` event? -/
def Event.isPin : Event → Bool
  | .pin _ _ _ => true
  | _ => false

/-- The number of bytes of a transfer (R53). -/
def Event.xferSize : Event → Option Nat
  | .xfer bytes _ => some bytes.length
  | _ => none

/-- No call of the history failed (R194). -/
abbrev allOk (t : List Event) : Prop := ∀ e ∈ t, e.result = some .ok ∨ e.result = none ∧ e ≠ .halt

/-! ## Invariants -/

/-- The backlight and the two reserved lines are not driven (R17). -/
abbrev undrivenLines (s : State) : Prop := s.bl = .undriven ∧ s.aux0 = .undriven ∧ s.aux1 = .undriven

/-- A line that is not open is not driven (R16, R114, R115, R117). -/
abbrev closedLinesUndriven (s : State) : Prop :=
  (s.csOpen = false → s.cs = .undriven) ∧ (s.dcOpen = false → s.dc = .undriven) ∧ (s.rstOpen = false → s.rst = .undriven)

/-- The pixel memory is in canonical form and lists no address outside the grid (R39, R48). -/
abbrev memoryInGrid (s : State) : Prop := s.fb.wf ∧ ∀ p ∈ s.fb, p.1 < fbSize s.cfg

/-- READY without a failure (R121, R132, R140, R153): everything open, chip-select idle, reset line high, data/command line driven. -/
abbrev readyLines (s : State) : Prop :=
  s.phase = .ready → s.fault = [] →
    s.spiOpen = true ∧ s.csOpen = true ∧ s.dcOpen = true ∧ s.rstOpen = true ∧
      s.cs = Level.ofBit s.cfg.csIdle ∧ s.rst = .high ∧ s.dc ≠ .undriven

/-- The invariant of the machine between operations. -/
structure Inv (s : State) : Prop where
  between : betweenOps s
  memory : memoryInGrid s
  undriven : undrivenLines s
  closedLines : closedLinesUndriven s
  ready : readyLines s
  /-- HALTED only with a failure recorded (R195). -/
  haltedFailed : s.phase = .halted → s.fault ≠ []
  /-- Nothing is open before START (R38) and after CLOSE (R164). -/
  nothingOpen : s.phase = .off ∨ s.phase = .closed →
    s.spiOpen = false ∧ s.csOpen = false ∧ s.dcOpen = false ∧ s.rstOpen = false
  /-- A history without failures has only successful calls (R194). -/
  okTrace : s.fault = [] → allOk s.trace
  /-- The failures are a set (R28). -/
  faultSet : s.fault.Nodup

/-! ## The value of a channel number -/

/-- The value of a finite number as a rational (R87): sign, significand, power of two. -/
def f32Val (x : F32) : Rat := (f32Units x : Rat) / 2 ^ 149

end Sys2Proof.Machine
end

