-- ==== Sys2Proof/Certificates/Slice0/Obligations.lean ====
section
/-! DEFINITION. The statements for the provers, one definition each: what the instructions and the machine do by the numbered rules of
spec/. No statement rests on a default value of an open parameter, and a statement about a free value holds for every value of it. -/

open Sys2Proof Sys2Proof.Machine

/-! ## Decoding, encoding, fetching -/

/-- Words written out from the encodings of R66, R68 and R75 decode to the instructions they stand for. That 0x02A and 0x0E1 are given
the names CASET and GMCTRN1 is the model's choice between two names of one word (log 21; R69 and R77 allow `SENDC` of the byte as
well), over bytes that R76 marks as general knowledge (log 2, PRESUMED). -/
def Obligations.KnownWordsDecode : Prop :=
  decode (.h 0b0001 [.color ⟨1, 2, 3, 4⟩]) = .ok (.to565 ⟨1, 2, 3, 4⟩) ∧
  decode (.h 0b0010 [.int 3, .int 2]) = .ok (.getpixel 3 2) ∧
  decode (.h 0b0011 [.int 3, .int 2, .color ⟨1, 2, 3, 4⟩]) = .ok (.setpixelOver 3 2 ⟨1, 2, 3, 4⟩) ∧
  decode (.h 0b0100 [.int (-1), .int 0, .color ⟨1, 2, 3, 4⟩]) = .ok (.setpixelBlend (-1) 0 ⟨1, 2, 3, 4⟩) ∧
  decode (.h 0b1000 []) = .ok .start ∧ decode (.h 0b1001 []) = .ok .present ∧ decode (.h 0b1010 []) = .ok .close ∧
  decode (.w9 0b000000000) = .ok (.sendc 0x00) ∧ decode (.w9 0b100000101) = .ok (.sendd 0x05) ∧
  decode (.w9 0b000101010) = .ok .caset ∧ decode (.w9 0b011100001) = .ok .gmctrn1 ∧ decode (.w9 0b100101010) = .ok (.sendd 0x2A)

/-- Decoding what the encoder writes gives every well-formed instruction back, whatever its operands. -/
def Obligations.DecodeEncodeRoundTrip : Prop :=
  ∀ i : Instr, i.wellFormed = true → decode (encode i) = .ok i

/-- Every word has one meaning: encoding what was decoded gives the word back, and only well-formed instructions are decoded. -/
def Obligations.DecodedWordsEncodeBack : Prop :=
  ∀ (f : FetchWord) (i : Instr), decode f = .ok i → encode i = f ∧ i.wellFormed = true

/-- R69: every one of the 512 sequencer words is decoded, and does what `SENDC` or `SENDD` of its byte does, by its bit 8 alone. -/
def Obligations.SequencerWordRunsAsSendcOrSendd : Prop :=
  ∀ w : W9, ∃ i, decode (.w9 w) = .ok i ∧
    ∀ s, exec i s = if w.getLsbD 8 = false then exec (.sendc (w.setWidth 8)) s else exec (.sendd (w.setWidth 8)) s

/-- R79: the operation numbers 0, 5, 6, 7 and B to F are refused `NoSuchOperation`, with no other effect; every other number selects
an operation. -/
def Obligations.UnassignedOperationNumbersRefused : Prop :=
  (∀ (s : State) (hop : BitVec 4) (operands : List Operand) (rest : List HostWord),
    hop ∈ ([0x0, 0x5, 0x6, 0x7, 0xB, 0xC, 0xD, 0xE, 0xF] : List (BitVec 4)) →
    hostHasStep s → s.input = ⟨hop, operands⟩ :: rest →
    step s = .next { s with input := rest, refused := true, reply := .refused .noSuchOperation }) ∧
  (∀ hop : BitVec 4, hop ∉ ([0x0, 0x5, 0x6, 0x7, 0xB, 0xC, 0xD, 0xE, 0xF] : List (BitVec 4)) →
    ∃ operands i, decode (.h hop operands) = .ok i)

/-- A step runs the decoded instruction. That HOST's operations wait in the list `input`, the first one taken, is the model's choice
(log 6), and so is that the step runs the whole operation (log 16: R21 and D25 allow both grains). A lone sequencer word, which R127
says HOST cannot send, is run from the test port, the model's own (log 31), as log 10 reads it. -/
def Obligations.StepRunsTheDecodedInstruction : Prop :=
  (∀ (s : State) (w : HostWord) (rest : List HostWord) (i : Instr),
    hostHasStep s → s.input = w :: rest → decode w.fetched = .ok i → step s = exec i { s with input := rest }) ∧
  (∀ (s : State) (w : W9) (i : Instr),
    running s = false → s.testPort = .placed w → decode (.w9 w) = .ok i → step s = exec i { s with testPort := .used })

/-- R21: while a micro-program is running the step performs `prog[pc]`; only a pixel transfer whose cell does not exist stops the
machine (the model's own stop, log 18). -/
def Obligations.StepPerformsTheNextMicroOperation : Prop :=
  ∀ (s : State) (m : MicroOp), s.phase ≠ .halted → s.prog[s.pc]? = some m →
    ((m = .xferpx → 0 < s.pixctr ∧ s.pixctr ≤ s.cfg.fbW * s.cfg.fbH) → step s = .next (settle (perform m s))) ∧
    (m = .xferpx → ¬(0 < s.pixctr ∧ s.pixctr ≤ s.cfg.fbW * s.cfg.fbH) → step s = .fault .noSuchCell)

/-! ## Reset -/

/-- R38, R196, R197: the values the spec gives for reset, and that the block then does nothing until HOST issues an operation. -/
def Obligations.ResetLeavesTheBlockOff : Prop :=
  State.reset.phase = .off ∧ State.reset.pc = 0 ∧ State.reset.prog = [] ∧
  State.reset.cs = .undriven ∧ State.reset.dc = .undriven ∧ State.reset.rst = .undriven ∧
  State.reset.bl = .undriven ∧ State.reset.aux0 = .undriven ∧ State.reset.aux1 = .undriven ∧
  State.reset.spiOpen = false ∧ State.reset.csOpen = false ∧ State.reset.dcOpen = false ∧ State.reset.rstOpen = false ∧
  State.reset.fault = [] ∧ State.reset.refused = false ∧ State.reset.trace = [] ∧
  step State.reset = .next State.reset

/-- R42: after reset, whatever the configuration, `GETPIXEL` answers (+0.0, +0.0, +0.0, +0.0) for every cell of the grid. -/
def Obligations.ResetCellsReadZero : Prop :=
  ∀ (c : Cfg) (x y : Int), 0 ≤ x → x < c.fbW → 0 ≤ y → y < c.fbH →
    exec (.getpixel x y) { State.reset with cfg := c } =
      .next { State.reset with cfg := c, reply := .color ⟨0x00000000, 0x00000000, 0x00000000, 0x00000000⟩ }

/-! ## Color -/

/-- R88, R90: `TO565` answers the packed word of the three quantized channels, or the open value `oob565` when one of them is out of
range, and changes nothing else, in every phase in which HOST has a step; in the other phases it is refused (R26; log 19). -/
def Obligations.To565AnswersThePackedWord : Prop :=
  (∀ (c : Color) (s : State), s.phase = .off ∨ s.phase = .ready ∨ s.phase = .closed ∨ s.phase = .halted →
    exec (.to565 c) s = .next { s with
      reply := .word (
        if inrange c.r = true ∧ inrange c.g = true ∧ inrange c.b = true then
          (BitVec.ofNat 16 (quant c.r 31) <<< 11) ||| (BitVec.ofNat 16 (quant c.g 63) <<< 5) ||| BitVec.ofNat 16 (quant c.b 31)
        else Config.oob565 c.r c.g c.b) }) ∧
  (∀ (c : Color) (s : State), s.phase = .construct ∨ s.phase = .init ∨ s.phase = .presenting ∨ s.phase = .closing →
    exec (.to565 c) s = .next { s with refused := true, reply := .refused .badPhase })

/-- R95: the fields of the packed word are the quantized channels. -/
def Obligations.PackedWordGivesTheChannelsBack : Prop :=
  ∀ c : Color, inrange c.r = true → inrange c.g = true → inrange c.b = true →
    ((to565 c >>> 11) &&& 0x1F).toNat = quant c.r 31 ∧ ((to565 c >>> 5) &&& 0x3F).toNat = quant c.g 63 ∧
      (to565 c &&& 0x1F).toNat = quant c.b 31

/-- R99: the five values the source gives. -/
def Obligations.To565WorkedExamples : Prop :=
  to565 (Color.rgb 0x3F800000 0 0) = 0xF800 ∧ to565 (Color.rgb 0 0x3F800000 0) = 0x07E0 ∧
  to565 (Color.rgb 0 0 0x3F800000) = 0x001F ∧ to565 (Color.rgb 0x3F800000 0x3F800000 0x3F800000) = 0xFFFF ∧
  to565 (Color.rgb 0 0 0) = 0x0000

/-- R93 (Q0, Q1, QR, QX): the quantizer's values lie in 0 to n, both zeros give 0, and n is reached by 1.0 alone. -/
def Obligations.QuantizerReachesItsMaximumOnlyAtOne : Prop :=
  ∀ (c : F32) (n : Nat), inrange c = true → n = 31 ∨ n = 63 →
    quant c n ≤ n ∧ (quant c n = n ↔ c = 0x3F800000) ∧ (c = 0x00000000 ∨ c = 0x80000000 → quant c n = 0)

/-- R93 (QM): the quantizer is monotone. -/
def Obligations.QuantizerIsMonotone : Prop :=
  ∀ (c d : F32) (n : Nat), inrange c = true → inrange d = true → n = 31 ∨ n = 63 → f32Le c d = true → quant c n ≤ quant d n

/-- R91: a product of finite numbers that is finite is a nearest number of the format to the exact product, and of two equally near
ones the one with an even significand. -/
def Obligations.FmulIsTheNearestNumber : Prop :=
  ∀ a b z : F32, f32IsFinite a = true → f32IsFinite b = true → f32IsFinite (fmul a b) = true → f32IsFinite z = true →
    |f32Val (fmul a b) - f32Val a * f32Val b| ≤ |f32Val z - f32Val a * f32Val b| ∧
    (|f32Val (fmul a b) - f32Val a * f32Val b| = |f32Val z - f32Val a * f32Val b| →
      f32Val z ≠ f32Val (fmul a b) → (fmul a b).getLsbD 0 = false)

/-- R91: the same for sums and differences. -/
def Obligations.FaddAndFsubAreTheNearestNumber : Prop :=
  (∀ a b z : F32, f32IsFinite a = true → f32IsFinite b = true → f32IsFinite (fadd a b) = true → f32IsFinite z = true →
    |f32Val (fadd a b) - (f32Val a + f32Val b)| ≤ |f32Val z - (f32Val a + f32Val b)| ∧
    (|f32Val (fadd a b) - (f32Val a + f32Val b)| = |f32Val z - (f32Val a + f32Val b)| →
      f32Val z ≠ f32Val (fadd a b) → (fadd a b).getLsbD 0 = false)) ∧
  (∀ a b z : F32, f32IsFinite a = true → f32IsFinite b = true → f32IsFinite (fsub a b) = true → f32IsFinite z = true →
    |f32Val (fsub a b) - (f32Val a - f32Val b)| ≤ |f32Val z - (f32Val a - f32Val b)| ∧
    (|f32Val (fsub a b) - (f32Val a - f32Val b)| = |f32Val z - (f32Val a - f32Val b)| →
      f32Val z ≠ f32Val (fsub a b) → (fsub a b).getLsbD 0 = false))

/-! ## Framebuffer -/

/-- R103: `GETPIXEL` in bounds answers the cell at `y * FB_W + x`, all four channels, and changes nothing. -/
def Obligations.GetpixelAnswersTheCell : Prop :=
  ∀ (s : State) (x y : Int), s.phase = .off ∨ s.phase = .ready ∨ s.phase = .closed →
    0 ≤ x → x < s.cfg.fbW → 0 ≤ y → y < s.cfg.fbH →
    exec (.getpixel x y) s = .next { s with reply := .color (s.fb.read (y.toNat * s.cfg.fbW + x.toNat)) }

/-- R40: what `SETPIXEL OVER` wrote, `GETPIXEL` answers, bit for bit. -/
def Obligations.OverwrittenCellReadsBack : Prop :=
  ∀ (s : State) (x y : Int) (c : Color), s.fb.wf → s.phase = .off ∨ s.phase = .ready ∨ s.phase = .closed →
    0 ≤ x → x < s.cfg.fbW → 0 ≤ y → y < s.cfg.fbH →
    ∃ t, exec (.setpixelOver x y c) s = .next t ∧ exec (.getpixel x y) t = .next { t with reply := .color c }

/-- R106, R113: `SETPIXEL OVER` in bounds completes; the cell becomes the Color, every other cell and everything else is unchanged. -/
def Obligations.SetpixelOverWritesOneCell : Prop :=
  ∀ (s : State) (x y : Int) (c : Color), s.fb.wf → s.phase = .off ∨ s.phase = .ready ∨ s.phase = .closed →
    0 ≤ x → x < s.cfg.fbW → 0 ≤ y → y < s.cfg.fbH →
    ∃ t, exec (.setpixelOver x y c) s = .next t ∧
      t = { s with fb := t.fb, reply := .done } ∧ t.fb.wf ∧
      t.fb.read (y.toNat * s.cfg.fbW + x.toNat) = c ∧
      ∀ a, a ≠ y.toNat * s.cfg.fbW + x.toNat → t.fb.read a = s.fb.read a

/-- R107, R108, R113: `SETPIXEL BLEND` in bounds completes; each colour channel becomes `fadd(old, fmul(fsub(new, old), new.a))`, alpha
+0.0, every other cell and everything else is unchanged. -/
def Obligations.SetpixelBlendWritesOneCell : Prop :=
  ∀ (s : State) (x y : Int) (c : Color), s.fb.wf → s.phase = .off ∨ s.phase = .ready ∨ s.phase = .closed →
    0 ≤ x → x < s.cfg.fbW → 0 ≤ y → y < s.cfg.fbH →
    ∃ t, exec (.setpixelBlend x y c) s = .next t ∧
      t = { s with fb := t.fb, reply := .done } ∧ t.fb.wf ∧
      (let old := s.fb.read (y.toNat * s.cfg.fbW + x.toNat)
       t.fb.read (y.toNat * s.cfg.fbW + x.toNat) =
        ⟨fadd old.r (fmul (fsub c.r old.r) c.a), fadd old.g (fmul (fsub c.g old.g) c.a),
          fadd old.b (fmul (fsub c.b old.b) c.a), 0x00000000⟩) ∧
      ∀ a, a ≠ y.toNat * s.cfg.fbW + x.toNat → t.fb.read a = s.fb.read a

/-- R110 (b): a blend of weight zero leaves a finite channel numerically unchanged, when the difference of the two channels is
finite (a difference that overflows is an infinity, and an infinity times zero is NaN, R110 (c)). -/
def Obligations.ZeroWeightBlendKeepsTheChannel : Prop :=
  ∀ old new weight : F32, f32IsFinite old = true → f32IsFinite (fsub new old) = true → f32IsZero weight = true →
    f32Eq (blendChannel old new weight) old = true

/-- R110 (a), R112: a blend of weight 1.0 on a channel that is a zero of either sign gives the incoming channel, numerically. -/
def Obligations.FullWeightBlendOnZeroGivesTheNewChannel : Prop :=
  ∀ old new : F32, f32IsZero old = true → f32IsFinite new = true → f32Eq (blendChannel old new 0x3F800000) new = true

/-- R110 (e): a NaN weight makes all three result channels NaN; the alpha is +0.0 all the same (R108). -/
def Obligations.NaNWeightBlendGivesNaN : Prop :=
  ∀ old c : Color, f32IsNaN c.a = true →
    f32IsNaN (blendColor old c).r = true ∧ f32IsNaN (blendColor old c).g = true ∧ f32IsNaN (blendColor old c).b = true ∧
      (blendColor old c).a = 0x00000000

/-- R91, R110 (c): the results for NaN and infinities. NaN goes through every operation; a zero times an infinity and a difference of
equal infinities are NaN; any other product or sum with an infinity is an infinity of the sign it should have; a blend of weight
zero with an infinite or NaN channel is NaN. Which NaN is open (log 13). -/
def Obligations.NaNAndInfinityResults : Prop :=
  (∀ a b : F32, f32IsNaN a = true ∨ f32IsNaN b = true →
    f32IsNaN (fmul a b) = true ∧ f32IsNaN (fadd a b) = true ∧ f32IsNaN (fsub a b) = true) ∧
  (∀ a b : F32, f32IsInf a = true → f32IsZero b = true → f32IsNaN (fmul a b) = true ∧ f32IsNaN (fmul b a) = true) ∧
  (∀ a b : F32, f32IsInf a = true → f32IsNaN b = false → f32IsZero b = false →
    f32IsInf (fmul a b) = true ∧ f32IsInf (fmul b a) = true ∧
    f32Sign (fmul a b) = (f32Sign a != f32Sign b) ∧ f32Sign (fmul b a) = (f32Sign a != f32Sign b)) ∧
  (∀ a b : F32, f32IsInf a = true → f32IsInf b = true →
    (f32Sign a ≠ f32Sign b → f32IsNaN (fadd a b) = true ∧ fsub a b = a) ∧
    (f32Sign a = f32Sign b → fadd a b = a ∧ f32IsNaN (fsub a b) = true)) ∧
  (∀ a b : F32, f32IsInf a = true → f32IsFinite b = true →
    fadd a b = a ∧ fadd b a = a ∧ fsub a b = a ∧ f32IsInf (fsub b a) = true ∧ f32Sign (fsub b a) = !f32Sign a) ∧
  (∀ old new weight : F32, f32IsZero weight = true → f32IsFinite old = false ∨ f32IsFinite new = false →
    f32IsNaN (blendChannel old new weight) = true)

/-- R91: overflow and signs. A product, sum or difference of finite numbers is finite exactly when its exact value lies below the
largest finite number by rounding (halfway to 2 ^ 128), and is an infinity otherwise; the sign is that of the exact value, an exact
zero product has the product of the signs, and an exact zero sum is + unless both operands (the second one negated, for a
difference) are negative zeros. -/
def Obligations.OverflowAndSigns : Prop :=
  ∀ a b : F32, f32IsFinite a = true → f32IsFinite b = true →
    ((f32IsFinite (fmul a b) = true ↔ |f32Val a * f32Val b| < (2 ^ 25 - 1) * 2 ^ 103) ∧
      (f32IsFinite (fmul a b) = false → f32IsInf (fmul a b) = true) ∧ f32Sign (fmul a b) = (f32Sign a != f32Sign b)) ∧
    ((f32IsFinite (fadd a b) = true ↔ |f32Val a + f32Val b| < (2 ^ 25 - 1) * 2 ^ 103) ∧
      (f32IsFinite (fadd a b) = false → f32IsInf (fadd a b) = true) ∧
      (f32Val a + f32Val b ≠ 0 → f32Sign (fadd a b) = decide (f32Val a + f32Val b < 0)) ∧
      (f32Val a + f32Val b = 0 → fadd a b = if f32Sign a && f32Sign b then 0x80000000 else 0x00000000)) ∧
    ((f32IsFinite (fsub a b) = true ↔ |f32Val a - f32Val b| < (2 ^ 25 - 1) * 2 ^ 103) ∧
      (f32IsFinite (fsub a b) = false → f32IsInf (fsub a b) = true) ∧
      (f32Val a - f32Val b ≠ 0 → f32Sign (fsub a b) = decide (f32Val a - f32Val b < 0)) ∧
      (f32Val a - f32Val b = 0 → fsub a b = if f32Sign a && !f32Sign b then 0x80000000 else 0x00000000))

/-- R39, R48: row-major addressing is one to one between the coordinates in bounds and the addresses 0 to FB_W * FB_H - 1. -/
def Obligations.CoordinatesAndAddressesAgree : Prop :=
  ∀ c : Cfg,
    (∀ x y : Int, inBounds c x y = true → cellAddr c x y < c.fbW * c.fbH) ∧
    (∀ x y x' y' : Int, inBounds c x y = true → inBounds c x' y' = true → cellAddr c x y = cellAddr c x' y' → x = x' ∧ y = y') ∧
    (∀ a, a < c.fbW * c.fbH → ∃ x y : Int, inBounds c x y = true ∧ cellAddr c x y = a)

/-- R44, R102, R207: the three framebuffer operations are refused out of bounds, while PRESENTING (`FbRace`) and in HALTED
(`BadPhase`), with no effect but the mark and the answer. Where the coordinates are out of bounds in PRESENTING or HALTED, R183 gives
two reasons: that the phase is named is the model's choice (log 20). That the one host agent meets `FbRace` in a state whose phase is
PRESENTING is the model's way of showing a second agent's access (log 28). -/
def Obligations.PixelOperationsRefused : Prop :=
  ∀ (s : State) (x y : Int) (c : Color) (i : Instr),
    i = .getpixel x y ∨ i = .setpixelOver x y c ∨ i = .setpixelBlend x y c →
    ((s.phase = .off ∨ s.phase = .ready ∨ s.phase = .closed) → ¬(0 ≤ x ∧ x < s.cfg.fbW ∧ 0 ≤ y ∧ y < s.cfg.fbH) →
      exec i s = .next { s with refused := true, reply := .refused .outOfBounds }) ∧
    (s.phase = .presenting → exec i s = .next { s with refused := true, reply := .refused .fbRace }) ∧
    (s.phase = .halted → exec i s = .next { s with refused := true, reply := .refused .badPhase })

/-! ## Transport calls and sequencer words -/

/-- R117: a release appends its event, clears the resource's open flag and leaves a line not driven; no other flag and no other line
changes. -/
def Obligations.ReleaseClosesTheResource : Prop :=
  ∀ (r : Resource) (s : State),
    (callRel r s).trace = s.trace ++ [.rel r] ∧ openFlag r (callRel r s) = false ∧
    (∀ r', r' ≠ r → openFlag r' (callRel r s) = openFlag r' s) ∧
    (∀ l : Line, latch l (callRel r s) = if l.resource = r then .undriven else latch l s)

/-- R115, R116, R152, R171, R176: a pin write or a transfer (of one byte, or of a pixel's two) on a resource that is not open fails
whatever ENV answers: the failed event is in the history, the failure in the set, the line's latch is U, and the micro-program goes
on. Which failure stands for ENV's answer "ok" is the model's reading (log 5); both are allowed here. -/
def Obligations.CallOnAClosedResourceFails : Prop :=
  ∀ s : State, s.phase ≠ .halted →
    (∀ (l : Line) (v : Bool), openFlag l.resource s = false →
      ∃ k f, (k = .writeFailure ∧ f = .writeFailure l s.pc ∨ k = .invalidHandle ∧ f = .invalidHandle l.resource s.pc) ∧
        (perform (.pinw l v) s).trace = s.trace ++ [.pin l v (.fail k)] ∧ f ∈ (perform (.pinw l v) s).fault ∧
        latch l (perform (.pinw l v) s) = .undriven ∧ (perform (.pinw l v) s).pc = s.pc + 1) ∧
    (∀ b : Byte, s.spiOpen = false →
      ∃ k f, (k = .transferFailure ∧ f = .transferFailure 1 s.pc ∨ k = .invalidHandle ∧ f = .invalidHandle .spi s.pc) ∧
        (perform (.xferb b) s).trace = s.trace ++ [.xfer [b] (.fail k)] ∧ f ∈ (perform (.xferb b) s).fault ∧
        (perform (.xferb b) s).pc = s.pc + 1) ∧
    (s.spiOpen = false → 0 < s.pixctr →
      ∃ k f, (k = .transferFailure ∧ f = .transferFailure 2 s.pc ∨ k = .invalidHandle ∧ f = .invalidHandle .spi s.pc) ∧
        (perform .xferpx s).trace = s.trace ++ [.xfer (wordBytes (to565 (s.fb.read (s.pixctr - 1)))) (.fail k)] ∧
        f ∈ (perform .xferpx s).fault ∧ (perform .xferpx s).pc = s.pc + 1 ∧ (perform .xferpx s).pixctr = s.pixctr - 1)

/-- R172, R174, R176 to R178: a failure that ENV chooses, the resource open or not: the kind ENV gave is in the event, the failure
joins the set, a failed pin write leaves its latch U, a failed open of SPI, DC or RST leaves the open flag as it was, the
micro-program goes on, and nothing else of the block changes. (A failed open of chip-select is the fatal case, stated by
`OnlyAFailedChipSelectOpenHalts`.) -/
def Obligations.FailureChosenByEnvIsRecorded : Prop :=
  ∀ s : State, s.phase ≠ .halted →
    (∀ (l : Line) (v : Bool), envAnswer s ≠ .ok →
      ∃ k f, (envAnswer s = .fail ∧ k = .writeFailure ∧ f = .writeFailure l s.pc ∨
          envAnswer s = .invalidHandle ∧ k = .invalidHandle ∧ f = .invalidHandle l.resource s.pc) ∧
        f ∈ (perform (.pinw l v) s).fault ∧ s.fault ⊆ (perform (.pinw l v) s).fault ∧
        latch l (perform (.pinw l v) s) = .undriven ∧ (∀ l', l' ≠ l → latch l' (perform (.pinw l v) s) = latch l' s) ∧
        perform (.pinw l v) s = { envNext s with
          cs := (perform (.pinw l v) s).cs, dc := (perform (.pinw l v) s).dc, rst := (perform (.pinw l v) s).rst
          fault := (perform (.pinw l v) s).fault, trace := s.trace ++ [.pin l v (.fail k)], pc := s.pc + 1 }) ∧
    (∀ b : Byte, envAnswer s ≠ .ok →
      ∃ k f, (envAnswer s = .fail ∧ k = .transferFailure ∧ f = .transferFailure 1 s.pc ∨
          envAnswer s = .invalidHandle ∧ k = .invalidHandle ∧ f = .invalidHandle .spi s.pc) ∧
        f ∈ (perform (.xferb b) s).fault ∧ s.fault ⊆ (perform (.xferb b) s).fault ∧
        perform (.xferb b) s = { envNext s with
          fault := (perform (.xferb b) s).fault, trace := s.trace ++ [.xfer [b] (.fail k)], pc := s.pc + 1 }) ∧
    (envAnswer s ≠ .ok → 0 < s.pixctr →
      ∃ k f, (envAnswer s = .fail ∧ k = .transferFailure ∧ f = .transferFailure 2 s.pc ∨
          envAnswer s = .invalidHandle ∧ k = .invalidHandle ∧ f = .invalidHandle .spi s.pc) ∧
        f ∈ (perform .xferpx s).fault ∧ s.fault ⊆ (perform .xferpx s).fault ∧
        perform .xferpx s = { envNext s with
          fault := (perform .xferpx s).fault, pixw := to565 (s.fb.read (s.pixctr - 1)), pixctr := s.pixctr - 1
          trace := s.trace ++ [.xfer (wordBytes (to565 (s.fb.read (s.pixctr - 1)))) (.fail k)], pc := s.pc + 1 }) ∧
    (∀ r : Resource, r ≠ .cs → envAnswer s ≠ .ok →
      ∃ k f, (envAnswer s = .fail ∧ k = .openFailure ∧ f = .openFailure r ∨
          envAnswer s = .invalidHandle ∧ k = .invalidHandle ∧ f = .invalidHandle r s.pc) ∧
        f ∈ (perform (.openr r) s).fault ∧ s.fault ⊆ (perform (.openr r) s).fault ∧
        (∀ r', openFlag r' (perform (.openr r) s) = openFlag r' s) ∧
        perform (.openr r) s = { envNext s with
          fault := (perform (.openr r) s).fault, trace := s.trace ++ [.opened r (.fail k)], pc := s.pc + 1 })

/-- R172 to R174: a micro-operation halts the block exactly when it is the open of chip-select and ENV does not answer "ok"; then the
failed open and `Halt` are appended, the failure enters the set, the micro-program is dropped, and no resource is released. -/
def Obligations.OnlyAFailedChipSelectOpenHalts : Prop :=
  ∀ (m : MicroOp) (s : State), s.phase ≠ .halted →
    ((perform m s).phase = .halted ↔ m = .openr .cs ∧ envAnswer s ≠ .ok) ∧
    (m = .openr .cs → envAnswer s ≠ .ok →
      ∃ k f, (k = .openFailure ∧ f = .openFailure .cs ∨ k = .invalidHandle ∧ f = .invalidHandle .cs s.pc) ∧
        (perform m s).trace = s.trace ++ [.opened .cs (.fail k), .halt] ∧ f ∈ (perform m s).fault ∧ (perform m s).prog = [] ∧
        (perform m s).pc = s.pc ∧ ∀ r, openFlag r (perform m s) = openFlag r s)

/-- R119: `SENDC b`, all calls successful: four events in the stated order, chip-select back at idle, the data/command line at the
command level. That a word run between operations leaves pc, prog and phase as they were is the model's choice (log 10): R118 alone
advances pc by four, and R127 lets no host issue the word. -/
def Obligations.SendcSendsACommandByte : Prop :=
  ∀ (s : State) (b : Byte), betweenOps s → s.phase ≠ .halted → s.spiOpen = true → s.csOpen = true → s.dcOpen = true → answersOk 4 s →
    exec (.sendc b) s = .next { s with
      cs := Level.ofBit s.cfg.csIdle, dc := Level.ofBit s.cfg.dcCmd, env := s.env.drop 4
      trace := s.trace ++ [.pin .cs s.cfg.csActive .ok, .pin .dc s.cfg.dcCmd .ok, .xfer [b] .ok, .pin .cs s.cfg.csIdle .ok] }

/-- R120: `SENDD b`, all calls successful: the data/command line is set first, while chip-select is still as it was. The unchanged pc,
prog and phase of a word run between operations are the model's choice (log 10). -/
def Obligations.SenddSendsADataByte : Prop :=
  ∀ (s : State) (b : Byte), betweenOps s → s.phase ≠ .halted → s.spiOpen = true → s.csOpen = true → s.dcOpen = true → answersOk 4 s →
    exec (.sendd b) s = .next { s with
      cs := Level.ofBit s.cfg.csIdle, dc := Level.ofBit s.cfg.dcData, env := s.env.drop 4
      trace := s.trace ++ [.pin .dc s.cfg.dcData .ok, .pin .cs s.cfg.csActive .ok, .xfer [b] .ok, .pin .cs s.cfg.csIdle .ok] }

/-- R77, R119: each of the nineteen panel command words sends the byte of its row as a command byte, and nothing else. The nineteen
bytes are general knowledge by R76's own mark (log 2, PRESUMED): the row's byte is fixed, whatever `OP_CASET`, `OP_RASET` and
`OP_RAMWR` of the configuration are. The unchanged pc, prog and phase of a lone word are the model's choice (log 10). -/
def Obligations.PanelCommandsSendTheirByte : Prop :=
  ∀ p ∈ ([(.madctl, 0x36), (.colmod, 0x3A), (.frmctr1, 0xB1), (.frmctr2, 0xB2), (.frmctr3, 0xB3), (.pwctr1, 0xC0),
      (.pwctr2, 0xC1), (.pwctr3, 0xC2), (.pwctr4, 0xC3), (.pwctr5, 0xC4), (.vmctr1, 0xC5), (.invctr, 0xB4), (.gmctrp1, 0xE0),
      (.gmctrn1, 0xE1), (.slpout, 0x11), (.dispon, 0x29), (.caset, 0x2A), (.raset, 0x2B), (.ramwr, 0x2C)] : List (Instr × Byte)),
    ∀ s : State, betweenOps s → s.phase ≠ .halted → s.spiOpen = true → s.csOpen = true → s.dcOpen = true → answersOk 4 s →
      exec p.1 s = .next { s with
        cs := Level.ofBit s.cfg.csIdle, dc := Level.ofBit s.cfg.dcCmd, env := s.env.drop 4
        trace := s.trace ++ [.pin .cs s.cfg.csActive .ok, .pin .dc s.cfg.dcCmd .ok, .xfer [p.2] .ok, .pin .cs s.cfg.csIdle .ok] }

/-- R23, R119, R120, R172: whatever ENV answers, a sequencer word attempts its four calls in order and does not halt. -/
def Obligations.WordsAttemptTheirCallsWhateverEnvAnswers : Prop :=
  ∀ (s : State) (w : W9), s.phase ≠ .halted →
    ∃ t, exec (decodeW9 w) s = .next t ∧ t.phase ≠ .halted ∧ s.fault ⊆ t.fault ∧
      attempts t.trace = attempts s.trace ++
        (if w9Flag w then [.pin .dc s.cfg.dcData, .pin .cs s.cfg.csActive, .xfer [w9Byte w], .pin .cs s.cfg.csIdle]
        else [.pin .cs s.cfg.csActive, .pin .dc s.cfg.dcCmd, .xfer [w9Byte w], .pin .cs s.cfg.csIdle])

/-- The frame of every sequencer word between operations, whatever ENV answers: only the two latches, the failures, the history and
ENV's answers change. R118 to R120 give the calls; that a lone word keeps pc, prog, phase and the answer is the model's choice
(log 10), and that it does nothing in HALTED the model's reading (log 11). -/
def Obligations.WordsFrame : Prop :=
  ∀ (s t : State) (w : W9), betweenOps s → exec (decodeW9 w) s = .next t →
    t = { s with cs := t.cs, dc := t.dc, fault := t.fault, trace := t.trace, env := t.env, envCount := t.envCount }

/-- R125: with all calls successful a sequencer word adds itself, and nothing else, to what the panel receives; and the words a list
of words puts on the wire are the list. -/
def Obligations.WordsReachThePanel : Prop :=
  (∀ (s : State) (w : W9) (seen : List W9), s.cfg.dcCmd = false → s.cfg.dcData = true →
    betweenOps s → s.phase ≠ .halted → s.spiOpen = true → s.csOpen = true → s.dcOpen = true → answersOk 4 s →
    rx s.cfg s.trace = some seen →
    ∃ t, exec (decodeW9 w) s = .next t ∧ rx t.cfg t.trace = some (seen ++ [w])) ∧
  (∀ (c : Cfg) (ws : List W9), c.dcCmd = false → c.dcData = true → rx c (wordsEvents c ws) = some ws)

/-! ## START -/

/-- R129 to R140: `START` from OFF, all calls successful: the whole event list, everything open, the lines as R140 says, READY; the
framebuffer and the rest unchanged. With a table that ends as law (c) of R70 says, the data/command line is at the command level. -/
def Obligations.StartBringsTheBlockToReady : Prop :=
  (∀ s : State, s.phase = .off → answersOk (9 + 4 * s.cfg.initWords.length) s →
    exec .start s = .next { s with
      phase := .ready, prog := [], pc := 0, reply := .done
      spiOpen := true, csOpen := true, dcOpen := true, rstOpen := true
      cs := Level.ofBit s.cfg.csIdle, rst := .high
      dc := Level.ofBit (match s.cfg.initWords.getLast? with
        | none => s.cfg.dcIdle
        | some w => if w9Flag w then s.cfg.dcData else s.cfg.dcCmd)
      trace := s.trace ++ startEvents s.cfg, env := s.env.drop (9 + 4 * s.cfg.initWords.length) }) ∧
  (∀ s : State, s.phase = .off → answersOk (9 + 4 * s.cfg.initWords.length) s → s.cfg.lawInitLast = true →
    ∃ t, exec .start s = .next t ∧ t.dc = Level.ofBit s.cfg.dcCmd)

/-- R23, R141, R173, R214: `START` from OFF ends whatever ENV answers: in HALTED, with its three events, exactly when chip-select is not
opened, and otherwise in READY, every call attempted; the framebuffer is untouched. -/
def Obligations.StartEndsWhateverEnvAnswers : Prop :=
  ∀ s : State, s.phase = .off →
    ∃ t, exec .start s = .next t ∧ t.fb = s.fb ∧ t.cfg = s.cfg ∧ t.prog = [] ∧ s.fault ⊆ t.fault ∧
      (envAnswer (envNext s) = .ok → t.phase = .ready ∧ attempts t.trace = attempts s.trace ++ attempts (startEvents s.cfg)) ∧
      (envAnswer (envNext s) ≠ .ok → t.phase = .halted ∧ t.fault ≠ [] ∧
        ∃ o k, t.trace = s.trace ++ [.opened .spi o, .opened .cs (.fail k), .halt])

/-- R142: `START` in any phase but OFF is refused with no effect but the mark and the answer, and from CLOSED or HALTED no step leads
out of that phase. (For a lone sequencer word in the test port, which no host places, this is the model's reading, log 10 and log 11.) -/
def Obligations.StartRefusedOutsideOff : Prop :=
  (∀ s : State, s.phase ≠ .off → exec .start s = .next { s with refused := true, reply := .refused .badPhase }) ∧
  (∀ s t : State, betweenOps s → s.phase = .closed ∨ s.phase = .halted → step s = .next t → t.phase = s.phase)

/-- R137, R140: after a successful `START` from reset's empty history the panel has received exactly `INIT_WORDS`. -/
def Obligations.StartSendsTheInitTable : Prop :=
  ∀ s : State, s.phase = .off → s.trace = [] → s.cfg.dcCmd = false → s.cfg.dcData = true →
    answersOk (9 + 4 * s.cfg.initWords.length) s →
    ∃ t, exec .start s = .next t ∧ rx t.cfg t.trace = some s.cfg.initWords

/-- R135, R144: the register-initialisation FSM: at word `i` of the init table, four small steps do what the word's instruction does.
That a word as an instruction is the next four micro-operations of the running micro-program is the model's choice (log 10). -/
def Obligations.RomWordRunsAsItsInstruction : Prop :=
  ∀ (s : State) (i : Nat) (w : W9), s.phase = .init → s.prog = startProg s.cfg → s.pc = 9 + 4 * i → s.cfg.initWords[i]? = some w →
    exec (decodeW9 w) s = .next (seqRun 4 s)

/-- R21, R214, D25: the small steps of the machine make up the whole operation: run from the state in which HOST has issued it, the
machine reaches, without a stop and in exactly the counted number of steps, the state that the operation's big-step meaning gives:
9 + 4n for `START` (2 when chip-select is not opened), 47 + N_PIX for `PRESENT`, one for every open resource for `CLOSE`. -/
def Obligations.SmallStepsMakeTheWholeOperation : Prop :=
  (∀ s : State, s.phase = .off → envAnswer (envNext s) = .ok →
    ∃ t, Host.Core.run Sys2Proof.core (9 + 4 * s.cfg.initWords.length) (beginStart s) = .next t ∧ exec .start s = .next t) ∧
  (∀ s : State, s.phase = .off → envAnswer (envNext s) ≠ .ok →
    ∃ t, Host.Core.run Sys2Proof.core 2 (beginStart s) = .next t ∧ exec .start s = .next t) ∧
  (∀ s : State, s.phase = .ready → s.cfg.fbW = s.cfg.panelW → s.cfg.fbH = s.cfg.panelH →
    ∃ t, Host.Core.run Sys2Proof.core (47 + s.cfg.nPix) (beginPresent s) = .next t ∧ exec .present s = .next t) ∧
  (∀ s : State, s.phase = .ready →
    ∃ t, Host.Core.run Sys2Proof.core (closeEvents s).length (settle (beginClose s)) = .next t ∧ exec .close s = .next t)

/-! ## PRESENT -/

/-- R146 to R153: `PRESENT`, all calls successful: the whole event list (window, set-up, every cell from the last to the first as two
bytes, chip-select idle), the latches as R153 says, the framebuffer and the rest unchanged. -/
def Obligations.PresentStreamsTheFrame : Prop :=
  ∀ s : State, s.phase = .ready → s.cfg.fbW = s.cfg.panelW → s.cfg.fbH = s.cfg.panelH →
    s.spiOpen = true → s.csOpen = true → s.dcOpen = true → answersOk (47 + s.cfg.nPix) s →
    exec .present s = .next { s with
      phase := .ready, prog := [], pc := 0, reply := .done
      cs := Level.ofBit s.cfg.csIdle, dc := Level.ofBit s.cfg.dcData
      pixw := if s.cfg.nPix = 0 then s.pixw else to565 (s.fb.read 0), pixctr := 0
      trace := s.trace ++ presentEvents s.cfg s.fb, env := s.env.drop (47 + s.cfg.nPix) }

/-- R23, R160: whatever ENV answers, `PRESENT` attempts every call of the frame and returns to READY; the frame of what it leaves alone. -/
def Obligations.PresentAttemptsEveryCall : Prop :=
  ∀ s : State, s.phase = .ready → s.cfg.fbW = s.cfg.panelW → s.cfg.fbH = s.cfg.panelH →
    ∃ t, exec .present s = .next t ∧ t.phase = .ready ∧
      attempts t.trace = attempts s.trace ++ attempts (presentEvents s.cfg s.fb) ∧ s.fault ⊆ t.fault ∧
      t = { s with
        prog := [], pc := 0, reply := .done, cs := t.cs, dc := t.dc, pixw := t.pixw, pixctr := 0
        fault := t.fault, trace := t.trace, env := t.env, envCount := t.envCount }

/-- R146, R147, R159: `PRESENT` is refused outside READY and with a framebuffer that is not the panel's size. -/
def Obligations.PresentRefused : Prop :=
  (∀ s : State, s.phase ≠ .ready → exec .present s = .next { s with refused := true, reply := .refused .badPhase }) ∧
  (∀ s : State, s.phase = .ready → s.cfg.fbW ≠ s.cfg.panelW ∨ s.cfg.fbH ≠ s.cfg.panelH →
    exec .present s = .next { s with refused := true, reply := .refused .dimMismatch })

/-- R156: what the panel receives from one successful `PRESENT`: the window words, then for every cell from the last to the first its
packed colour as two data words, high byte first. -/
def Obligations.PanelReceivesTheFrame : Prop :=
  ∀ (s : State) (seen : List W9), s.phase = .ready → s.cfg.fbW = s.cfg.panelW → s.cfg.fbH = s.cfg.panelH →
    s.spiOpen = true → s.csOpen = true → s.dcOpen = true → s.cfg.dcCmd = false → s.cfg.dcData = true →
    answersOk (47 + s.cfg.nPix) s → rx s.cfg s.trace = some seen →
    ∃ t, exec .present s = .next t ∧
      rx t.cfg t.trace = some (seen ++ windowWords s.cfg ++ pixelWords s.fb s.cfg.nPix)

/-- R94, R156: alpha never reaches the wire: `TO565` does not depend on it, and two blocks whose framebuffers differ only in alpha
channels append the same events in `PRESENT`, whatever ENV answers. -/
def Obligations.AlphaNeverReachesTheWire : Prop :=
  (∀ (c : Color) (a : F32), to565 ⟨c.r, c.g, c.b, a⟩ = to565 c) ∧
  (∀ (s : State) (m : Memory), s.phase = .ready →
    (∀ a, (m.read a).r = (s.fb.read a).r ∧ (m.read a).g = (s.fb.read a).g ∧ (m.read a).b = (s.fb.read a).b) →
    ∃ t t', exec .present s = .next t ∧ exec .present { s with fb := m } = .next t' ∧ t'.trace = t.trace ∧ t'.fault = t.fault)

/-- R139, R155: the counts of the events that `START` and `PRESENT` append to the history, all calls successful: opens, pin writes,
transfers and the bytes of each transfer; and how often `PRESENT` writes chip-select active and idle. -/
def Obligations.EventCounts : Prop :=
  (∀ s : State, s.phase = .off → answersOk (9 + 4 * s.cfg.initWords.length) s →
    ∃ t new, exec .start s = .next t ∧ t.trace = s.trace ++ new ∧
      new.length = 6 + 3 + 4 * s.cfg.initWords.length ∧
      (new.filter Event.isOpen).length = 4 ∧
      (new.filter Event.isPin).length = 2 + 3 + 3 * s.cfg.initWords.length ∧
      new.filterMap Event.xferSize = List.replicate s.cfg.initWords.length 1) ∧
  (∀ s : State, s.phase = .ready → s.cfg.fbW = s.cfg.panelW → s.cfg.fbH = s.cfg.panelH →
    s.spiOpen = true → s.csOpen = true → s.dcOpen = true → answersOk (47 + s.cfg.nPix) s →
    ∃ t new, exec .present s = .next t ∧ t.trace = s.trace ++ new ∧
      new.length = 47 + s.cfg.nPix ∧
      (new.filter Event.isPin).length = 36 ∧
      new.filterMap Event.xferSize = List.replicate 11 1 ++ List.replicate s.cfg.nPix 2 ∧
      (new.filterMap Event.xferSize).sum = 11 + 2 * s.cfg.nPix ∧
      (s.cfg.csActive ≠ s.cfg.csIdle →
        new.count (.pin .cs s.cfg.csActive .ok) = 12 ∧ new.count (.pin .cs s.cfg.csIdle .ok) = 12))

/-- R34, R35, R124: `levels` is defined exactly when every `Pin` and `Xfer` event is ok; it does not see how adjacent transfers are
grouped, nor a repeated write of a level; and it keeps what the panel receives. -/
def Obligations.LevelsDoNotSeeBatching : Prop :=
  (∀ t : List Event, (levels t).isSome = true ↔ ∀ e ∈ wire t, e.result = some .ok) ∧
  (∀ (t u : List Event) (p q : List Byte),
    levels (t ++ [.xfer p .ok, .xfer q .ok] ++ u) = levels (t ++ [.xfer (p ++ q) .ok] ++ u)) ∧
  (∀ (t u : List Event) (l : Line) (v : Bool),
    levels (t ++ [.pin l v .ok, .pin l v .ok] ++ u) = levels (t ++ [.pin l v .ok] ++ u)) ∧
  (∀ (c : Cfg) (t u : List Event), levels t = some u → rx c u = rx c t)

/-! ## CLOSE -/

/-- R162 to R164: `CLOSE` from READY: one release for every open resource in order, flags cleared, the lines that were open not driven,
CLOSED; history and failures kept, the framebuffer unchanged. No answer of ENV is drawn. -/
def Obligations.CloseReleasesWhatIsOpen : Prop :=
  ∀ s : State, s.phase = .ready →
    exec .close s = .next { s with
      phase := .closed, prog := [], pc := 0, reply := .done
      spiOpen := false, csOpen := false, dcOpen := false, rstOpen := false
      cs := if s.csOpen then .undriven else s.cs, dc := if s.dcOpen then .undriven else s.dc
      rst := if s.rstOpen then .undriven else s.rst
      trace := s.trace ++ closeEvents s }

/-- R165, R166: `CLOSE` in any phase but READY, a second `CLOSE` among them, is refused and appends no event. -/
def Obligations.CloseRefusedOutsideReady : Prop :=
  ∀ s : State, s.phase ≠ .ready → exec .close s = .next { s with refused := true, reply := .refused .badPhase }

/-! ## What every step keeps -/

/-- R39, R48: every step keeps the pixel memory in canonical form and inside the grid. -/
def Obligations.StepKeepsTheMemoryInTheGrid : Prop :=
  ∀ s t : State, memoryInGrid s → step s = .next t → memoryInGrid t

/-- R28, R29, R32, R33, R17: no step changes the configuration or drives the backlight or a reserved line; the history and the failures
only grow; the mark of a refusal is never cleared, nor the model's own mark that a lone sequencer word was placed (log 31). -/
def Obligations.HistoryAndMarksOnlyGrow : Prop :=
  ∀ s t : State, step s = .next t →
    t.cfg = s.cfg ∧ t.bl = s.bl ∧ t.aux0 = s.aux0 ∧ t.aux1 = s.aux1 ∧
    (∃ new, t.trace = s.trace ++ new) ∧ s.fault ⊆ t.fault ∧ (s.refused = true → t.refused = true) ∧
    (s.testPort ≠ .unused → t.testPort ≠ .unused)

/-- R137, R142: no step returns to OFF, so the init table is sent at most once between two resets. -/
def Obligations.NoStepReturnsToOff : Prop :=
  ∀ s t : State, s.phase ≠ .off → step s = .next t → t.phase ≠ .off

/-- R173, R183: HALTED is terminal: a step changes nothing but what HOST waits for and is answered and the mark of a refusal; every
host operation but `TO565` is refused. `BadPhase` for a framebuffer operation whose coordinates are out of bounds too is the model's
choice of two reasons (log 20); that a lone sequencer word does nothing here, but leave the test port, is the model's reading
(log 11, log 31). -/
def Obligations.HaltedIsTerminal : Prop :=
  ∀ s : State, s.phase = .halted →
    (∃ t, step s = .next t ∧ t = { s with input := t.input, testPort := t.testPort, reply := t.reply, refused := t.refused }) ∧
    (∀ (i : Instr) (x y : Int) (c : Color),
      i = .getpixel x y ∨ i = .setpixelOver x y c ∨ i = .setpixelBlend x y c ∨ i = .start ∨ i = .present ∨ i = .close →
      exec i s = .next { s with refused := true, reply := .refused .badPhase })

/-- R194: in every state a step leads to, a history without a recorded failure has only successful calls, and a line that is not open
is not driven. -/
def Obligations.FailureFreeHistoryIsSuccessful : Prop :=
  ∀ s t : State, (s.fault = [] → allOk s.trace) ∧ closedLinesUndriven s → step s = .next t →
    (t.fault = [] → allOk t.trace) ∧ closedLinesUndriven t

/-- R127: no host operation is a `SENDC` or a `SENDD`. In a run of host operations (which reset begins, and to which a script can be
added at any time) every step keeps the run one, and every transfer it makes is one byte of the init table or of the window words,
or the two bytes of a cell of the framebuffer. -/
def Obligations.HostCannotSendItsOwnBytes : Prop :=
  (∀ (w : HostWord) (i : Instr), decode w.fetched = .ok i → ∀ word, encode i ≠ .w9 word) ∧
  hostRun State.reset ∧ (∀ (s : State) (ws : List HostWord), hostRun s → hostRun (s.withScript ws)) ∧
  (∀ s t : State, hostRun s → step s = .next t →
    hostRun t ∧ ∃ new, t.trace = s.trace ++ new ∧ ∀ bytes o, Event.xfer bytes o ∈ new → ownBytes s.cfg s.fb bytes)

/-- The invariant holds at reset. -/
def Obligations.ResetMeetsTheInvariant : Prop := Inv State.reset

/-- Every state of the invariant has a next state, which meets the invariant: between operations the machine never stops. (That a lone
sequencer word keeps phase, pc and prog is the model's choice, log 10 and log 31.) -/
def Obligations.EveryStepKeepsTheInvariant : Prop :=
  ∀ s : State, Inv s → ∃ t, step s = .next t ∧ Inv t
end

