-- ==== Sys2Proof/Laws/State.lean ====
section
/-! SUPPORT. What each named update of the state leaves alone: one lemma per field per update, so that no proof unfolds a record update. -/

namespace Sys2Proof.Machine

@[simp] theorem setOpen_cfg (r : Resource) (v : Bool) (s : State) : (setOpen r v s).cfg = s.cfg := by cases r <;> rfl
@[simp] theorem setOpen_phase (r : Resource) (v : Bool) (s : State) : (setOpen r v s).phase = s.phase := by cases r <;> rfl
@[simp] theorem setOpen_pc (r : Resource) (v : Bool) (s : State) : (setOpen r v s).pc = s.pc := by cases r <;> rfl
@[simp] theorem setOpen_prog (r : Resource) (v : Bool) (s : State) : (setOpen r v s).prog = s.prog := by cases r <;> rfl
@[simp] theorem setOpen_cs (r : Resource) (v : Bool) (s : State) : (setOpen r v s).cs = s.cs := by cases r <;> rfl
@[simp] theorem setOpen_dc (r : Resource) (v : Bool) (s : State) : (setOpen r v s).dc = s.dc := by cases r <;> rfl
@[simp] theorem setOpen_rst (r : Resource) (v : Bool) (s : State) : (setOpen r v s).rst = s.rst := by cases r <;> rfl
@[simp] theorem setOpen_bl (r : Resource) (v : Bool) (s : State) : (setOpen r v s).bl = s.bl := by cases r <;> rfl
@[simp] theorem setOpen_aux0 (r : Resource) (v : Bool) (s : State) : (setOpen r v s).aux0 = s.aux0 := by cases r <;> rfl
@[simp] theorem setOpen_aux1 (r : Resource) (v : Bool) (s : State) : (setOpen r v s).aux1 = s.aux1 := by cases r <;> rfl
@[simp] theorem setOpen_pixw (r : Resource) (v : Bool) (s : State) : (setOpen r v s).pixw = s.pixw := by cases r <;> rfl
@[simp] theorem setOpen_pixctr (r : Resource) (v : Bool) (s : State) : (setOpen r v s).pixctr = s.pixctr := by cases r <;> rfl
@[simp] theorem setOpen_fault (r : Resource) (v : Bool) (s : State) : (setOpen r v s).fault = s.fault := by cases r <;> rfl
@[simp] theorem setOpen_refused (r : Resource) (v : Bool) (s : State) : (setOpen r v s).refused = s.refused := by cases r <;> rfl
@[simp] theorem setOpen_trace (r : Resource) (v : Bool) (s : State) : (setOpen r v s).trace = s.trace := by cases r <;> rfl
@[simp] theorem setOpen_fb (r : Resource) (v : Bool) (s : State) : (setOpen r v s).fb = s.fb := by cases r <;> rfl
@[simp] theorem setOpen_input (r : Resource) (v : Bool) (s : State) : (setOpen r v s).input = s.input := by cases r <;> rfl
@[simp] theorem setOpen_testPort (r : Resource) (v : Bool) (s : State) : (setOpen r v s).testPort = s.testPort := by cases r <;> rfl
@[simp] theorem setOpen_reply (r : Resource) (v : Bool) (s : State) : (setOpen r v s).reply = s.reply := by cases r <;> rfl
@[simp] theorem setOpen_env (r : Resource) (v : Bool) (s : State) : (setOpen r v s).env = s.env := by cases r <;> rfl
@[simp] theorem setOpen_envCount (r : Resource) (v : Bool) (s : State) : (setOpen r v s).envCount = s.envCount := by cases r <;> rfl

@[simp] theorem setLatch_cfg (l : Line) (v : Level) (s : State) : (setLatch l v s).cfg = s.cfg := by cases l <;> rfl
@[simp] theorem setLatch_phase (l : Line) (v : Level) (s : State) : (setLatch l v s).phase = s.phase := by cases l <;> rfl
@[simp] theorem setLatch_pc (l : Line) (v : Level) (s : State) : (setLatch l v s).pc = s.pc := by cases l <;> rfl
@[simp] theorem setLatch_prog (l : Line) (v : Level) (s : State) : (setLatch l v s).prog = s.prog := by cases l <;> rfl
@[simp] theorem setLatch_bl (l : Line) (v : Level) (s : State) : (setLatch l v s).bl = s.bl := by cases l <;> rfl
@[simp] theorem setLatch_aux0 (l : Line) (v : Level) (s : State) : (setLatch l v s).aux0 = s.aux0 := by cases l <;> rfl
@[simp] theorem setLatch_aux1 (l : Line) (v : Level) (s : State) : (setLatch l v s).aux1 = s.aux1 := by cases l <;> rfl
@[simp] theorem setLatch_pixw (l : Line) (v : Level) (s : State) : (setLatch l v s).pixw = s.pixw := by cases l <;> rfl
@[simp] theorem setLatch_pixctr (l : Line) (v : Level) (s : State) : (setLatch l v s).pixctr = s.pixctr := by cases l <;> rfl
@[simp] theorem setLatch_spiOpen (l : Line) (v : Level) (s : State) : (setLatch l v s).spiOpen = s.spiOpen := by cases l <;> rfl
@[simp] theorem setLatch_csOpen (l : Line) (v : Level) (s : State) : (setLatch l v s).csOpen = s.csOpen := by cases l <;> rfl
@[simp] theorem setLatch_dcOpen (l : Line) (v : Level) (s : State) : (setLatch l v s).dcOpen = s.dcOpen := by cases l <;> rfl
@[simp] theorem setLatch_rstOpen (l : Line) (v : Level) (s : State) : (setLatch l v s).rstOpen = s.rstOpen := by cases l <;> rfl
@[simp] theorem setLatch_fault (l : Line) (v : Level) (s : State) : (setLatch l v s).fault = s.fault := by cases l <;> rfl
@[simp] theorem setLatch_refused (l : Line) (v : Level) (s : State) : (setLatch l v s).refused = s.refused := by cases l <;> rfl
@[simp] theorem setLatch_trace (l : Line) (v : Level) (s : State) : (setLatch l v s).trace = s.trace := by cases l <;> rfl
@[simp] theorem setLatch_fb (l : Line) (v : Level) (s : State) : (setLatch l v s).fb = s.fb := by cases l <;> rfl
@[simp] theorem setLatch_input (l : Line) (v : Level) (s : State) : (setLatch l v s).input = s.input := by cases l <;> rfl
@[simp] theorem setLatch_testPort (l : Line) (v : Level) (s : State) : (setLatch l v s).testPort = s.testPort := by cases l <;> rfl
@[simp] theorem setLatch_reply (l : Line) (v : Level) (s : State) : (setLatch l v s).reply = s.reply := by cases l <;> rfl
@[simp] theorem setLatch_env (l : Line) (v : Level) (s : State) : (setLatch l v s).env = s.env := by cases l <;> rfl
@[simp] theorem setLatch_envCount (l : Line) (v : Level) (s : State) : (setLatch l v s).envCount = s.envCount := by cases l <;> rfl

@[simp] theorem emit_cfg (e : Event) (s : State) : (emit e s).cfg = s.cfg := rfl
@[simp] theorem emit_phase (e : Event) (s : State) : (emit e s).phase = s.phase := rfl
@[simp] theorem emit_pc (e : Event) (s : State) : (emit e s).pc = s.pc := rfl
@[simp] theorem emit_prog (e : Event) (s : State) : (emit e s).prog = s.prog := rfl
@[simp] theorem emit_cs (e : Event) (s : State) : (emit e s).cs = s.cs := rfl
@[simp] theorem emit_dc (e : Event) (s : State) : (emit e s).dc = s.dc := rfl
@[simp] theorem emit_rst (e : Event) (s : State) : (emit e s).rst = s.rst := rfl
@[simp] theorem emit_bl (e : Event) (s : State) : (emit e s).bl = s.bl := rfl
@[simp] theorem emit_aux0 (e : Event) (s : State) : (emit e s).aux0 = s.aux0 := rfl
@[simp] theorem emit_aux1 (e : Event) (s : State) : (emit e s).aux1 = s.aux1 := rfl
@[simp] theorem emit_pixw (e : Event) (s : State) : (emit e s).pixw = s.pixw := rfl
@[simp] theorem emit_pixctr (e : Event) (s : State) : (emit e s).pixctr = s.pixctr := rfl
@[simp] theorem emit_spiOpen (e : Event) (s : State) : (emit e s).spiOpen = s.spiOpen := rfl
@[simp] theorem emit_csOpen (e : Event) (s : State) : (emit e s).csOpen = s.csOpen := rfl
@[simp] theorem emit_dcOpen (e : Event) (s : State) : (emit e s).dcOpen = s.dcOpen := rfl
@[simp] theorem emit_rstOpen (e : Event) (s : State) : (emit e s).rstOpen = s.rstOpen := rfl
@[simp] theorem emit_fault (e : Event) (s : State) : (emit e s).fault = s.fault := rfl
@[simp] theorem emit_refused (e : Event) (s : State) : (emit e s).refused = s.refused := rfl
@[simp] theorem emit_fb (e : Event) (s : State) : (emit e s).fb = s.fb := rfl
@[simp] theorem emit_input (e : Event) (s : State) : (emit e s).input = s.input := rfl
@[simp] theorem emit_testPort (e : Event) (s : State) : (emit e s).testPort = s.testPort := rfl
@[simp] theorem emit_reply (e : Event) (s : State) : (emit e s).reply = s.reply := rfl
@[simp] theorem emit_env (e : Event) (s : State) : (emit e s).env = s.env := rfl
@[simp] theorem emit_envCount (e : Event) (s : State) : (emit e s).envCount = s.envCount := rfl

@[simp] theorem emit_trace (e : Event) (s : State) : (emit e s).trace = s.trace ++ [e] := rfl

@[simp] theorem haltNow_cfg (s : State) : (haltNow s).cfg = s.cfg := rfl
@[simp] theorem haltNow_pc (s : State) : (haltNow s).pc = s.pc := rfl
@[simp] theorem haltNow_cs (s : State) : (haltNow s).cs = s.cs := rfl
@[simp] theorem haltNow_dc (s : State) : (haltNow s).dc = s.dc := rfl
@[simp] theorem haltNow_rst (s : State) : (haltNow s).rst = s.rst := rfl
@[simp] theorem haltNow_bl (s : State) : (haltNow s).bl = s.bl := rfl
@[simp] theorem haltNow_aux0 (s : State) : (haltNow s).aux0 = s.aux0 := rfl
@[simp] theorem haltNow_aux1 (s : State) : (haltNow s).aux1 = s.aux1 := rfl
@[simp] theorem haltNow_pixw (s : State) : (haltNow s).pixw = s.pixw := rfl
@[simp] theorem haltNow_pixctr (s : State) : (haltNow s).pixctr = s.pixctr := rfl
@[simp] theorem haltNow_spiOpen (s : State) : (haltNow s).spiOpen = s.spiOpen := rfl
@[simp] theorem haltNow_csOpen (s : State) : (haltNow s).csOpen = s.csOpen := rfl
@[simp] theorem haltNow_dcOpen (s : State) : (haltNow s).dcOpen = s.dcOpen := rfl
@[simp] theorem haltNow_rstOpen (s : State) : (haltNow s).rstOpen = s.rstOpen := rfl
@[simp] theorem haltNow_fault (s : State) : (haltNow s).fault = s.fault := rfl
@[simp] theorem haltNow_refused (s : State) : (haltNow s).refused = s.refused := rfl
@[simp] theorem haltNow_fb (s : State) : (haltNow s).fb = s.fb := rfl
@[simp] theorem haltNow_input (s : State) : (haltNow s).input = s.input := rfl
@[simp] theorem haltNow_testPort (s : State) : (haltNow s).testPort = s.testPort := rfl
@[simp] theorem haltNow_reply (s : State) : (haltNow s).reply = s.reply := rfl
@[simp] theorem haltNow_env (s : State) : (haltNow s).env = s.env := rfl
@[simp] theorem haltNow_envCount (s : State) : (haltNow s).envCount = s.envCount := rfl

@[simp] theorem refuse_cfg (why : RefuseReason) (s : State) : (refuse why s).cfg = s.cfg := rfl
@[simp] theorem refuse_phase (why : RefuseReason) (s : State) : (refuse why s).phase = s.phase := rfl
@[simp] theorem refuse_pc (why : RefuseReason) (s : State) : (refuse why s).pc = s.pc := rfl
@[simp] theorem refuse_prog (why : RefuseReason) (s : State) : (refuse why s).prog = s.prog := rfl
@[simp] theorem refuse_cs (why : RefuseReason) (s : State) : (refuse why s).cs = s.cs := rfl
@[simp] theorem refuse_dc (why : RefuseReason) (s : State) : (refuse why s).dc = s.dc := rfl
@[simp] theorem refuse_rst (why : RefuseReason) (s : State) : (refuse why s).rst = s.rst := rfl
@[simp] theorem refuse_bl (why : RefuseReason) (s : State) : (refuse why s).bl = s.bl := rfl
@[simp] theorem refuse_aux0 (why : RefuseReason) (s : State) : (refuse why s).aux0 = s.aux0 := rfl
@[simp] theorem refuse_aux1 (why : RefuseReason) (s : State) : (refuse why s).aux1 = s.aux1 := rfl
@[simp] theorem refuse_pixw (why : RefuseReason) (s : State) : (refuse why s).pixw = s.pixw := rfl
@[simp] theorem refuse_pixctr (why : RefuseReason) (s : State) : (refuse why s).pixctr = s.pixctr := rfl
@[simp] theorem refuse_spiOpen (why : RefuseReason) (s : State) : (refuse why s).spiOpen = s.spiOpen := rfl
@[simp] theorem refuse_csOpen (why : RefuseReason) (s : State) : (refuse why s).csOpen = s.csOpen := rfl
@[simp] theorem refuse_dcOpen (why : RefuseReason) (s : State) : (refuse why s).dcOpen = s.dcOpen := rfl
@[simp] theorem refuse_rstOpen (why : RefuseReason) (s : State) : (refuse why s).rstOpen = s.rstOpen := rfl
@[simp] theorem refuse_fault (why : RefuseReason) (s : State) : (refuse why s).fault = s.fault := rfl
@[simp] theorem refuse_trace (why : RefuseReason) (s : State) : (refuse why s).trace = s.trace := rfl
@[simp] theorem refuse_fb (why : RefuseReason) (s : State) : (refuse why s).fb = s.fb := rfl
@[simp] theorem refuse_input (why : RefuseReason) (s : State) : (refuse why s).input = s.input := rfl
@[simp] theorem refuse_testPort (why : RefuseReason) (s : State) : (refuse why s).testPort = s.testPort := rfl
@[simp] theorem refuse_env (why : RefuseReason) (s : State) : (refuse why s).env = s.env := rfl
@[simp] theorem refuse_envCount (why : RefuseReason) (s : State) : (refuse why s).envCount = s.envCount := rfl

@[simp] theorem envNext_cfg (s : State) : (envNext s).cfg = s.cfg := by unfold envNext; split <;> rfl
@[simp] theorem envNext_phase (s : State) : (envNext s).phase = s.phase := by unfold envNext; split <;> rfl
@[simp] theorem envNext_pc (s : State) : (envNext s).pc = s.pc := by unfold envNext; split <;> rfl
@[simp] theorem envNext_prog (s : State) : (envNext s).prog = s.prog := by unfold envNext; split <;> rfl
@[simp] theorem envNext_cs (s : State) : (envNext s).cs = s.cs := by unfold envNext; split <;> rfl
@[simp] theorem envNext_dc (s : State) : (envNext s).dc = s.dc := by unfold envNext; split <;> rfl
@[simp] theorem envNext_rst (s : State) : (envNext s).rst = s.rst := by unfold envNext; split <;> rfl
@[simp] theorem envNext_bl (s : State) : (envNext s).bl = s.bl := by unfold envNext; split <;> rfl
@[simp] theorem envNext_aux0 (s : State) : (envNext s).aux0 = s.aux0 := by unfold envNext; split <;> rfl
@[simp] theorem envNext_aux1 (s : State) : (envNext s).aux1 = s.aux1 := by unfold envNext; split <;> rfl
@[simp] theorem envNext_pixw (s : State) : (envNext s).pixw = s.pixw := by unfold envNext; split <;> rfl
@[simp] theorem envNext_pixctr (s : State) : (envNext s).pixctr = s.pixctr := by unfold envNext; split <;> rfl
@[simp] theorem envNext_spiOpen (s : State) : (envNext s).spiOpen = s.spiOpen := by unfold envNext; split <;> rfl
@[simp] theorem envNext_csOpen (s : State) : (envNext s).csOpen = s.csOpen := by unfold envNext; split <;> rfl
@[simp] theorem envNext_dcOpen (s : State) : (envNext s).dcOpen = s.dcOpen := by unfold envNext; split <;> rfl
@[simp] theorem envNext_rstOpen (s : State) : (envNext s).rstOpen = s.rstOpen := by unfold envNext; split <;> rfl
@[simp] theorem envNext_fault (s : State) : (envNext s).fault = s.fault := by unfold envNext; split <;> rfl
@[simp] theorem envNext_refused (s : State) : (envNext s).refused = s.refused := by unfold envNext; split <;> rfl
@[simp] theorem envNext_trace (s : State) : (envNext s).trace = s.trace := by unfold envNext; split <;> rfl
@[simp] theorem envNext_fb (s : State) : (envNext s).fb = s.fb := by unfold envNext; split <;> rfl
@[simp] theorem envNext_input (s : State) : (envNext s).input = s.input := by unfold envNext; split <;> rfl
@[simp] theorem envNext_testPort (s : State) : (envNext s).testPort = s.testPort := by unfold envNext; split <;> rfl
@[simp] theorem envNext_reply (s : State) : (envNext s).reply = s.reply := by unfold envNext; split <;> rfl

@[simp] theorem raise_cfg (f : Failure) (b : Bool) (s : State) : (raise f b s).cfg = s.cfg := by cases b <;> rfl
@[simp] theorem raise_pc (f : Failure) (b : Bool) (s : State) : (raise f b s).pc = s.pc := by cases b <;> rfl
@[simp] theorem raise_cs (f : Failure) (b : Bool) (s : State) : (raise f b s).cs = s.cs := by cases b <;> rfl
@[simp] theorem raise_dc (f : Failure) (b : Bool) (s : State) : (raise f b s).dc = s.dc := by cases b <;> rfl
@[simp] theorem raise_rst (f : Failure) (b : Bool) (s : State) : (raise f b s).rst = s.rst := by cases b <;> rfl
@[simp] theorem raise_bl (f : Failure) (b : Bool) (s : State) : (raise f b s).bl = s.bl := by cases b <;> rfl
@[simp] theorem raise_aux0 (f : Failure) (b : Bool) (s : State) : (raise f b s).aux0 = s.aux0 := by cases b <;> rfl
@[simp] theorem raise_aux1 (f : Failure) (b : Bool) (s : State) : (raise f b s).aux1 = s.aux1 := by cases b <;> rfl
@[simp] theorem raise_pixw (f : Failure) (b : Bool) (s : State) : (raise f b s).pixw = s.pixw := by cases b <;> rfl
@[simp] theorem raise_pixctr (f : Failure) (b : Bool) (s : State) : (raise f b s).pixctr = s.pixctr := by cases b <;> rfl
@[simp] theorem raise_spiOpen (f : Failure) (b : Bool) (s : State) : (raise f b s).spiOpen = s.spiOpen := by cases b <;> rfl
@[simp] theorem raise_csOpen (f : Failure) (b : Bool) (s : State) : (raise f b s).csOpen = s.csOpen := by cases b <;> rfl
@[simp] theorem raise_dcOpen (f : Failure) (b : Bool) (s : State) : (raise f b s).dcOpen = s.dcOpen := by cases b <;> rfl
@[simp] theorem raise_rstOpen (f : Failure) (b : Bool) (s : State) : (raise f b s).rstOpen = s.rstOpen := by cases b <;> rfl
@[simp] theorem raise_refused (f : Failure) (b : Bool) (s : State) : (raise f b s).refused = s.refused := by cases b <;> rfl
@[simp] theorem raise_fb (f : Failure) (b : Bool) (s : State) : (raise f b s).fb = s.fb := by cases b <;> rfl
@[simp] theorem raise_input (f : Failure) (b : Bool) (s : State) : (raise f b s).input = s.input := by cases b <;> rfl
@[simp] theorem raise_testPort (f : Failure) (b : Bool) (s : State) : (raise f b s).testPort = s.testPort := by cases b <;> rfl
@[simp] theorem raise_reply (f : Failure) (b : Bool) (s : State) : (raise f b s).reply = s.reply := by cases b <;> rfl
@[simp] theorem raise_env (f : Failure) (b : Bool) (s : State) : (raise f b s).env = s.env := by cases b <;> rfl
@[simp] theorem raise_envCount (f : Failure) (b : Bool) (s : State) : (raise f b s).envCount = s.envCount := by cases b <;> rfl

@[simp] theorem raise_fault (f : Failure) (b : Bool) (s : State) : (raise f b s).fault = addFailure f s.fault := by cases b <;> rfl
@[simp] theorem raise_false_trace (f : Failure) (s : State) : (raise f false s).trace = s.trace := rfl
@[simp] theorem raise_false_phase (f : Failure) (s : State) : (raise f false s).phase = s.phase := rfl
@[simp] theorem raise_false_prog (f : Failure) (s : State) : (raise f false s).prog = s.prog := rfl
@[simp] theorem raise_true_trace (f : Failure) (s : State) : (raise f true s).trace = s.trace ++ [Event.halt] := rfl
@[simp] theorem raise_true_phase (f : Failure) (s : State) : (raise f true s).phase = .halted := rfl
@[simp] theorem raise_true_prog (f : Failure) (s : State) : (raise f true s).prog = [] := rfl
@[simp] theorem refuse_refused (why : RefuseReason) (s : State) : (refuse why s).refused = true := rfl
@[simp] theorem refuse_reply (why : RefuseReason) (s : State) : (refuse why s).reply = .refused why := rfl

@[simp] theorem callOpen_cfg (r : Resource) (s : State) : (callOpen r s).cfg = s.cfg := by unfold callOpen; dsimp only; split <;> simp
@[simp] theorem callOpen_pc (r : Resource) (s : State) : (callOpen r s).pc = s.pc := by unfold callOpen; dsimp only; split <;> simp
@[simp] theorem callOpen_cs (r : Resource) (s : State) : (callOpen r s).cs = s.cs := by unfold callOpen; dsimp only; split <;> simp
@[simp] theorem callOpen_dc (r : Resource) (s : State) : (callOpen r s).dc = s.dc := by unfold callOpen; dsimp only; split <;> simp
@[simp] theorem callOpen_rst (r : Resource) (s : State) : (callOpen r s).rst = s.rst := by unfold callOpen; dsimp only; split <;> simp
@[simp] theorem callOpen_bl (r : Resource) (s : State) : (callOpen r s).bl = s.bl := by unfold callOpen; dsimp only; split <;> simp
@[simp] theorem callOpen_aux0 (r : Resource) (s : State) : (callOpen r s).aux0 = s.aux0 := by unfold callOpen; dsimp only; split <;> simp
@[simp] theorem callOpen_aux1 (r : Resource) (s : State) : (callOpen r s).aux1 = s.aux1 := by unfold callOpen; dsimp only; split <;> simp
@[simp] theorem callOpen_pixw (r : Resource) (s : State) : (callOpen r s).pixw = s.pixw := by unfold callOpen; dsimp only; split <;> simp
@[simp] theorem callOpen_pixctr (r : Resource) (s : State) : (callOpen r s).pixctr = s.pixctr := by unfold callOpen; dsimp only; split <;> simp
@[simp] theorem callOpen_refused (r : Resource) (s : State) : (callOpen r s).refused = s.refused := by unfold callOpen; dsimp only; split <;> simp
@[simp] theorem callOpen_fb (r : Resource) (s : State) : (callOpen r s).fb = s.fb := by unfold callOpen; dsimp only; split <;> simp
@[simp] theorem callOpen_input (r : Resource) (s : State) : (callOpen r s).input = s.input := by unfold callOpen; dsimp only; split <;> simp
@[simp] theorem callOpen_testPort (r : Resource) (s : State) : (callOpen r s).testPort = s.testPort := by unfold callOpen; dsimp only; split <;> simp
@[simp] theorem callOpen_reply (r : Resource) (s : State) : (callOpen r s).reply = s.reply := by unfold callOpen; dsimp only; split <;> simp

@[simp] theorem callPinw_cfg (l : Line) (v : Bool) (s : State) : (callPinw l v s).cfg = s.cfg := by unfold callPinw; dsimp only; split <;> simp
@[simp] theorem callPinw_phase (l : Line) (v : Bool) (s : State) : (callPinw l v s).phase = s.phase := by unfold callPinw; dsimp only; split <;> simp
@[simp] theorem callPinw_pc (l : Line) (v : Bool) (s : State) : (callPinw l v s).pc = s.pc := by unfold callPinw; dsimp only; split <;> simp
@[simp] theorem callPinw_prog (l : Line) (v : Bool) (s : State) : (callPinw l v s).prog = s.prog := by unfold callPinw; dsimp only; split <;> simp
@[simp] theorem callPinw_bl (l : Line) (v : Bool) (s : State) : (callPinw l v s).bl = s.bl := by unfold callPinw; dsimp only; split <;> simp
@[simp] theorem callPinw_aux0 (l : Line) (v : Bool) (s : State) : (callPinw l v s).aux0 = s.aux0 := by unfold callPinw; dsimp only; split <;> simp
@[simp] theorem callPinw_aux1 (l : Line) (v : Bool) (s : State) : (callPinw l v s).aux1 = s.aux1 := by unfold callPinw; dsimp only; split <;> simp
@[simp] theorem callPinw_pixw (l : Line) (v : Bool) (s : State) : (callPinw l v s).pixw = s.pixw := by unfold callPinw; dsimp only; split <;> simp
@[simp] theorem callPinw_pixctr (l : Line) (v : Bool) (s : State) : (callPinw l v s).pixctr = s.pixctr := by unfold callPinw; dsimp only; split <;> simp
@[simp] theorem callPinw_spiOpen (l : Line) (v : Bool) (s : State) : (callPinw l v s).spiOpen = s.spiOpen := by unfold callPinw; dsimp only; split <;> simp
@[simp] theorem callPinw_csOpen (l : Line) (v : Bool) (s : State) : (callPinw l v s).csOpen = s.csOpen := by unfold callPinw; dsimp only; split <;> simp
@[simp] theorem callPinw_dcOpen (l : Line) (v : Bool) (s : State) : (callPinw l v s).dcOpen = s.dcOpen := by unfold callPinw; dsimp only; split <;> simp
@[simp] theorem callPinw_rstOpen (l : Line) (v : Bool) (s : State) : (callPinw l v s).rstOpen = s.rstOpen := by unfold callPinw; dsimp only; split <;> simp
@[simp] theorem callPinw_refused (l : Line) (v : Bool) (s : State) : (callPinw l v s).refused = s.refused := by unfold callPinw; dsimp only; split <;> simp
@[simp] theorem callPinw_fb (l : Line) (v : Bool) (s : State) : (callPinw l v s).fb = s.fb := by unfold callPinw; dsimp only; split <;> simp
@[simp] theorem callPinw_input (l : Line) (v : Bool) (s : State) : (callPinw l v s).input = s.input := by unfold callPinw; dsimp only; split <;> simp
@[simp] theorem callPinw_testPort (l : Line) (v : Bool) (s : State) : (callPinw l v s).testPort = s.testPort := by unfold callPinw; dsimp only; split <;> simp
@[simp] theorem callPinw_reply (l : Line) (v : Bool) (s : State) : (callPinw l v s).reply = s.reply := by unfold callPinw; dsimp only; split <;> simp

@[simp] theorem callXfer_cfg (bytes : List Byte) (s : State) : (callXfer bytes s).cfg = s.cfg := by unfold callXfer; dsimp only; split <;> simp
@[simp] theorem callXfer_phase (bytes : List Byte) (s : State) : (callXfer bytes s).phase = s.phase := by unfold callXfer; dsimp only; split <;> simp
@[simp] theorem callXfer_pc (bytes : List Byte) (s : State) : (callXfer bytes s).pc = s.pc := by unfold callXfer; dsimp only; split <;> simp
@[simp] theorem callXfer_prog (bytes : List Byte) (s : State) : (callXfer bytes s).prog = s.prog := by unfold callXfer; dsimp only; split <;> simp
@[simp] theorem callXfer_cs (bytes : List Byte) (s : State) : (callXfer bytes s).cs = s.cs := by unfold callXfer; dsimp only; split <;> simp
@[simp] theorem callXfer_dc (bytes : List Byte) (s : State) : (callXfer bytes s).dc = s.dc := by unfold callXfer; dsimp only; split <;> simp
@[simp] theorem callXfer_rst (bytes : List Byte) (s : State) : (callXfer bytes s).rst = s.rst := by unfold callXfer; dsimp only; split <;> simp
@[simp] theorem callXfer_bl (bytes : List Byte) (s : State) : (callXfer bytes s).bl = s.bl := by unfold callXfer; dsimp only; split <;> simp
@[simp] theorem callXfer_aux0 (bytes : List Byte) (s : State) : (callXfer bytes s).aux0 = s.aux0 := by unfold callXfer; dsimp only; split <;> simp
@[simp] theorem callXfer_aux1 (bytes : List Byte) (s : State) : (callXfer bytes s).aux1 = s.aux1 := by unfold callXfer; dsimp only; split <;> simp
@[simp] theorem callXfer_pixw (bytes : List Byte) (s : State) : (callXfer bytes s).pixw = s.pixw := by unfold callXfer; dsimp only; split <;> simp
@[simp] theorem callXfer_pixctr (bytes : List Byte) (s : State) : (callXfer bytes s).pixctr = s.pixctr := by unfold callXfer; dsimp only; split <;> simp
@[simp] theorem callXfer_spiOpen (bytes : List Byte) (s : State) : (callXfer bytes s).spiOpen = s.spiOpen := by unfold callXfer; dsimp only; split <;> simp
@[simp] theorem callXfer_csOpen (bytes : List Byte) (s : State) : (callXfer bytes s).csOpen = s.csOpen := by unfold callXfer; dsimp only; split <;> simp
@[simp] theorem callXfer_dcOpen (bytes : List Byte) (s : State) : (callXfer bytes s).dcOpen = s.dcOpen := by unfold callXfer; dsimp only; split <;> simp
@[simp] theorem callXfer_rstOpen (bytes : List Byte) (s : State) : (callXfer bytes s).rstOpen = s.rstOpen := by unfold callXfer; dsimp only; split <;> simp
@[simp] theorem callXfer_refused (bytes : List Byte) (s : State) : (callXfer bytes s).refused = s.refused := by unfold callXfer; dsimp only; split <;> simp
@[simp] theorem callXfer_fb (bytes : List Byte) (s : State) : (callXfer bytes s).fb = s.fb := by unfold callXfer; dsimp only; split <;> simp
@[simp] theorem callXfer_input (bytes : List Byte) (s : State) : (callXfer bytes s).input = s.input := by unfold callXfer; dsimp only; split <;> simp
@[simp] theorem callXfer_testPort (bytes : List Byte) (s : State) : (callXfer bytes s).testPort = s.testPort := by unfold callXfer; dsimp only; split <;> simp
@[simp] theorem callXfer_reply (bytes : List Byte) (s : State) : (callXfer bytes s).reply = s.reply := by unfold callXfer; dsimp only; split <;> simp

@[simp] theorem callRel_cfg (r : Resource) (s : State) : (callRel r s).cfg = s.cfg := by cases r <;> rfl
@[simp] theorem callRel_phase (r : Resource) (s : State) : (callRel r s).phase = s.phase := by cases r <;> rfl
@[simp] theorem callRel_pc (r : Resource) (s : State) : (callRel r s).pc = s.pc := by cases r <;> rfl
@[simp] theorem callRel_prog (r : Resource) (s : State) : (callRel r s).prog = s.prog := by cases r <;> rfl
@[simp] theorem callRel_bl (r : Resource) (s : State) : (callRel r s).bl = s.bl := by cases r <;> rfl
@[simp] theorem callRel_aux0 (r : Resource) (s : State) : (callRel r s).aux0 = s.aux0 := by cases r <;> rfl
@[simp] theorem callRel_aux1 (r : Resource) (s : State) : (callRel r s).aux1 = s.aux1 := by cases r <;> rfl
@[simp] theorem callRel_pixw (r : Resource) (s : State) : (callRel r s).pixw = s.pixw := by cases r <;> rfl
@[simp] theorem callRel_pixctr (r : Resource) (s : State) : (callRel r s).pixctr = s.pixctr := by cases r <;> rfl
@[simp] theorem callRel_fault (r : Resource) (s : State) : (callRel r s).fault = s.fault := by cases r <;> rfl
@[simp] theorem callRel_refused (r : Resource) (s : State) : (callRel r s).refused = s.refused := by cases r <;> rfl
@[simp] theorem callRel_fb (r : Resource) (s : State) : (callRel r s).fb = s.fb := by cases r <;> rfl
@[simp] theorem callRel_input (r : Resource) (s : State) : (callRel r s).input = s.input := by cases r <;> rfl
@[simp] theorem callRel_testPort (r : Resource) (s : State) : (callRel r s).testPort = s.testPort := by cases r <;> rfl
@[simp] theorem callRel_reply (r : Resource) (s : State) : (callRel r s).reply = s.reply := by cases r <;> rfl
@[simp] theorem callRel_env (r : Resource) (s : State) : (callRel r s).env = s.env := by cases r <;> rfl
@[simp] theorem callRel_envCount (r : Resource) (s : State) : (callRel r s).envCount = s.envCount := by cases r <;> rfl

@[simp] theorem callXferpx_cfg (s : State) : (callXferpx s).cfg = s.cfg := by simp [callXferpx]
@[simp] theorem callXferpx_phase (s : State) : (callXferpx s).phase = s.phase := by simp [callXferpx]
@[simp] theorem callXferpx_pc (s : State) : (callXferpx s).pc = s.pc := by simp [callXferpx]
@[simp] theorem callXferpx_prog (s : State) : (callXferpx s).prog = s.prog := by simp [callXferpx]
@[simp] theorem callXferpx_cs (s : State) : (callXferpx s).cs = s.cs := by simp [callXferpx]
@[simp] theorem callXferpx_dc (s : State) : (callXferpx s).dc = s.dc := by simp [callXferpx]
@[simp] theorem callXferpx_rst (s : State) : (callXferpx s).rst = s.rst := by simp [callXferpx]
@[simp] theorem callXferpx_bl (s : State) : (callXferpx s).bl = s.bl := by simp [callXferpx]
@[simp] theorem callXferpx_aux0 (s : State) : (callXferpx s).aux0 = s.aux0 := by simp [callXferpx]
@[simp] theorem callXferpx_aux1 (s : State) : (callXferpx s).aux1 = s.aux1 := by simp [callXferpx]
@[simp] theorem callXferpx_spiOpen (s : State) : (callXferpx s).spiOpen = s.spiOpen := by simp [callXferpx]
@[simp] theorem callXferpx_csOpen (s : State) : (callXferpx s).csOpen = s.csOpen := by simp [callXferpx]
@[simp] theorem callXferpx_dcOpen (s : State) : (callXferpx s).dcOpen = s.dcOpen := by simp [callXferpx]
@[simp] theorem callXferpx_rstOpen (s : State) : (callXferpx s).rstOpen = s.rstOpen := by simp [callXferpx]
@[simp] theorem callXferpx_refused (s : State) : (callXferpx s).refused = s.refused := by simp [callXferpx]
@[simp] theorem callXferpx_fb (s : State) : (callXferpx s).fb = s.fb := by simp [callXferpx]
@[simp] theorem callXferpx_input (s : State) : (callXferpx s).input = s.input := by simp [callXferpx]
@[simp] theorem callXferpx_testPort (s : State) : (callXferpx s).testPort = s.testPort := by simp [callXferpx]
@[simp] theorem callXferpx_reply (s : State) : (callXferpx s).reply = s.reply := by simp [callXferpx]

@[simp] theorem callOf_cfg (m : MicroOp) (s : State) : (callOf m s).cfg = s.cfg := by cases m <;> simp [callOf]
@[simp] theorem callOf_pc (m : MicroOp) (s : State) : (callOf m s).pc = s.pc := by cases m <;> simp [callOf]
@[simp] theorem callOf_bl (m : MicroOp) (s : State) : (callOf m s).bl = s.bl := by cases m <;> simp [callOf]
@[simp] theorem callOf_aux0 (m : MicroOp) (s : State) : (callOf m s).aux0 = s.aux0 := by cases m <;> simp [callOf]
@[simp] theorem callOf_aux1 (m : MicroOp) (s : State) : (callOf m s).aux1 = s.aux1 := by cases m <;> simp [callOf]
@[simp] theorem callOf_refused (m : MicroOp) (s : State) : (callOf m s).refused = s.refused := by cases m <;> simp [callOf]
@[simp] theorem callOf_fb (m : MicroOp) (s : State) : (callOf m s).fb = s.fb := by cases m <;> simp [callOf]
@[simp] theorem callOf_input (m : MicroOp) (s : State) : (callOf m s).input = s.input := by cases m <;> simp [callOf]
@[simp] theorem callOf_testPort (m : MicroOp) (s : State) : (callOf m s).testPort = s.testPort := by cases m <;> simp [callOf]
@[simp] theorem callOf_reply (m : MicroOp) (s : State) : (callOf m s).reply = s.reply := by cases m <;> simp [callOf]

@[simp] theorem perform_cfg (m : MicroOp) (s : State) : (perform m s).cfg = s.cfg := by unfold perform; split <;> [rfl; (dsimp only; split <;> simp)]
@[simp] theorem perform_bl (m : MicroOp) (s : State) : (perform m s).bl = s.bl := by unfold perform; split <;> [rfl; (dsimp only; split <;> simp)]
@[simp] theorem perform_aux0 (m : MicroOp) (s : State) : (perform m s).aux0 = s.aux0 := by unfold perform; split <;> [rfl; (dsimp only; split <;> simp)]
@[simp] theorem perform_aux1 (m : MicroOp) (s : State) : (perform m s).aux1 = s.aux1 := by unfold perform; split <;> [rfl; (dsimp only; split <;> simp)]
@[simp] theorem perform_refused (m : MicroOp) (s : State) : (perform m s).refused = s.refused := by unfold perform; split <;> [rfl; (dsimp only; split <;> simp)]
@[simp] theorem perform_fb (m : MicroOp) (s : State) : (perform m s).fb = s.fb := by unfold perform; split <;> [rfl; (dsimp only; split <;> simp)]
@[simp] theorem perform_input (m : MicroOp) (s : State) : (perform m s).input = s.input := by unfold perform; split <;> [rfl; (dsimp only; split <;> simp)]
@[simp] theorem perform_testPort (m : MicroOp) (s : State) : (perform m s).testPort = s.testPort := by unfold perform; split <;> [rfl; (dsimp only; split <;> simp)]
@[simp] theorem perform_reply (m : MicroOp) (s : State) : (perform m s).reply = s.reply := by unfold perform; split <;> [rfl; (dsimp only; split <;> simp)]

@[simp] theorem finish_cfg (s : State) : (finish s).cfg = s.cfg := by unfold finish; split <;> rfl
@[simp] theorem finish_cs (s : State) : (finish s).cs = s.cs := by unfold finish; split <;> rfl
@[simp] theorem finish_dc (s : State) : (finish s).dc = s.dc := by unfold finish; split <;> rfl
@[simp] theorem finish_rst (s : State) : (finish s).rst = s.rst := by unfold finish; split <;> rfl
@[simp] theorem finish_bl (s : State) : (finish s).bl = s.bl := by unfold finish; split <;> rfl
@[simp] theorem finish_aux0 (s : State) : (finish s).aux0 = s.aux0 := by unfold finish; split <;> rfl
@[simp] theorem finish_aux1 (s : State) : (finish s).aux1 = s.aux1 := by unfold finish; split <;> rfl
@[simp] theorem finish_pixw (s : State) : (finish s).pixw = s.pixw := by unfold finish; split <;> rfl
@[simp] theorem finish_pixctr (s : State) : (finish s).pixctr = s.pixctr := by unfold finish; split <;> rfl
@[simp] theorem finish_spiOpen (s : State) : (finish s).spiOpen = s.spiOpen := by unfold finish; split <;> rfl
@[simp] theorem finish_csOpen (s : State) : (finish s).csOpen = s.csOpen := by unfold finish; split <;> rfl
@[simp] theorem finish_dcOpen (s : State) : (finish s).dcOpen = s.dcOpen := by unfold finish; split <;> rfl
@[simp] theorem finish_rstOpen (s : State) : (finish s).rstOpen = s.rstOpen := by unfold finish; split <;> rfl
@[simp] theorem finish_fault (s : State) : (finish s).fault = s.fault := by unfold finish; split <;> rfl
@[simp] theorem finish_refused (s : State) : (finish s).refused = s.refused := by unfold finish; split <;> rfl
@[simp] theorem finish_trace (s : State) : (finish s).trace = s.trace := by unfold finish; split <;> rfl
@[simp] theorem finish_fb (s : State) : (finish s).fb = s.fb := by unfold finish; split <;> rfl
@[simp] theorem finish_input (s : State) : (finish s).input = s.input := by unfold finish; split <;> rfl
@[simp] theorem finish_testPort (s : State) : (finish s).testPort = s.testPort := by unfold finish; split <;> rfl
@[simp] theorem finish_env (s : State) : (finish s).env = s.env := by unfold finish; split <;> rfl
@[simp] theorem finish_envCount (s : State) : (finish s).envCount = s.envCount := by unfold finish; split <;> rfl

@[simp] theorem settle_cfg (s : State) : (settle s).cfg = s.cfg := by unfold settle; split <;> [rfl; (split <;> [simp; (split <;> rfl)])]
@[simp] theorem settle_cs (s : State) : (settle s).cs = s.cs := by unfold settle; split <;> [rfl; (split <;> [simp; (split <;> rfl)])]
@[simp] theorem settle_dc (s : State) : (settle s).dc = s.dc := by unfold settle; split <;> [rfl; (split <;> [simp; (split <;> rfl)])]
@[simp] theorem settle_rst (s : State) : (settle s).rst = s.rst := by unfold settle; split <;> [rfl; (split <;> [simp; (split <;> rfl)])]
@[simp] theorem settle_bl (s : State) : (settle s).bl = s.bl := by unfold settle; split <;> [rfl; (split <;> [simp; (split <;> rfl)])]
@[simp] theorem settle_aux0 (s : State) : (settle s).aux0 = s.aux0 := by unfold settle; split <;> [rfl; (split <;> [simp; (split <;> rfl)])]
@[simp] theorem settle_aux1 (s : State) : (settle s).aux1 = s.aux1 := by unfold settle; split <;> [rfl; (split <;> [simp; (split <;> rfl)])]
@[simp] theorem settle_pixw (s : State) : (settle s).pixw = s.pixw := by unfold settle; split <;> [rfl; (split <;> [simp; (split <;> rfl)])]
@[simp] theorem settle_pixctr (s : State) : (settle s).pixctr = s.pixctr := by unfold settle; split <;> [rfl; (split <;> [simp; (split <;> rfl)])]
@[simp] theorem settle_spiOpen (s : State) : (settle s).spiOpen = s.spiOpen := by unfold settle; split <;> [rfl; (split <;> [simp; (split <;> rfl)])]
@[simp] theorem settle_csOpen (s : State) : (settle s).csOpen = s.csOpen := by unfold settle; split <;> [rfl; (split <;> [simp; (split <;> rfl)])]
@[simp] theorem settle_dcOpen (s : State) : (settle s).dcOpen = s.dcOpen := by unfold settle; split <;> [rfl; (split <;> [simp; (split <;> rfl)])]
@[simp] theorem settle_rstOpen (s : State) : (settle s).rstOpen = s.rstOpen := by unfold settle; split <;> [rfl; (split <;> [simp; (split <;> rfl)])]
@[simp] theorem settle_fault (s : State) : (settle s).fault = s.fault := by unfold settle; split <;> [rfl; (split <;> [simp; (split <;> rfl)])]
@[simp] theorem settle_refused (s : State) : (settle s).refused = s.refused := by unfold settle; split <;> [rfl; (split <;> [simp; (split <;> rfl)])]
@[simp] theorem settle_trace (s : State) : (settle s).trace = s.trace := by unfold settle; split <;> [rfl; (split <;> [simp; (split <;> rfl)])]
@[simp] theorem settle_fb (s : State) : (settle s).fb = s.fb := by unfold settle; split <;> [rfl; (split <;> [simp; (split <;> rfl)])]
@[simp] theorem settle_input (s : State) : (settle s).input = s.input := by unfold settle; split <;> [rfl; (split <;> [simp; (split <;> rfl)])]
@[simp] theorem settle_testPort (s : State) : (settle s).testPort = s.testPort := by unfold settle; split <;> [rfl; (split <;> [simp; (split <;> rfl)])]
@[simp] theorem settle_env (s : State) : (settle s).env = s.env := by unfold settle; split <;> [rfl; (split <;> [simp; (split <;> rfl)])]
@[simp] theorem settle_envCount (s : State) : (settle s).envCount = s.envCount := by unfold settle; split <;> [rfl; (split <;> [simp; (split <;> rfl)])]

@[simp] theorem performAll_cfg (ms : List MicroOp) (s : State) : (performAll ms s).cfg = s.cfg := by
  induction ms generalizing s with
  | nil => rfl
  | cons m ms ih => exact (ih (perform m s)).trans (perform_cfg m s)
@[simp] theorem performAll_bl (ms : List MicroOp) (s : State) : (performAll ms s).bl = s.bl := by
  induction ms generalizing s with
  | nil => rfl
  | cons m ms ih => exact (ih (perform m s)).trans (perform_bl m s)
@[simp] theorem performAll_aux0 (ms : List MicroOp) (s : State) : (performAll ms s).aux0 = s.aux0 := by
  induction ms generalizing s with
  | nil => rfl
  | cons m ms ih => exact (ih (perform m s)).trans (perform_aux0 m s)
@[simp] theorem performAll_aux1 (ms : List MicroOp) (s : State) : (performAll ms s).aux1 = s.aux1 := by
  induction ms generalizing s with
  | nil => rfl
  | cons m ms ih => exact (ih (perform m s)).trans (perform_aux1 m s)
@[simp] theorem performAll_refused (ms : List MicroOp) (s : State) : (performAll ms s).refused = s.refused := by
  induction ms generalizing s with
  | nil => rfl
  | cons m ms ih => exact (ih (perform m s)).trans (perform_refused m s)
@[simp] theorem performAll_fb (ms : List MicroOp) (s : State) : (performAll ms s).fb = s.fb := by
  induction ms generalizing s with
  | nil => rfl
  | cons m ms ih => exact (ih (perform m s)).trans (perform_fb m s)
@[simp] theorem performAll_testPort (ms : List MicroOp) (s : State) : (performAll ms s).testPort = s.testPort := by
  induction ms generalizing s with
  | nil => rfl
  | cons m ms ih => exact (ih (perform m s)).trans (perform_testPort m s)
@[simp] theorem performAll_input (ms : List MicroOp) (s : State) : (performAll ms s).input = s.input := by
  induction ms generalizing s with
  | nil => rfl
  | cons m ms ih => exact (ih (perform m s)).trans (perform_input m s)
@[simp] theorem performAll_reply (ms : List MicroOp) (s : State) : (performAll ms s).reply = s.reply := by
  induction ms generalizing s with
  | nil => rfl
  | cons m ms ih => exact (ih (perform m s)).trans (perform_reply m s)

end Sys2Proof.Machine
end

