-- ==== Sys2Proof/Laws/Calls.lean ====
section
/-! SUPPORT. What one transport call, one micro-operation and a list of them can do: the closed form when ENV answers "ok", and what
holds whatever ENV answers (history and failures only grow, which call is recorded, when the block halts). -/

namespace Sys2Proof.Machine

/-! ## ENV's answers -/

theorem answersOk_iff {n : Nat} {s : State} :
    answersOk n s ↔ s.env = List.replicate n .ok ++ s.env.drop n := by
  unfold answersOk
  constructor
  · intro h; rw [← h, List.take_append_drop]
  · intro h
    rw [h, List.take_left' (by simp)]

theorem envAnswer_cons {s : State} {a : Answer} {rest : List Answer} (h : s.env = a :: rest) : envAnswer s = a := by
  simp [envAnswer, h]

theorem envNext_cons {s : State} {a : Answer} {rest : List Answer} (h : s.env = a :: rest) :
    envNext s = { s with env := rest } := by
  simp [envNext, h]

/-! ## Successful calls -/

theorem callPinw_ok {s : State} {l : Line} {v : Bool} {rest : List Answer} (ho : openFlag l.resource s = true)
    (he : s.env = .ok :: rest) :
    callPinw l v s = { setLatch l (Level.ofBit v) s with trace := s.trace ++ [.pin l v .ok], env := rest } := by
  cases l <;> simp_all [callPinw, callResult, envAnswer, envNext, emit, setLatch]

theorem callXfer_ok {s : State} {bytes : List Byte} {rest : List Answer} (ho : s.spiOpen = true)
    (he : s.env = .ok :: rest) :
    callXfer bytes s = { s with trace := s.trace ++ [.xfer bytes .ok], env := rest } := by
  simp [callXfer, callResult, envAnswer, envNext, emit, ho, he]

theorem callOpen_ok {s : State} {r : Resource} {rest : List Answer} (he : s.env = .ok :: rest) :
    callOpen r s = { setOpen r true s with trace := s.trace ++ [.opened r .ok], env := rest } := by
  cases r <;> simp [callOpen, callResult, envAnswer, envNext, emit, he, setOpen]

theorem perform_pinw_ok {s : State} {l : Line} {v : Bool} {rest : List Answer} (hp : s.phase ≠ .halted)
    (ho : openFlag l.resource s = true) (he : s.env = .ok :: rest) :
    perform (.pinw l v) s =
      { setLatch l (Level.ofBit v) s with trace := s.trace ++ [.pin l v .ok], env := rest, pc := s.pc + 1 } := by
  simp only [perform, hp, if_false, callOf, callPinw_ok ho he]
  cases l <;> simp [setLatch, hp]

theorem perform_xferb_ok {s : State} {b : Byte} {rest : List Answer} (hp : s.phase ≠ .halted)
    (ho : s.spiOpen = true) (he : s.env = .ok :: rest) :
    perform (.xferb b) s = { s with trace := s.trace ++ [.xfer [b] .ok], env := rest, pc := s.pc + 1 } := by
  simp only [perform, hp, if_false, callOf, callXfer_ok ho he]

theorem perform_openr_ok {s : State} {r : Resource} {rest : List Answer} (hp : s.phase ≠ .halted)
    (he : s.env = .ok :: rest) :
    perform (.openr r) s =
      { setOpen r true s with trace := s.trace ++ [.opened r .ok], env := rest, pc := s.pc + 1 } := by
  simp only [perform, hp, if_false, callOf, callOpen_ok he]
  cases r <;> simp [setOpen, hp]

theorem perform_xferpx_ok {s : State} {rest : List Answer} (hp : s.phase ≠ .halted)
    (ho : s.spiOpen = true) (he : s.env = .ok :: rest) :
    perform .xferpx s =
      { s with
        pixw := to565 (s.fb.read (s.pixctr - 1))
        trace := s.trace ++ [.xfer (wordBytes (to565 (s.fb.read (s.pixctr - 1)))) .ok]
        env := rest
        pixctr := s.pixctr - 1
        pc := s.pc + 1 } := by
  simp [perform, hp, callOf, callXferpx, callXfer, callResult, envAnswer, envNext, emit, ho, he]

/-! ## Lists of micro-operations -/

@[simp] theorem performAll_nil (s : State) : performAll [] s = s := rfl

@[simp] theorem performAll_cons (m : MicroOp) (ms : List MicroOp) (s : State) :
    performAll (m :: ms) s = performAll ms (perform m s) := rfl

theorem performAll_append (ms ns : List MicroOp) (s : State) :
    performAll (ms ++ ns) s = performAll ns (performAll ms s) := by
  simp [performAll]

@[simp] theorem execWords_nil (c : Cfg) : execWords c [] = [] := rfl

@[simp] theorem execWords_cons (c : Cfg) (w : W9) (ws : List W9) : execWords c (w :: ws) = execW9 c w ++ execWords c ws := rfl

@[simp] theorem wordsEvents_nil (c : Cfg) : wordsEvents c [] = [] := rfl

@[simp] theorem wordsEvents_cons (c : Cfg) (w : W9) (ws : List W9) :
    wordsEvents c (w :: ws) = wordEvents c w ++ wordsEvents c ws := rfl

theorem execW9_length (c : Cfg) (w : W9) : (execW9 c w).length = 4 := by
  unfold execW9; split <;> rfl

/-- A halted block performs nothing (R21, R173). -/
theorem perform_halted {m : MicroOp} {s : State} (h : s.phase = .halted) : perform m s = s := by simp [perform, h]

theorem performAll_halted {ms : List MicroOp} {s : State} (h : s.phase = .halted) : performAll ms s = s := by
  induction ms with
  | nil => rfl
  | cons m ms ih => rw [performAll_cons, perform_halted h, ih]

/-! ## Whatever ENV answers -/

/-- The call a micro-operation makes in a state (R22, R152). -/
def opAttempt (m : MicroOp) (s : State) : Attempt :=
  match m with
  | .openr r => .opened r
  | .pinw l v => .pin l v
  | .xferb b => .xfer [b]
  | .xferpx => .xfer (wordBytes (to565 (s.fb.read (s.pixctr - 1))))
  | .relr r => .rel r

/-- The events a call appends: the event of the call, and `Halt` after a failed open of chip-select. -/
theorem callOf_trace (m : MicroOp) (s : State) :
    ∃ e, attemptOf e = some (opAttempt m s) ∧
      (callOf m s).trace = s.trace ++ (if m = .openr .cs ∧ envAnswer s ≠ .ok then [e, .halt] else [e]) := by
  cases m with
  | openr r =>
    refine ⟨.opened r (callResult true .openFailure (envAnswer s)), rfl, ?_⟩
    simp only [callOf, callOpen]
    cases h : envAnswer s <;> cases r <;> simp [callResult, raise, haltNow, setOpen, emit]
  | pinw l v =>
    refine ⟨.pin l v (callResult (openFlag l.resource s) .writeFailure (envAnswer s)), rfl, ?_⟩
    simp only [callOf, callPinw]
    split <;> simp
  | xferb b =>
    refine ⟨.xfer [b] (callResult s.spiOpen .transferFailure (envAnswer s)), rfl, ?_⟩
    simp only [callOf, callXfer]
    split <;> simp
  | xferpx =>
    refine ⟨.xfer (wordBytes (to565 (s.fb.read (s.pixctr - 1)))) (callResult s.spiOpen .transferFailure (envAnswer s)), rfl, ?_⟩
    simp only [callOf, callXferpx, callXfer]
    have : envAnswer { s with pixw := to565 (s.fb.read (s.pixctr - 1)) } = envAnswer s := rfl
    rw [this]
    split <;> simp
  | relr r =>
    refine ⟨.rel r, rfl, ?_⟩
    cases r <;> simp [callOf, callRel, emit, setOpen, setLatch]

/-- When a call halts the block: a failed open of chip-select, and nothing else (R173, R174). -/
theorem callOf_phase (m : MicroOp) (s : State) :
    (callOf m s).phase = if m = .openr .cs ∧ envAnswer s ≠ .ok then .halted else s.phase := by
  cases m with
  | openr r =>
    simp only [callOf, callOpen]
    cases h : envAnswer s <;> cases r <;> simp [callResult, raise, haltNow, setOpen, emit]
  | pinw l v => simp [callOf]
  | xferb b => simp [callOf]
  | xferpx => simp [callOf]
  | relr r => simp [callOf]

/-- Only a halt touches the micro-program. -/
theorem callOf_prog (m : MicroOp) (s : State) :
    (callOf m s).prog = if m = .openr .cs ∧ envAnswer s ≠ .ok then [] else s.prog := by
  cases m with
  | openr r =>
    simp only [callOf, callOpen]
    cases h : envAnswer s <;> cases r <;> simp [callResult, raise, haltNow, setOpen, emit]
  | pinw l v => simp [callOf]
  | xferb b => simp [callOf]
  | xferpx => simp [callOf]
  | relr r => simp [callOf]

/-- Does performing the micro-operation halt the block? -/
def haltsOn (m : MicroOp) (s : State) : Prop := m = .openr .cs ∧ envAnswer s ≠ .ok

theorem perform_going {m : MicroOp} {s : State} (hp : s.phase ≠ .halted) (hh : ¬ haltsOn m s) :
    perform m s = { callOf m s with pc := s.pc + 1 } := by
  have h := callOf_phase m s
  have hh' : ¬(m = .openr .cs ∧ envAnswer s ≠ .ok) := hh
  simp [perform, hp, h, hh']

theorem perform_halting {m : MicroOp} {s : State} (hp : s.phase ≠ .halted) (hh : haltsOn m s) :
    perform m s = callOf m s := by
  have h := callOf_phase m s
  rw [if_pos (show m = .openr .cs ∧ envAnswer s ≠ .ok from hh)] at h
  simp [perform, hp, h]

theorem perform_phase (m : MicroOp) (s : State) (hp : s.phase ≠ .halted) :
    ((perform m s).phase = .halted ↔ haltsOn m s) ∧ (¬ haltsOn m s → (perform m s).phase = s.phase) := by
  have h := callOf_phase m s
  by_cases hh : haltsOn m s
  · rw [if_pos (show m = .openr .cs ∧ envAnswer s ≠ .ok from hh)] at h
    simp [perform_halting hp hh, h, hh]
  · rw [if_neg (show ¬(m = .openr .cs ∧ envAnswer s ≠ .ok) from hh)] at h
    simp [perform_going hp hh, h, hh, hp]

/-- Performing a micro-operation that does not halt the block records its call and goes on (R23, R118). -/
theorem perform_attempts {m : MicroOp} {s : State} (hp : s.phase ≠ .halted) (hh : ¬ haltsOn m s) :
    attempts (perform m s).trace = attempts s.trace ++ [opAttempt m s] ∧ (perform m s).pc = s.pc + 1 ∧
      (perform m s).prog = s.prog ∧ (perform m s).phase = s.phase := by
  obtain ⟨e, he, ht⟩ := callOf_trace m s
  have hp' := callOf_prog m s
  have hph := callOf_phase m s
  have hh' : ¬(m = .openr .cs ∧ envAnswer s ≠ .ok) := hh
  rw [if_neg hh'] at ht hp' hph
  rw [perform_going hp hh]
  refine ⟨?_, rfl, hp', hph⟩
  show attempts (callOf m s).trace = _
  rw [ht]
  simp [attempts, he]

/-- The history only grows (R33). -/
theorem perform_trace_grows (m : MicroOp) (s : State) : ∃ new, (perform m s).trace = s.trace ++ new := by
  by_cases hp : s.phase = .halted
  · exact ⟨[], by simp [perform_halted hp]⟩
  · obtain ⟨e, -, ht⟩ := callOf_trace m s
    refine ⟨if m = .openr .cs ∧ envAnswer s ≠ .ok then [e, .halt] else [e], ?_⟩
    · by_cases hh : haltsOn m s
      · rw [perform_halting hp hh, ht]
      · rw [perform_going hp hh]; exact ht

/-- Failures only enter the set (R28). -/
theorem addFailure_grows (f : Failure) (fs : List Failure) : fs ⊆ addFailure f fs ∧ f ∈ addFailure f fs := by
  unfold addFailure
  split
  · exact ⟨fun _ h => h, by assumption⟩
  · exact ⟨fun _ h => List.mem_append_left _ h, by simp⟩

theorem addFailure_nodup {f : Failure} {fs : List Failure} (h : fs.Nodup) : (addFailure f fs).Nodup := by
  unfold addFailure
  split
  · exact h
  · rename_i hf
    refine List.nodup_append.2 ⟨h, by simp, ?_⟩
    intro a ha b hb e
    simp at hb
    exact hf (hb ▸ e ▸ ha)

/-- What a call does to the failure set: nothing, or one failure enters. -/
theorem callOf_fault (m : MicroOp) (s : State) :
    (callOf m s).fault = s.fault ∨ ∃ f, (callOf m s).fault = addFailure f s.fault := by
  cases m with
  | openr r =>
    simp only [callOf, callOpen]
    split
    · exact Or.inl (by simp)
    · exact Or.inr ⟨_, by simp; rfl⟩
  | pinw l v =>
    simp only [callOf, callPinw]
    split
    · exact Or.inl (by simp)
    · exact Or.inr ⟨_, by simp; rfl⟩
  | xferb b =>
    simp only [callOf, callXfer]
    split
    · exact Or.inl (by simp)
    · exact Or.inr ⟨_, by simp; rfl⟩
  | xferpx =>
    simp only [callOf, callXferpx, callXfer]
    split
    · exact Or.inl (by simp)
    · exact Or.inr ⟨_, by simp; rfl⟩
  | relr r => exact Or.inl (by simp [callOf])

theorem perform_fault (m : MicroOp) (s : State) :
    (perform m s).fault = s.fault ∨ ∃ f, (perform m s).fault = addFailure f s.fault := by
  by_cases hp : s.phase = .halted
  · exact Or.inl (by rw [perform_halted hp])
  · by_cases hh : haltsOn m s
    · rw [perform_halting hp hh]; exact callOf_fault m s
    · rw [perform_going hp hh]; exact callOf_fault m s

/-- An induction over a list of micro-operations: what every single one keeps, the list keeps. -/
theorem performAll_keeps {P : State → Prop} (h : ∀ m s, P s → P (perform m s)) (ms : List MicroOp) :
    ∀ s, P s → P (performAll ms s) := by
  induction ms with
  | nil => intro s hs; exact hs
  | cons m ms ih => intro s hs; exact ih _ (h m s hs)

/-- A list of micro-operations that never opens chip-select never halts the block. -/
theorem performAll_going {ms : List MicroOp} (hm : MicroOp.openr .cs ∉ ms) :
    ∀ {s : State}, s.phase ≠ .halted →
      (performAll ms s).phase = s.phase ∧ (performAll ms s).prog = s.prog ∧ (performAll ms s).pc = s.pc + ms.length := by
  induction ms with
  | nil => intro s _; simp
  | cons m ms ih =>
    intro s hp
    have hh : ¬ haltsOn m s := by
      rintro ⟨rfl, -⟩
      exact hm (by simp)
    obtain ⟨-, h2, h3, h4⟩ := perform_attempts hp hh
    obtain ⟨i1, i2, i3⟩ := ih (s := perform m s) (fun h => hm (List.mem_cons_of_mem _ h)) (by rw [h4]; exact hp)
    refine ⟨by rw [performAll_cons, i1, h4], by rw [performAll_cons, i2, h3], ?_⟩
    rw [performAll_cons, i3, h2, List.length_cons]
    omega

end Sys2Proof.Machine
end

