-- ==== Sys2Proof/Laws/Decoding.lean ====
section
/-! SUPPORT. Sequencer words: their fields, and what a decoded word executes. -/

namespace Sys2Proof

theorem w9Flag_w9Of : ∀ (f : Bool) (b : Byte), w9Flag (w9Of f b) = f := by decide

theorem w9Byte_w9Of : ∀ (f : Bool) (b : Byte), w9Byte (w9Of f b) = b := by decide

/-- A word is its flag and its byte (R68). -/
theorem w9Of_flag_byte : ∀ w : W9, w9Of (w9Flag w) (w9Byte w) = w := by decide

/-- A byte without a row of its own is decoded to `SENDC`. -/
theorem decodeCommand_sendc : ∀ b : Byte, isPanelByte b = false → decodeCommand b = .sendc b := by decide

/-- Otherwise it is decoded to the instruction of its row. -/
theorem decodeCommand_row : ∀ b : Byte, isPanelByte b = true → (b, decodeCommand b) ∈ panelTable := by decide

namespace Machine

/-- Every row of the panel command table means `SENDC` of its byte (R77). -/
theorem exec_panelTable {p : Byte × Instr} (h : p ∈ panelTable) (s : State) : exec p.2 s = wordOp (sendcProg s.cfg p.1) s := by
  simp only [panelTable, List.mem_cons, List.not_mem_nil, or_false] at h
  rcases h with rfl | rfl | rfl | rfl | rfl | rfl | rfl | rfl | rfl | rfl | rfl | rfl | rfl | rfl | rfl | rfl | rfl | rfl | rfl <;> rfl

/-- A decoded word executes its micro-program (R69, R122). -/
theorem exec_decodeW9 (w : W9) (s : State) : exec (decodeW9 w) s = wordOp (execW9 s.cfg w) s := by
  unfold decodeW9 execW9
  split
  · rfl
  · cases h : isPanelByte (w9Byte w) with
    | false => rw [decodeCommand_sendc _ h]; rfl
    | true => exact exec_panelTable (decodeCommand_row _ h) s

/-- Every instruction that is encoded as a sequencer word executes that word (R69, R77, R122). -/
theorem exec_word {i : Instr} {w : W9} (h : encode i = .w9 w) (s : State) : exec i s = wordOp (execW9 s.cfg w) s := by
  have command : ∀ b : Byte, exec (.sendc b) s = wordOp (execW9 s.cfg (w9Of false b)) s := by
    intro b; simp only [execW9, w9Flag_w9Of, w9Byte_w9Of, Bool.false_eq_true, if_false]; rfl
  cases i
  case sendc b => obtain rfl := FetchWord.w9.inj h; exact command b
  case sendd b =>
    obtain rfl := FetchWord.w9.inj h
    simp only [execW9, w9Flag_w9Of, w9Byte_w9Of, if_true]; rfl
  all_goals first
    | (cases h; done)
    | (obtain rfl := FetchWord.w9.inj h; exact command _)

end Machine

end Sys2Proof
end

