-- ==== Sys2Proof/Laws/Float.lean ====
section
/-! SUPPORT. The number format: fields of a number made from sign and magnitude bits, what a magnitude is worth, what rounding gives,
and that NaN goes through every operation. -/

namespace Sys2Proof.Machine

theorem f32Of_toNat (s : Bool) {mag : Nat} (h : mag < 2 ^ 31) : (f32Of s mag).toNat = (if s then 2 ^ 31 else 0) + mag := by
  unfold f32Of
  rw [BitVec.toNat_ofNat, Nat.mod_eq_of_lt]
  split <;> omega

theorem f32Mag_f32Of (s : Bool) {mag : Nat} (h : mag < 2 ^ 31) : f32Mag (f32Of s mag) = mag := by
  unfold f32Mag
  rw [f32Of_toNat s h]
  cases s <;> simp only [if_true, Bool.false_eq_true, if_false] <;> omega

theorem f32Sign_eq (x : F32) : f32Sign x = decide (2 ^ 31 ≤ x.toNat) := by
  unfold f32Sign
  rw [← BitVec.msb_eq_getLsbD_last, BitVec.msb_eq_decide]

theorem f32Sign_f32Of (s : Bool) {mag : Nat} (h : mag < 2 ^ 31) : f32Sign (f32Of s mag) = s := by
  rw [f32Sign_eq, f32Of_toNat s h]
  cases s
  · simp; omega
  · simp

/-- A number is its sign and its magnitude bits. -/
theorem f32Of_sign_mag (x : F32) : f32Of (f32Sign x) (f32Mag x) = x := by
  have hx := x.isLt
  apply BitVec.eq_of_toNat_eq
  have hm : f32Mag x < 2 ^ 31 := Nat.mod_lt _ (by decide)
  rw [f32Of_toNat _ hm, f32Sign_eq]
  unfold f32Mag
  by_cases h : 2 ^ 31 ≤ x.toNat
  · simp only [h, decide_true, if_true]; omega
  · simp only [h, decide_false, Bool.false_eq_true, if_false]; omega

/-- What an operation delivers for a NaN is a NaN, whatever the free bits are. -/
theorem f32IsNaN_makeNaN (s : Bool) (frac : BitVec 23) : f32IsNaN (makeNaN s frac) = true := by
  unfold makeNaN f32IsNaN
  have hf := frac.isLt
  have hpos : frac ≠ 0 → 0 < frac.toNat := by
    intro h
    rcases Nat.eq_zero_or_pos frac.toNat with h0 | h0
    · exact absurd (BitVec.eq_of_toNat_eq (by simpa using h0)) h
    · exact h0
  rw [f32Mag_f32Of]
  · split
    · simp [infMag]
    · rename_i h; have := hpos h; simp only [decide_eq_true_eq]; omega
  · unfold infMag; split <;> omega

@[simp] theorem f32IsNaN_nanResult (op : ArithOp) (a b : F32) : f32IsNaN (nanResult op a b) = true := f32IsNaN_makeNaN _ _

/-- Finite, infinity and NaN exclude one another (R87). -/
theorem f32_classes (x : F32) : f32IsFinite x = true ∧ f32IsInf x = false ∧ f32IsNaN x = false ∨
    f32IsFinite x = false ∧ f32IsInf x = true ∧ f32IsNaN x = false ∨
    f32IsFinite x = false ∧ f32IsInf x = false ∧ f32IsNaN x = true := by
  simp only [f32IsFinite, f32IsInf, f32IsNaN, decide_eq_true_eq, decide_eq_false_iff_not]
  omega

/-- A NaN operand gives a NaN (R91). -/
theorem fmul_nan {a b : F32} (h : f32IsNaN a = true ∨ f32IsNaN b = true) : f32IsNaN (fmul a b) = true := by
  have : (f32IsNaN a || f32IsNaN b) = true := by rcases h with h | h <;> simp [h]
  simp [fmul, this]

theorem fadd_nan {a b : F32} (h : f32IsNaN a = true ∨ f32IsNaN b = true) : f32IsNaN (fadd a b) = true := by
  have : (f32IsNaN a || f32IsNaN b) = true := by rcases h with h | h <;> simp [h]
  simp [fadd, addWith, this]

theorem f32Mag_f32Neg (x : F32) : f32Mag (f32Neg x) = f32Mag x := by
  unfold f32Mag
  have e : (f32Neg x).toNat % 2 ^ 31 = ((f32Neg x).setWidth 31).toNat := by simp
  have e' : x.toNat % 2 ^ 31 = (x.setWidth 31).toNat := by simp
  rw [e, e']
  congr 1
  ext i hi
  simp [f32Neg]

theorem f32IsNaN_f32Neg (x : F32) : f32IsNaN (f32Neg x) = f32IsNaN x := by
  simp [f32IsNaN, f32Mag_f32Neg]

theorem f32IsFinite_f32Neg (x : F32) : f32IsFinite (f32Neg x) = f32IsFinite x := by
  simp [f32IsFinite, f32Mag_f32Neg]

theorem f32IsInf_f32Neg (x : F32) : f32IsInf (f32Neg x) = f32IsInf x := by
  simp [f32IsInf, f32Mag_f32Neg]

theorem f32Sign_f32Neg (x : F32) : f32Sign (f32Neg x) = !f32Sign x := by
  simp [f32Sign, f32Neg]

theorem fsub_nan {a b : F32} (h : f32IsNaN a = true ∨ f32IsNaN b = true) : f32IsNaN (fsub a b) = true := by
  have : (f32IsNaN a || f32IsNaN (f32Neg b)) = true := by rw [f32IsNaN_f32Neg]; rcases h with h | h <;> simp [h]
  simp [fsub, addWith, this]

theorem f32_of_inf {a : F32} (h : f32IsInf a = true) : f32IsNaN a = false ∧ f32IsFinite a = false ∧ f32IsZero a = false := by
  simp only [f32IsInf, f32IsNaN, f32IsFinite, f32IsZero, decide_eq_true_eq, decide_eq_false_iff_not] at *
  rw [h]
  decide

theorem f32_of_finite {a : F32} (h : f32IsFinite a = true) : f32IsNaN a = false ∧ f32IsInf a = false := by
  simp only [f32IsInf, f32IsNaN, f32IsFinite, decide_eq_true_eq, decide_eq_false_iff_not] at *
  omega

theorem f32_of_zero {a : F32} (h : f32IsZero a = true) : f32IsFinite a = true := by
  simp only [f32IsFinite, f32IsZero, decide_eq_true_eq] at *
  rw [h]
  decide

/-! ## Values -/

/-- What magnitude bits are worth, in units of `2 ^ -149` (R87). -/
def magUnits (mag : Nat) : Nat :=
  (if mag / 2 ^ 23 = 0 then mag % 2 ^ 23 else mag % 2 ^ 23 + 2 ^ 23) * 2 ^ (mag / 2 ^ 23 - 1)

theorem f32Units_eq (x : F32) : f32Units x = if f32Sign x then -(magUnits (f32Mag x) : Int) else (magUnits (f32Mag x) : Int) := by
  have hx := x.isLt
  have h1 : f32Exp x = f32Mag x / 2 ^ 23 := by unfold f32Exp f32Mag; omega
  have h2 : f32Frac x = f32Mag x % 2 ^ 23 := by unfold f32Frac f32Mag; omega
  unfold f32Units f32Sig f32Pow magUnits
  rw [h1, h2]

/-- A significand of at most 24 bits over the exponent of its unit: what `roundMag` writes is worth what it should. -/
theorem magUnits_grid {k sig : Nat} (h : sig ≤ 2 ^ 24) (hk : k = 0 ∨ 2 ^ 23 ≤ sig) :
    magUnits (k * 2 ^ 23 + sig) = sig * 2 ^ k := by
  unfold magUnits
  rcases Nat.lt_or_ge sig (2 ^ 23) with h1 | h1
  · have hk0 : k = 0 := by omega
    subst hk0
    have e1 : (0 * 2 ^ 23 + sig) / 2 ^ 23 = 0 := by omega
    have e2 : (0 * 2 ^ 23 + sig) % 2 ^ 23 = sig := by omega
    rw [e1, e2]; simp
  · rcases Nat.lt_or_ge sig (2 ^ 24) with h2 | h2
    · have e1 : (k * 2 ^ 23 + sig) / 2 ^ 23 = k + 1 := by omega
      have e2 : (k * 2 ^ 23 + sig) % 2 ^ 23 = sig - 2 ^ 23 := by omega
      rw [e1, e2, if_neg (by omega), Nat.add_sub_cancel]
      congr 1; omega
    · have hs : sig = 2 ^ 24 := by omega
      have e1 : (k * 2 ^ 23 + sig) / 2 ^ 23 = k + 2 := by omega
      have e2 : (k * 2 ^ 23 + sig) % 2 ^ 23 = 0 := by omega
      rw [e1, e2, if_neg (by omega), hs, show k + 2 - 1 = k + 1 by omega, Nat.pow_succ 2 k]
      ring

/-- Magnitude bits order the values (R92: why the quantizer is monotone). -/
theorem magUnits_lt {a b : Nat} (h : a < b) : magUnits a < magUnits b := by
  have step : ∀ n, magUnits n < magUnits (n + 1) := by
    intro n
    obtain ⟨k, r, hr, hn⟩ : ∃ k r, r < 2 ^ 23 ∧ n = k * 2 ^ 23 + r := ⟨n / 2 ^ 23, n % 2 ^ 23, Nat.mod_lt _ (by decide), by omega⟩
    rcases Nat.eq_zero_or_pos k with h0 | h0
    · subst h0
      have e1 := magUnits_grid (k := 0) (sig := r) (by omega) (.inl rfl)
      have e2 := magUnits_grid (k := 0) (sig := r + 1) (by omega) (.inl rfl)
      rw [hn, e1, Nat.add_assoc, e2]; omega
    · have e1 := magUnits_grid (k := k - 1) (sig := r + 2 ^ 23) (by omega) (.inr (by omega))
      have e2 := magUnits_grid (k := k - 1) (sig := r + 2 ^ 23 + 1) (by omega) (.inr (by omega))
      rw [show (k - 1) * 2 ^ 23 + (r + 2 ^ 23) = n by omega] at e1
      rw [show (k - 1) * 2 ^ 23 + (r + 2 ^ 23 + 1) = n + 1 by omega] at e2
      rw [e1, e2]
      exact Nat.mul_lt_mul_of_pos_right (by omega) (by positivity)
  induction b with
  | zero => omega
  | succ b ih =>
    rcases Nat.lt_or_ge a b with h1 | h1
    · exact lt_trans (ih h1) (step b)
    · rw [show a = b by omega]; exact step b

/-! ## Rounding -/

/-- `roundShift` is a nearest integer, and the even one of two equally near ones. -/
theorem roundShift_spec (m k : Nat) :
    2 * m ≤ (2 * roundShift m k + 1) * 2 ^ k ∧ 2 * roundShift m k * 2 ^ k ≤ 2 * m + 2 ^ k ∧
    (2 * m = (2 * roundShift m k + 1) * 2 ^ k ∨ 2 * roundShift m k * 2 ^ k = 2 * m + 2 ^ k → roundShift m k % 2 = 0) := by
  have hp : 0 < 2 ^ k := by positivity
  have hm := Nat.div_add_mod m (2 ^ k)
  have hr := Nat.mod_lt m hp
  unfold roundShift
  dsimp only
  generalize m / 2 ^ k = q at *
  generalize m % 2 ^ k = r at *
  generalize 2 ^ k = p at *
  subst hm
  have e1 : (2 * (q + 1) + 1) * p = 2 * (p * q) + 3 * p := by ring
  have e2 : 2 * (q + 1) * p = 2 * (p * q) + 2 * p := by ring
  have e3 : (2 * q + 1) * p = 2 * (p * q) + p := by ring
  have e4 : 2 * q * p = 2 * (p * q) := by ring
  split
  · rw [e1, e2]
    generalize p * q = x at *
    omega
  · rw [e3, e4]
    generalize p * q = x at *
    omega

/-- The exponent of the last place that `roundMag` keeps. -/
def lastPlace (m e : Nat) : Nat := max (e + (Nat.log2 m + 1) - 24) 149

/-- The significand that `roundMag` keeps. -/
def keptSig (m e : Nat) : Nat := if lastPlace m e ≤ e then m * 2 ^ (e - lastPlace m e) else roundShift m (lastPlace m e - e)

/-- `roundMag` before the largest finite number cuts it off. -/
def rawMag (m e : Nat) : Nat := (lastPlace m e - 149) * 2 ^ 23 + keptSig m e

theorem roundMag_eq {m e : Nat} (h : m ≠ 0) : roundMag m e = min (rawMag m e) infMag := by
  unfold roundMag
  rw [if_neg h]
  rfl

theorem roundMag_zero (e : Nat) : roundMag 0 e = 0 := by simp [roundMag]

theorem lastPlace_ge (m e : Nat) : 149 ≤ lastPlace m e := le_max_right _ _

theorem roundShift_bounds {m k lo hi : Nat} (h1 : lo * 2 ^ k ≤ m) (h2 : m < hi * 2 ^ k) : lo ≤ roundShift m k ∧ roundShift m k ≤ hi := by
  have hp : 0 < 2 ^ k := by positivity
  have a : lo ≤ m / 2 ^ k := (Nat.le_div_iff_mul_le hp).2 h1
  have b : m / 2 ^ k < hi := (Nat.div_lt_iff_lt_mul hp).2 h2
  unfold roundShift
  dsimp only
  split <;> omega

/-- The significand fits, and is normal above the least exponent. -/
theorem keptSig_bounds {m e : Nat} (h : m ≠ 0) : keptSig m e ≤ 2 ^ 24 ∧ (lastPlace m e - 149 = 0 ∨ 2 ^ 23 ≤ keptSig m e) := by
  have hlo : 2 ^ Nat.log2 m ≤ m := Nat.log2_self_le h
  have hhi : m < 2 ^ (Nat.log2 m + 1) := Nat.lt_log2_self
  have hu : lastPlace m e = max (e + (Nat.log2 m + 1) - 24) 149 := rfl
  unfold keptSig
  generalize lastPlace m e = u at *
  generalize Nat.log2 m = l at *
  split
  · rename_i hue
    constructor
    · calc m * 2 ^ (e - u) ≤ 2 ^ (l + 1) * 2 ^ (e - u) := Nat.mul_le_mul_right _ hhi.le
        _ = 2 ^ (l + 1 + (e - u)) := (pow_add _ _ _).symm
        _ ≤ 2 ^ 24 := Nat.pow_le_pow_right (by decide) (by omega)
    · by_cases h1 : u = 149
      · left; omega
      · right
        calc 2 ^ 23 ≤ 2 ^ (l + (e - u)) := Nat.pow_le_pow_right (by decide) (by omega)
          _ = 2 ^ l * 2 ^ (e - u) := pow_add _ _ _
          _ ≤ m * 2 ^ (e - u) := Nat.mul_le_mul_right _ hlo
  · rename_i hue
    have hb : m < 2 ^ 24 * 2 ^ (u - e) := by
      rw [← pow_add]
      exact lt_of_lt_of_le hhi (Nat.pow_le_pow_right (by decide) (by omega))
    by_cases h1 : u = 149
    · exact ⟨(roundShift_bounds (lo := 0) (by simp) hb).2, .inl (by omega)⟩
    · have ha : 2 ^ 23 * 2 ^ (u - e) ≤ m := by
        rw [← pow_add]
        exact le_trans (Nat.pow_le_pow_right (by decide) (by omega)) hlo
      exact ⟨(roundShift_bounds ha hb).2, .inr (roundShift_bounds ha hb).1⟩

/-- The unit `2 ^ -149` in terms of the unit `2 ^ -298` of a product. -/
def unitScale : Nat := 2 ^ 149

theorem unitScale_pos : 0 < unitScale := by unfold unitScale; positivity

theorem unitScale_mul {u : Nat} (h : 149 ≤ u) : 2 ^ (u - 149) * unitScale = 2 ^ u := by
  unfold unitScale
  rw [← pow_add, Nat.sub_add_cancel h]

/-- What the rounded magnitude is worth. -/
theorem magUnits_rawMag {m e : Nat} (h : m ≠ 0) : magUnits (rawMag m e) * unitScale = keptSig m e * 2 ^ lastPlace m e := by
  obtain ⟨h1, h2⟩ := keptSig_bounds (e := e) h
  unfold rawMag
  rw [magUnits_grid h1 h2, Nat.mul_assoc, unitScale_mul (lastPlace_ge m e)]

theorem rawMag_parity (m e : Nat) : rawMag m e % 2 = keptSig m e % 2 := by unfold rawMag; omega

theorem magUnits_inj {a b : Nat} (h : magUnits a = magUnits b) : a = b := by
  rcases Nat.lt_trichotomy a b with h1 | h1 | h1
  · have := magUnits_lt h1; omega
  · exact h1
  · have := magUnits_lt h1; omega

/-- From an exponent on, every magnitude is worth a multiple of that exponent's unit. -/
theorem magUnits_dvd {z k : Nat} (h : k = 0 ∨ (k + 1) * 2 ^ 23 ≤ z) : 2 ^ k ∣ magUnits z := by
  rcases h with h | h
  · subst h; simp
  · have : k ≤ z / 2 ^ 23 - 1 := by omega
    exact Dvd.dvd.mul_left (pow_dvd_pow 2 this) _

/-- The rounded magnitude is nearest to the exact value among all magnitudes, and even if another one is equally near (R91). -/
theorem rawMag_nearest {m e : Nat} (h : m ≠ 0) (z : Nat) :
    |(magUnits (rawMag m e) * unitScale : Int) - m * 2 ^ e| ≤ |(magUnits z * unitScale : Int) - m * 2 ^ e| ∧
    (|(magUnits (rawMag m e) * unitScale : Int) - m * 2 ^ e| = |(magUnits z * unitScale : Int) - m * 2 ^ e| → z ≠ rawMag m e →
      rawMag m e % 2 = 0) := by
  have hv := magUnits_rawMag (e := e) h
  have hvI : (magUnits (rawMag m e) * unitScale : Int) = keptSig m e * 2 ^ lastPlace m e := by exact_mod_cast hv
  have hinj : z ≠ rawMag m e → magUnits z ≠ magUnits (rawMag m e) := fun hz he => hz (magUnits_inj he)
  rw [hvI]
  by_cases hue : lastPlace m e ≤ e
  · have hs : keptSig m e * 2 ^ lastPlace m e = m * 2 ^ e := by
      unfold keptSig
      rw [if_pos hue, Nat.mul_assoc, ← pow_add]
      congr 2; omega
    have hsI : (keptSig m e * 2 ^ lastPlace m e : Int) = m * 2 ^ e := by exact_mod_cast hs
    rw [hsI]
    refine ⟨by simp, fun h0 hz => ?_⟩
    exfalso
    have h1 : (magUnits z * unitScale : Int) = m * 2 ^ e := by
      have : |(magUnits z * unitScale : Int) - m * 2 ^ e| = 0 := by rw [← h0]; simp
      have := abs_eq_zero.1 this
      omega
    have h2 : magUnits z * unitScale = magUnits (rawMag m e) * unitScale := by
      rw [hv, hs]; exact_mod_cast h1
    exact hinj hz (Nat.eq_of_mul_eq_mul_right unitScale_pos h2)
  · have hue' : e < lastPlace m e := by omega
    obtain ⟨s1, s2, s3⟩ := roundShift_spec m (lastPlace m e - e)
    have hk : keptSig m e = roundShift m (lastPlace m e - e) := by unfold keptSig; rw [if_neg hue]
    rw [← hk] at s1 s2 s3
    have hpow : 2 ^ (lastPlace m e - e) * 2 ^ e = 2 ^ lastPlace m e := by rw [← pow_add]; congr 1; omega
    have hpar := rawMag_parity m e
    have hz2 : lastPlace m e = 149 ∨ 2 ^ 23 * 2 ^ lastPlace m e ≤ m * 2 ^ e := by
      by_cases h1 : lastPlace m e = 149
      · exact .inl h1
      · right
        have hu : lastPlace m e = max (e + (Nat.log2 m + 1) - 24) 149 := rfl
        calc 2 ^ 23 * 2 ^ lastPlace m e = 2 ^ (23 + lastPlace m e) := (pow_add _ _ _).symm
          _ = 2 ^ (Nat.log2 m + e) := by congr 1; omega
          _ = 2 ^ Nat.log2 m * 2 ^ e := pow_add _ _ _
          _ ≤ m * 2 ^ e := Nat.mul_le_mul_right _ (Nat.log2_self_le h)
    have hge := lastPlace_ge m e
    have hraw : rawMag m e = (lastPlace m e - 149) * 2 ^ 23 + keptSig m e := rfl
    -- the multiples of the unit
    have hgrid : (lastPlace m e - 149 = 0 ∨ (lastPlace m e - 149 + 1) * 2 ^ 23 ≤ z) →
        ∃ j, magUnits z * unitScale = j * 2 ^ lastPlace m e := by
      intro hc
      obtain ⟨j, hj⟩ := magUnits_dvd hc
      refine ⟨j, ?_⟩
      rw [hj, Nat.mul_comm (2 ^ _) j, Nat.mul_assoc, unitScale_mul hge]
    have hlow : ¬(lastPlace m e - 149 = 0 ∨ (lastPlace m e - 149 + 1) * 2 ^ 23 ≤ z) →
        magUnits z * unitScale < 2 ^ 23 * 2 ^ lastPlace m e := by
      intro hc
      rw [not_or, not_le] at hc
      have h1 := magUnits_lt hc.2
      have h2 := magUnits_grid (k := lastPlace m e - 149) (sig := 2 ^ 23) (by decide) (.inr le_rfl)
      rw [← Nat.succ_mul] at h2
      rw [h2] at h1
      calc magUnits z * unitScale < 2 ^ 23 * 2 ^ (lastPlace m e - 149) * unitScale := Nat.mul_lt_mul_of_pos_right h1 unitScale_pos
        _ = 2 ^ 23 * 2 ^ lastPlace m e := by rw [Nat.mul_assoc, unitScale_mul hge]
    have t1 : 2 * (m * 2 ^ e) ≤ (2 * keptSig m e + 1) * 2 ^ lastPlace m e := by
      rw [← hpow]; nlinarith [Nat.mul_le_mul_right (2 ^ e) s1]
    have t2 : 2 * (keptSig m e * 2 ^ lastPlace m e) ≤ 2 * (m * 2 ^ e) + 2 ^ lastPlace m e := by
      rw [← hpow]; nlinarith [Nat.mul_le_mul_right (2 ^ e) s2]
    have hpe : 0 < 2 ^ e := by positivity
    have t3 : (2 * (m * 2 ^ e) = (2 * keptSig m e + 1) * 2 ^ lastPlace m e ∨
        2 * (keptSig m e * 2 ^ lastPlace m e) = 2 * (m * 2 ^ e) + 2 ^ lastPlace m e) → keptSig m e % 2 = 0 := by
      rintro (h1 | h1)
      · refine s3 (.inl (Nat.eq_of_mul_eq_mul_right hpe ?_))
        rw [← hpow] at h1
        linarith [h1, Nat.mul_assoc (2 * keptSig m e + 1) (2 ^ (lastPlace m e - e)) (2 ^ e), Nat.mul_assoc 2 m (2 ^ e)]
      · refine s3 (.inr (Nat.eq_of_mul_eq_mul_right hpe ?_))
        rw [← hpow] at h1
        linarith [h1, Nat.mul_assoc (2 * keptSig m e) (2 ^ (lastPlace m e - e)) (2 ^ e),
          Nat.mul_assoc 2 (keptSig m e) (2 ^ (lastPlace m e - e) * 2 ^ e), Nat.mul_assoc 2 m (2 ^ e),
          Nat.add_mul (2 * m) (2 ^ (lastPlace m e - e)) (2 ^ e)]
    have hdz : (magUnits z * unitScale : Int) = ((magUnits z * unitScale : Nat) : Int) := by push_cast; rfl
    have hne : z ≠ rawMag m e → magUnits z * unitScale ≠ keptSig m e * 2 ^ lastPlace m e := by
      intro hz he
      rw [← hv] at he
      exact hinj hz (Nat.eq_of_mul_eq_mul_right unitScale_pos he)
    have hV : (m * 2 ^ e : Int) = ((m * 2 ^ e : Nat) : Int) := by push_cast; rfl
    have hS : (keptSig m e * 2 ^ lastPlace m e : Int) = ((keptSig m e * 2 ^ lastPlace m e : Nat) : Int) := by push_cast; rfl
    rw [hdz, hV, hS]
    have e1 : (2 * keptSig m e + 1) * 2 ^ lastPlace m e = 2 * (keptSig m e * 2 ^ lastPlace m e) + 2 ^ lastPlace m e := by ring
    rw [e1] at t1 t3
    have far : (lastPlace m e - 149 = 0 ∨ (lastPlace m e - 149 + 1) * 2 ^ 23 ≤ z) → z ≠ rawMag m e →
        keptSig m e * 2 ^ lastPlace m e + 2 ^ lastPlace m e ≤ magUnits z * unitScale ∨
        magUnits z * unitScale + 2 ^ lastPlace m e ≤ keptSig m e * 2 ^ lastPlace m e := by
      intro hc hz
      obtain ⟨j, hj⟩ := hgrid hc
      have h1 := hne hz
      rw [hj] at h1 ⊢
      have hjne : j ≠ keptSig m e := fun he => h1 (by rw [he])
      rcases Nat.lt_or_gt_of_ne hjne with h2 | h2
      · right
        calc j * 2 ^ lastPlace m e + 2 ^ lastPlace m e = (j + 1) * 2 ^ lastPlace m e := by ring
          _ ≤ keptSig m e * 2 ^ lastPlace m e := Nat.mul_le_mul_right _ h2
      · left
        calc keptSig m e * 2 ^ lastPlace m e + 2 ^ lastPlace m e = (keptSig m e + 1) * 2 ^ lastPlace m e := by ring
          _ ≤ j * 2 ^ lastPlace m e := Nat.mul_le_mul_right _ h2
    have low : ¬(lastPlace m e - 149 = 0 ∨ (lastPlace m e - 149 + 1) * 2 ^ 23 ≤ z) →
        magUnits z * unitScale < 2 ^ 23 * 2 ^ lastPlace m e ∧ 2 ^ 23 * 2 ^ lastPlace m e ≤ m * 2 ^ e ∧
          (keptSig m e * 2 ^ lastPlace m e = 2 ^ 23 * 2 ^ lastPlace m e ∨
            2 ^ 23 * 2 ^ lastPlace m e + 2 ^ lastPlace m e ≤ keptSig m e * 2 ^ lastPlace m e) := by
      intro hc
      refine ⟨hlow hc, ?_, ?_⟩
      · rcases hz2 with h1 | h1
        · exact absurd (.inl (by rw [h1])) hc
        · exact h1
      · rcases (keptSig_bounds (e := e) h).2 with h1 | h1
        · exact absurd (.inl h1) hc
        · rcases Nat.eq_or_lt_of_le h1 with h2 | h2
          · exact .inl (by rw [← h2])
          · right
            rw [← Nat.succ_mul]
            exact Nat.mul_le_mul_right _ h2
    have near : z = rawMag m e → magUnits z * unitScale = keptSig m e * 2 ^ lastPlace m e := by
      rintro rfl; exact hv
    generalize keptSig m e * 2 ^ lastPlace m e = S at *
    generalize magUnits z * unitScale = Z at *
    generalize m * 2 ^ e = V at *
    generalize 2 ^ 23 * 2 ^ lastPlace m e = B at *
    generalize 2 ^ lastPlace m e = U at *
    rw [hpar]
    by_cases hz : z = rawMag m e
    · have := near hz
      subst this
      exact ⟨le_rfl, fun _ h => absurd hz h⟩
    · by_cases hc : lastPlace m e - 149 = 0 ∨ (lastPlace m e - 149 + 1) * 2 ^ 23 ≤ z
      · rcases far hc hz with hf | hf
        · constructor
          · rcases abs_cases ((S : Int) - V) with ⟨a, _⟩ | ⟨a, _⟩ <;> rcases abs_cases ((Z : Int) - V) with ⟨b, _⟩ | ⟨b, _⟩ <;> omega
          · intro he _
            apply t3
            rcases abs_cases ((S : Int) - V) with ⟨a, _⟩ | ⟨a, _⟩ <;> rcases abs_cases ((Z : Int) - V) with ⟨b, _⟩ | ⟨b, _⟩ <;> omega
        · constructor
          · rcases abs_cases ((S : Int) - V) with ⟨a, _⟩ | ⟨a, _⟩ <;> rcases abs_cases ((Z : Int) - V) with ⟨b, _⟩ | ⟨b, _⟩ <;> omega
          · intro he _
            apply t3
            rcases abs_cases ((S : Int) - V) with ⟨a, _⟩ | ⟨a, _⟩ <;> rcases abs_cases ((Z : Int) - V) with ⟨b, _⟩ | ⟨b, _⟩ <;> omega
      · obtain ⟨l1, l2, l3⟩ := low hc
        constructor
        · rcases abs_cases ((S : Int) - V) with ⟨a, _⟩ | ⟨a, _⟩ <;> rcases abs_cases ((Z : Int) - V) with ⟨b, _⟩ | ⟨b, _⟩ <;> omega
        · intro he _
          exfalso
          rcases abs_cases ((S : Int) - V) with ⟨a, _⟩ | ⟨a, _⟩ <;> rcases abs_cases ((Z : Int) - V) with ⟨b, _⟩ | ⟨b, _⟩ <;> omega

/-- A value that is a magnitude's is rounded to that magnitude. -/
theorem roundMag_exact {m e mag : Nat} (h : m ≠ 0) (hm : mag < infMag) (hv : magUnits mag * unitScale = m * 2 ^ e) :
    roundMag m e = mag := by
  have h1 := (rawMag_nearest (e := e) h mag).1
  have hvI : (magUnits mag * unitScale : Int) = m * 2 ^ e := by exact_mod_cast hv
  rw [hvI, sub_self, abs_zero] at h1
  have h2 : (magUnits (rawMag m e) * unitScale : Int) = magUnits mag * unitScale := by
    rw [hvI]
    exact sub_eq_zero.1 (abs_eq_zero.1 (le_antisymm h1 (abs_nonneg _)))
  have h3 : magUnits (rawMag m e) * unitScale = magUnits mag * unitScale := by exact_mod_cast h2
  rw [roundMag_eq h, magUnits_inj (Nat.eq_of_mul_eq_mul_right unitScale_pos h3)]
  exact Nat.min_eq_left hm.le

/-- Rounding is monotone. -/
theorem rawMag_mono {m e m' e' : Nat} (h : m ≠ 0) (h' : m' ≠ 0) (hv : m * 2 ^ e ≤ m' * 2 ^ e') : rawMag m e ≤ rawMag m' e' := by
  by_contra hc
  rw [not_le] at hc
  obtain ⟨a1, a2⟩ := rawMag_nearest (e := e) h (rawMag m' e')
  obtain ⟨b1, b2⟩ := rawMag_nearest (e := e') h' (rawMag m e)
  have c1 := (rawMag_nearest (e := e) h (rawMag m' e' + 1)).1
  have hlt := Nat.mul_lt_mul_of_pos_right (magUnits_lt hc) unitScale_pos
  have hstep := Nat.mul_lt_mul_of_pos_right (magUnits_lt (Nat.lt_succ_self (rawMag m' e'))) unitScale_pos
  have hup : rawMag m' e' + 1 < rawMag m e → magUnits (rawMag m' e' + 1) * unitScale < magUnits (rawMag m e) * unitScale :=
    fun hl => Nat.mul_lt_mul_of_pos_right (magUnits_lt hl) unitScale_pos
  have cast : ∀ x : Nat, (magUnits x * unitScale : Int) = ((magUnits x * unitScale : Nat) : Int) := fun x => by push_cast; rfl
  have hV : (m * 2 ^ e : Int) = ((m * 2 ^ e : Nat) : Int) := by push_cast; rfl
  have hV' : (m' * 2 ^ e' : Int) = ((m' * 2 ^ e' : Nat) : Int) := by push_cast; rfl
  rw [cast, cast, hV] at a1 a2 c1
  rw [cast, cast, hV'] at b1 b2
  have hne : rawMag m' e' ≠ rawMag m e := by omega
  have a3 := fun h => a2 h hne
  have b3 := fun h => b2 h hne.symm
  clear a2 b2 cast hV hV'
  rw [Nat.succ_eq_add_one] at hstep
  generalize magUnits (rawMag m e) * unitScale = R at *
  generalize magUnits (rawMag m' e') * unitScale = S at *
  generalize magUnits (rawMag m' e' + 1) * unitScale = T at *
  generalize m * 2 ^ e = V at *
  generalize m' * 2 ^ e' = W at *
  rcases abs_cases ((R : Int) - V) with ⟨x1, _⟩ | ⟨x1, _⟩ <;> rcases abs_cases ((S : Int) - V) with ⟨x2, _⟩ | ⟨x2, _⟩ <;>
    rcases abs_cases ((S : Int) - W) with ⟨x3, _⟩ | ⟨x3, _⟩ <;> rcases abs_cases ((R : Int) - W) with ⟨x4, _⟩ | ⟨x4, _⟩ <;>
    rcases abs_cases ((T : Int) - V) with ⟨x5, _⟩ | ⟨x5, _⟩ <;> omega

/-! ## The operations on finite numbers -/

/-- Rounding stays below the infinities exactly below the value halfway between the largest finite number and 2 ^ 128 (R91). -/
theorem roundMag_lt_inf {m e : Nat} (h : m ≠ 0) : roundMag m e < infMag ↔ m * 2 ^ e < (2 ^ 25 - 1) * 2 ^ 401 := by
  have hI : magUnits infMag * unitScale = 2 ^ 426 := by decide +kernel
  have hM : magUnits (infMag - 1) * unitScale = 2 ^ 426 - 2 ^ 402 := by decide +kernel
  have hodd : (infMag - 1) % 2 = 1 := by decide
  obtain ⟨a1, -⟩ := rawMag_nearest (e := e) h (infMag - 1)
  obtain ⟨b1, b2⟩ := rawMag_nearest (e := e) h infMag
  have cast : ∀ x : Nat, (magUnits x * unitScale : Int) = ((magUnits x * unitScale : Nat) : Int) := fun x => by push_cast; rfl
  have hV : (m * 2 ^ e : Int) = ((m * 2 ^ e : Nat) : Int) := by push_cast; rfl
  rw [cast, cast, hV] at a1 b1 b2
  rw [hM] at a1
  rw [hI] at b1 b2
  have hge : infMag ≤ rawMag m e → 2 ^ 426 ≤ magUnits (rawMag m e) * unitScale := by
    intro hle
    rw [← hI]
    rcases Nat.eq_or_lt_of_le hle with h1 | h1
    · rw [← h1]
    · exact Nat.mul_le_mul_right _ (magUnits_lt h1).le
  have hle : rawMag m e < infMag → magUnits (rawMag m e) * unitScale ≤ 2 ^ 426 - 2 ^ 402 ∧
      (magUnits (rawMag m e) * unitScale = 2 ^ 426 - 2 ^ 402 → rawMag m e = infMag - 1) := by
    intro hlt
    rw [← hM]
    refine ⟨?_, fun he => magUnits_inj (Nat.eq_of_mul_eq_mul_right unitScale_pos he)⟩
    rcases Nat.eq_or_lt_of_le (Nat.le_sub_one_of_lt hlt) with h1 | h1
    · rw [h1]
    · exact Nat.mul_le_mul_right _ (magUnits_lt h1).le
  rw [roundMag_eq h]
  have hmin : min (rawMag m e) infMag < infMag ↔ rawMag m e < infMag := by rw [min_lt_iff]; exact or_iff_left (lt_irrefl _)
  rw [hmin]
  generalize magUnits (rawMag m e) * unitScale = R at *
  generalize m * 2 ^ e = V at *
  clear cast hV hI hM
  have e1 : (2 ^ 25 - 1) * 2 ^ 401 = 2 ^ 426 - 2 ^ 401 := by decide +kernel
  have e2 : 2 ^ 402 = 2 * 2 ^ 401 := by decide +kernel
  have e3 : 2 * 2 ^ 401 ≤ 2 ^ 426 := by decide +kernel
  rw [e1]
  rw [e2] at a1 hle
  generalize (2 : Nat) ^ 426 = A at *
  generalize (2 : Nat) ^ 401 = C at *
  constructor
  · intro hlt
    obtain ⟨c1, c2⟩ := hle hlt
    by_contra hc
    have b2' := fun he => b2 he (by omega : infMag ≠ rawMag m e)
    rcases abs_cases ((R : Int) - V) with ⟨x1, _⟩ | ⟨x1, _⟩ <;> rcases abs_cases ((A : Int) - V) with ⟨x2, _⟩ | ⟨x2, _⟩ <;> rw [x1, x2] at b1 b2' <;> omega
  · intro hlt
    by_contra hc
    have := hge (by omega)
    rcases abs_cases ((R : Int) - V) with ⟨x1, _⟩ | ⟨x1, _⟩ <;> rcases abs_cases (((A - 2 * C : Nat) : Int) - V) with ⟨x2, _⟩ | ⟨x2, _⟩ <;> rw [x1, x2] at a1 <;> omega
theorem roundMag_le (m e : Nat) : roundMag m e ≤ infMag := by
  unfold roundMag
  dsimp only
  split
  · exact Nat.zero_le _
  · exact Nat.min_le_right _ _

theorem infMag_lt : infMag < 2 ^ 31 := by decide

/-- A rounded magnitude with a sign: finite below the limit, an infinity otherwise, and the sign is kept. -/
theorem f32Of_roundMag (s : Bool) (m e : Nat) :
    (f32IsFinite (f32Of s (roundMag m e)) = true ↔ m * 2 ^ e < (2 ^ 25 - 1) * 2 ^ 401) ∧
    (f32IsFinite (f32Of s (roundMag m e)) = false → f32IsInf (f32Of s (roundMag m e)) = true) ∧
    f32Sign (f32Of s (roundMag m e)) = s := by
  have hb := roundMag_le m e
  have hl := lt_of_le_of_lt hb infMag_lt
  simp only [f32IsFinite, f32IsInf, f32Mag_f32Of s hl, f32Sign_f32Of s hl, decide_eq_true_eq, decide_eq_false_iff_not, and_true]
  constructor
  · by_cases h : m = 0
    · subst h
      rw [roundMag_zero, Nat.zero_mul]
      exact iff_of_true (by decide) (by positivity)
    · exact roundMag_lt_inf h
  · exact fun h => le_antisymm hb (not_lt.1 h)

theorem f32Units_natAbs (x : F32) : (f32Units x).natAbs = f32Sig x * 2 ^ f32Pow x := by
  unfold f32Units
  split
  · rw [Int.natAbs_neg, Int.natAbs_natCast]
  · rw [Int.natAbs_natCast]

/-- On finite numbers the operations round the exact result. -/
theorem fmul_finite {a b : F32} (ha : f32IsFinite a = true) (hb : f32IsFinite b = true) :
    fmul a b = f32Of (f32Sign a != f32Sign b) (roundMag (f32Sig a * f32Sig b) (f32Pow a + f32Pow b)) := by
  obtain ⟨-, h1, h2⟩ | ⟨h, -⟩ | ⟨h, -⟩ := f32_classes a
  · obtain ⟨-, h3, h4⟩ | ⟨h, -⟩ | ⟨h, -⟩ := f32_classes b
    · simp [fmul, h1, h2, h3, h4]
    all_goals rw [hb] at h; cases h
  all_goals rw [ha] at h; cases h

theorem addWith_finite (op : ArithOp) (a0 b0 : F32) {a b : F32} (ha : f32IsFinite a = true) (hb : f32IsFinite b = true) :
    addWith op a0 b0 a b = if f32Units a + f32Units b = 0 then (if f32Sign a && f32Sign b then 0x80000000 else 0x00000000)
      else f32Of (decide (f32Units a + f32Units b < 0)) (roundMag (f32Units a + f32Units b).natAbs 149) := by
  have e1 : f32Of true 0 = 0x80000000 := rfl
  have e2 : f32Of false 0 = 0x00000000 := rfl
  obtain ⟨-, h1, h2⟩ | ⟨h, -⟩ | ⟨h, -⟩ := f32_classes a
  · obtain ⟨-, h3, h4⟩ | ⟨h, -⟩ | ⟨h, -⟩ := f32_classes b
    · simp [addWith, h1, h2, h3, h4, e1, e2, roundUnits]
    all_goals rw [hb] at h; cases h
  all_goals rw [ha] at h; cases h

theorem f32Units_f32Neg (x : F32) : f32Units (f32Neg x) = -f32Units x := by
  rw [f32Units_eq, f32Units_eq, f32Sign_f32Neg, f32Mag_f32Neg]
  cases f32Sign x <;> simp

end Sys2Proof.Machine
end

