-- ==== Sys2Proof/Laws/Words.lean ====
section
/-! SUPPORT. Sequencer words and lists of them when ENV answers "ok": the state they lead to, and what the panel receives. -/

namespace Sys2Proof.Machine

/-- The data/command level a list of words leaves, from the level before (R121). -/
def wordsDc (c : Cfg) (d : Level) (ws : List W9) : Level :=
  match ws.getLast? with
  | none => d
  | some w => Level.ofBit (if w9Flag w then c.dcData else c.dcCmd)

@[simp] theorem wordsDc_nil (c : Cfg) (d : Level) : wordsDc c d [] = d := rfl

theorem wordsDc_cons (c : Cfg) (d : Level) (w : W9) (ws : List W9) :
    wordsDc c d (w :: ws) = wordsDc c (Level.ofBit (if w9Flag w then c.dcData else c.dcCmd)) ws := by
  cases ws with
  | nil => rfl
  | cons v vs =>
    obtain ⟨u, hu⟩ : ∃ u, (v :: vs).getLast? = some u := ⟨_, List.getLast?_eq_some_getLast (by simp)⟩
    simp [wordsDc, List.getLast?_cons_cons, hu]

/-- One word, all calls successful (R119, R120). -/
theorem performAll_word_ok {s : State} (w : W9) {rest : List Answer} (hp : s.phase ≠ .halted) (h1 : s.spiOpen = true)
    (h2 : s.csOpen = true) (h3 : s.dcOpen = true) (he : s.env = List.replicate 4 .ok ++ rest) :
    performAll (execW9 s.cfg w) s = { s with
      cs := Level.ofBit s.cfg.csIdle, dc := Level.ofBit (if w9Flag w then s.cfg.dcData else s.cfg.dcCmd)
      trace := s.trace ++ wordEvents s.cfg w, env := rest, pc := s.pc + 4 } := by
  have he' : s.env = .ok :: .ok :: .ok :: .ok :: rest := he
  cases hw : w9Flag w
  · simp only [execW9, hw, sendcProg, Bool.false_eq_true, if_false]
    rw [performAll_cons, perform_pinw_ok hp (by exact h2) he']
    simp only [setLatch]
    rw [performAll_cons, perform_pinw_ok (by exact hp) (by exact h3) rfl]
    simp only [setLatch]
    rw [performAll_cons, perform_xferb_ok (by exact hp) (by exact h1) rfl]
    rw [performAll_cons, perform_pinw_ok (by exact hp) (by exact h2) rfl]
    simp [setLatch, wordEvents, hw]
  · simp only [execW9, hw, senddProg, if_true]
    rw [performAll_cons, perform_pinw_ok hp (by exact h3) he']
    simp only [setLatch]
    rw [performAll_cons, perform_pinw_ok (by exact hp) (by exact h2) rfl]
    simp only [setLatch]
    rw [performAll_cons, perform_xferb_ok (by exact hp) (by exact h1) rfl]
    rw [performAll_cons, perform_pinw_ok (by exact hp) (by exact h2) rfl]
    simp [setLatch, wordEvents, hw]

/-- A list of words, all calls successful (R122). -/
theorem performAll_words_ok {c : Cfg} (ws : List W9) {rest : List Answer} :
    ∀ {s : State} (_ : s.cfg = c) (_ : s.phase ≠ .halted) (_ : s.spiOpen = true) (_ : s.csOpen = true) (_ : s.dcOpen = true)
      (_ : s.cs = Level.ofBit c.csIdle) (_ : s.env = List.replicate (4 * ws.length) .ok ++ rest),
      performAll (execWords c ws) s = { s with
        dc := wordsDc c s.dc ws
        trace := s.trace ++ wordsEvents c ws, env := rest, pc := s.pc + 4 * ws.length } := by
  induction ws with
  | nil =>
    intro s _ _ _ _ _ _ he
    have : s.env = rest := by simpa using he
    subst this
    simp
  | cons w ws ih =>
    intro s hcfg hp h1 h2 h3 hc he
    subst hcfg
    have he' : s.env = List.replicate 4 .ok ++ (List.replicate (4 * ws.length) .ok ++ rest) := by
      rw [he, List.length_cons, Nat.mul_add, ← List.append_assoc, ← List.replicate_add]
      congr 2; omega
    rw [execWords_cons, performAll_append, performAll_word_ok w hp h1 h2 h3 he',
      ih (by rfl) (by exact hp) (by exact h1) (by exact h2) (by exact h3) (by rfl) (by rfl)]
    simp only [wordsEvents_cons, List.append_assoc, List.length_cons, wordsDc_cons, hc]
    congr 1
    omega

/-- The pixels of the cells `n - 1` down to 0, all transfers successful (R151, R152). -/
theorem performAll_pixels_ok (n : Nat) {rest : List Answer} :
    ∀ {s : State} (_ : s.phase ≠ .halted) (_ : s.spiOpen = true) (_ : s.pixctr = n)
      (_ : s.env = List.replicate n .ok ++ rest),
      performAll (List.replicate n .xferpx) s = { s with
        pixw := if n = 0 then s.pixw else to565 (s.fb.read 0)
        pixctr := 0
        trace := s.trace ++ pixelEvents s.fb n, env := rest, pc := s.pc + n } := by
  induction n with
  | zero =>
    intro s _ _ hc he
    have : s.env = rest := by simpa using he
    subst this
    cases s
    simp_all [pixelEvents]
  | succ n ih =>
    intro s hp h1 hc he
    have he' : s.env = .ok :: (List.replicate n .ok ++ rest) := by rw [he, List.replicate_succ, List.cons_append]
    rw [List.replicate_succ, performAll_cons, perform_xferpx_ok hp h1 he', ih (by exact hp) (by exact h1) (by simp [hc]) rfl]
    have h : s.pixctr - 1 = n := by omega
    simp only [h, pixelEvents, List.append_assoc, List.cons_append, List.nil_append]
    have hw : (if n = 0 then to565 (s.fb.read n) else to565 (s.fb.read 0)) = to565 (s.fb.read 0) := by
      by_cases hn : n = 0 <;> simp [hn]
    simp only [hw, Nat.succ_ne_zero, if_false, Nat.add_assoc, Nat.add_comm 1]

/-- The loop of `PRESENT` is the list of as many pixel transfers as pixels are left (R149). -/
theorem streamPixels_eq (n : Nat) :
    ∀ {s : State} (_ : s.phase ≠ .halted) (_ : s.pixctr = n), streamPixels n s = performAll (List.replicate n .xferpx) s := by
  induction n with
  | zero => intro s _ _; rfl
  | succ n ih =>
    intro s hp hc
    have hh : ¬ haltsOn .xferpx s := by simp [haltsOn]
    rw [streamPixels, if_pos (by omega), List.replicate_succ, performAll_cons]
    refine ih ?_ ?_
    · rw [(perform_attempts hp hh).2.2.2]; exact hp
    · rw [perform_going hp hh]
      show (callXferpx s).pixctr = n
      simp [callXferpx, hc]

/-! ## Kinds of events -/

@[simp] theorem Event.isOpen_opened (r : Resource) (o : CallResult) : Event.isOpen (.opened r o) = true := rfl
@[simp] theorem Event.isOpen_pin (l : Line) (v : Bool) (o : CallResult) : Event.isOpen (.pin l v o) = false := rfl
@[simp] theorem Event.isOpen_xfer (bytes : List Byte) (o : CallResult) : Event.isOpen (.xfer bytes o) = false := rfl
@[simp] theorem Event.isOpen_rel (r : Resource) : Event.isOpen (.rel r) = false := rfl
@[simp] theorem Event.isOpen_halt : Event.isOpen (.halt) = false := rfl

@[simp] theorem Event.isPin_opened (r : Resource) (o : CallResult) : Event.isPin (.opened r o) = false := rfl
@[simp] theorem Event.isPin_pin (l : Line) (v : Bool) (o : CallResult) : Event.isPin (.pin l v o) = true := rfl
@[simp] theorem Event.isPin_xfer (bytes : List Byte) (o : CallResult) : Event.isPin (.xfer bytes o) = false := rfl
@[simp] theorem Event.isPin_rel (r : Resource) : Event.isPin (.rel r) = false := rfl
@[simp] theorem Event.isPin_halt : Event.isPin (.halt) = false := rfl

@[simp] theorem Event.xferSize_opened (r : Resource) (o : CallResult) : Event.xferSize (.opened r o) = none := rfl
@[simp] theorem Event.xferSize_pin (l : Line) (v : Bool) (o : CallResult) : Event.xferSize (.pin l v o) = none := rfl
@[simp] theorem Event.xferSize_xfer (bytes : List Byte) (o : CallResult) : Event.xferSize (.xfer bytes o) = some bytes.length := rfl
@[simp] theorem Event.xferSize_rel (r : Resource) : Event.xferSize (.rel r) = none := rfl
@[simp] theorem Event.xferSize_halt : Event.xferSize (.halt) = none := rfl

/-! ## What the panel receives -/

/-- The levels at the end of the walk over a history (R34). -/
def walkPins : Pins → List Event → Pins
  | p, [] => p
  | p, .pin l v _ :: t => walkPins (p.set l v) t
  | p, .xfer _ _ :: t => walkPins p t
  | p, .opened _ _ :: t => walkPins p t
  | p, .rel _ :: t => walkPins p t
  | p, .halt :: t => walkPins p t

/-- The walk ignores what is no wire event (R34). -/
theorem rxFrom_wire (c : Cfg) (t : List Event) : ∀ p, rxFrom c p (wire t) = rxFrom c p t := by
  induction t with
  | nil => intro p; rfl
  | cons e t ih =>
    intro p
    have hi := fun q => ih q
    unfold wire at hi
    cases e <;> simp only [wire, List.filter_cons, isWireEvent, if_true, Bool.false_eq_true, if_false, rxFrom, hi]

/-- The walk over a history and what follows it (R35). -/
theorem rxFrom_append (c : Cfg) (t u : List Event) : ∀ p,
    rxFrom c p (t ++ u) = (rxFrom c p t).bind (fun a => (rxFrom c (walkPins p t) u).map (fun b => a ++ b)) := by
  induction t with
  | nil => intro p; simp [rxFrom, walkPins]
  | cons e t ih =>
    intro p
    cases e with
    | pin l v o => simp only [List.cons_append, rxFrom, walkPins, ih]; split <;> simp
    | xfer b o =>
      simp only [List.cons_append, rxFrom, walkPins, ih]
      split
      · split
        · cases rxFrom c p t <;> simp [Function.comp_def]
        · simp
      · simp
    | _ => simp only [List.cons_append, rxFrom, walkPins, ih]

theorem walkPins_append (t u : List Event) : ∀ p, walkPins p (t ++ u) = walkPins (walkPins p t) u := by
  induction t with
  | nil => intro p; rfl
  | cons e t ih => intro p; cases e <;> simp [walkPins, ih]

/-- One word is received as itself, from whatever levels (R125). -/
theorem rxFrom_word {c : Cfg} (h0 : c.dcCmd = false) (h1 : c.dcData = true) (w : W9) (p : Pins) :
    rxFrom c p (wordEvents c w) = some [w] := by
  have hw := w9Of_flag_byte w
  unfold wordEvents
  cases h : w9Flag w <;> rw [h] at hw <;>
    simp [rxFrom, Pins.set, Level.bit, rxWords, h0, h1, hw, show Level.ofBit true = .high from rfl,
      show Level.ofBit false = .low from rfl]

/-- A list of words is received as itself (R125). -/
theorem rxFrom_words {c : Cfg} (h0 : c.dcCmd = false) (h1 : c.dcData = true) (ws : List W9) :
    ∀ p, rxFrom c p (wordsEvents c ws) = some ws := by
  induction ws with
  | nil => intro p; rfl
  | cons w ws ih => intro p; rw [wordsEvents_cons, rxFrom_append, rxFrom_word h0 h1, ih]; rfl

/-- The pixels are received as their packed words (R156), with chip-select active and the data level on the line. -/
theorem rxFrom_pixels {c : Cfg} (m : Memory) {p : Pins} (h0 : p.cs = Level.ofBit c.csActive) (h1 : p.dc = .high) (n : Nat) :
    rxFrom c p (pixelEvents m n) = some (pixelWords m n) := by
  induction n with
  | zero => rfl
  | succ n ih => simp [pixelEvents, pixelWords, rxFrom, h0, h1, Level.bit, ih, wordBytes, rxWords]

end Sys2Proof.Machine
end

