-- ==== Sys2Proof/Laws/Frames.lean ====
section
/-! SUPPORT. What micro-operations leave alone and what calls a list of them attempts, whatever ENV answers; what the construct program
of `START` can do; the end of an operation. -/

namespace Sys2Proof.Machine

/-- `t` differs from `s` only in what micro-operations may change: not in the configuration, the framebuffer, the mark of a refusal,
the undriven lines, nor in what HOST waits for and was answered. -/
def kept (s t : State) : Prop :=
  t = { s with
    phase := t.phase, prog := t.prog, pc := t.pc, cs := t.cs, dc := t.dc, rst := t.rst, spiOpen := t.spiOpen
    csOpen := t.csOpen, dcOpen := t.dcOpen, rstOpen := t.rstOpen, fault := t.fault, trace := t.trace, env := t.env
    envCount := t.envCount, pixw := t.pixw, pixctr := t.pixctr }

theorem kept_refl (s : State) : kept s s := rfl

theorem kept_trans {s t u : State} (h : kept s t) (h2 : kept t u) : kept s u := by
  unfold kept at *; rw [h2, h]

theorem callOf_kept (m : MicroOp) (s : State) : kept s (callOf m s) := by
  unfold kept
  cases m with
  | relr r => cases r <;> simp [callOf, callRel, emit, setOpen, setLatch]
  | openr r =>
    simp only [callOf, callOpen]
    split <;> cases r <;> simp [emit, setOpen, raise, envNext, haltNow] <;> split <;> simp
  | pinw l v => simp only [callOf, callPinw]; split <;> cases l <;> simp [emit, setLatch, raise, envNext] <;> split <;> simp
  | xferb b => simp only [callOf, callXfer]; split <;> simp [emit, raise, envNext] <;> split <;> simp
  | xferpx => simp only [callOf, callXferpx, callXfer]; split <;> simp [emit, raise, envNext] <;> split <;> simp

theorem perform_kept (m : MicroOp) (s : State) : kept s (perform m s) := by
  by_cases hp : s.phase = .halted
  · rw [perform_halted hp]; rfl
  have h := callOf_kept m s
  by_cases hh : haltsOn m s
  · rw [perform_halting hp hh]; exact h
  · rw [perform_going hp hh]
    unfold kept at *
    rw [h]

/-- Micro-operations keep what they cannot write. -/
theorem performAll_kept (ms : List MicroOp) (s : State) : kept s (performAll ms s) :=
  performAll_keeps (P := fun t => kept s t) (fun m _ h => kept_trans h (perform_kept m _)) ms s rfl

/-- Failures only enter the set (R28). -/
theorem performAll_fault (ms : List MicroOp) (s : State) : s.fault ⊆ (performAll ms s).fault := by
  refine performAll_keeps (P := fun t => s.fault ⊆ t.fault) ?_ ms s (fun _ h => h)
  intro m t ht
  rcases perform_fault m t with h | ⟨f, h⟩ <;> rw [h]
  · exact ht
  · exact fun x hx => (addFailure_grows f _).1 (ht hx)

/-- A list without an open of chip-select and without pixels attempts its calls in order, whatever ENV answers (R23). -/
theorem performAll_attempts (t : State) {ms : List MicroOp} (hm : MicroOp.openr .cs ∉ ms) (hx : MicroOp.xferpx ∉ ms) :
    ∀ {s : State}, s.phase ≠ .halted →
      attempts (performAll ms s).trace = attempts s.trace ++ ms.map (fun m => opAttempt m t) := by
  induction ms with
  | nil => intro s _; simp
  | cons m ms ih =>
    intro s hp
    have hh : ¬ haltsOn m s := by
      rintro ⟨rfl, -⟩
      exact hm (by simp)
    obtain ⟨h1, -, -, h4⟩ := perform_attempts hp hh
    have h := ih (fun h => hm (List.mem_cons_of_mem _ h)) (fun h => hx (List.mem_cons_of_mem _ h)) (s := perform m s)
      (by rw [h4]; exact hp)
    have e : opAttempt m s = opAttempt m t := by
      cases m <;> simp_all [opAttempt]
    rw [performAll_cons, h, h1, e]
    simp

/-- The micro-operations of sequencer words open nothing and send no pixel. -/
theorem execWords_plain (c : Cfg) (ws : List W9) : MicroOp.openr .cs ∉ execWords c ws ∧ MicroOp.xferpx ∉ execWords c ws := by
  induction ws with
  | nil => simp
  | cons w ws ih =>
    have : MicroOp.openr .cs ∉ execW9 c w ∧ MicroOp.xferpx ∉ execW9 c w := by
      unfold execW9; split <;> simp [sendcProg, senddProg]
    simp [execWords_cons, ih, this]

theorem execWords_length (c : Cfg) (ws : List W9) : (execWords c ws).length = 4 * ws.length := by
  induction ws with
  | nil => rfl
  | cons w ws ih => simp only [execWords_cons, List.length_append, execW9_length, ih, List.length_cons]; omega

/-- The calls of a list of words are those of its events. -/
theorem attempts_words (c : Cfg) (t : State) (ws : List W9) :
    attempts (wordsEvents c ws) = (execWords c ws).map (fun m => opAttempt m t) := by
  induction ws with
  | nil => rfl
  | cons w ws ih =>
    have h : attempts (wordEvents c w) = (execW9 c w).map (fun m => opAttempt m t) := by
      unfold wordEvents execW9; split <;> rfl
    have e : attempts (wordEvents c w ++ wordsEvents c ws) = attempts (wordEvents c w) ++ attempts (wordsEvents c ws) := by
      simp [attempts]
    rw [wordsEvents_cons, execWords_cons, e, h, ih, List.map_append]

/-! ## Start-up -/

/-- The four opens and two pin writes, all calls successful (R130). -/
theorem performAll_construct_ok {s : State} (rest : List Answer) (hp : s.phase ≠ .halted)
    (he : s.env = List.replicate 6 .ok ++ rest) :
    performAll (constructProg s.cfg) s = { s with
      spiOpen := true, csOpen := true, dcOpen := true, rstOpen := true
      cs := Level.ofBit s.cfg.csIdle, dc := Level.ofBit s.cfg.dcIdle, pc := s.pc + 6, env := rest
      trace := s.trace ++ [.opened .spi .ok, .opened .cs .ok, .opened .dc .ok, .opened .rst .ok, .pin .cs s.cfg.csIdle .ok,
        .pin .dc s.cfg.dcIdle .ok] } := by
  have he' : s.env = .ok :: .ok :: .ok :: .ok :: .ok :: .ok :: rest := he
  unfold constructProg
  rw [performAll_cons, perform_openr_ok hp he']; simp only [setOpen]
  rw [performAll_cons, perform_openr_ok (by exact hp) rfl]; simp only [setOpen]
  rw [performAll_cons, perform_openr_ok (by exact hp) rfl]; simp only [setOpen]
  rw [performAll_cons, perform_openr_ok (by exact hp) rfl]; simp only [setOpen]
  rw [performAll_cons, perform_pinw_ok (by exact hp) rfl rfl]; simp only [setLatch]
  rw [performAll_cons, perform_pinw_ok (by exact hp) rfl rfl]; simp only [setLatch]
  simp

/-- The reset pulse, all calls successful (R134). -/
theorem performAll_reset_ok {s : State} (rest : List Answer) (hp : s.phase ≠ .halted) (ho : s.rstOpen = true)
    (he : s.env = List.replicate 3 .ok ++ rest) :
    performAll resetProg s = { s with
      rst := .high, pc := s.pc + 3, env := rest
      trace := s.trace ++ [.pin .rst true .ok, .pin .rst false .ok, .pin .rst true .ok] } := by
  have he' : s.env = .ok :: .ok :: .ok :: rest := he
  unfold resetProg
  rw [performAll_cons, perform_pinw_ok hp (by exact ho) he']; simp only [setLatch]
  rw [performAll_cons, perform_pinw_ok (by exact hp) (by exact ho) rfl]; simp only [setLatch]
  rw [performAll_cons, perform_pinw_ok (by exact hp) (by exact ho) rfl]; simp only [setLatch]
  simp [Level.ofBit]

/-- The first call of the construct program: it never halts, and ENV's next answer is the second one. -/
theorem perform_openSpi {s : State} (hp : s.phase ≠ .halted) :
    envAnswer (perform (.openr .spi) s) = envAnswer (envNext s) ∧
      ∃ o, (perform (.openr .spi) s).trace = s.trace ++ [.opened .spi o] := by
  have hh : ¬ haltsOn (.openr .spi) s := by simp [haltsOn]
  rw [perform_going hp hh]
  simp only [callOf, callOpen]
  constructor
  · split <;> simp [envAnswer, setOpen, emit, raise, envNext]
  · refine ⟨callResult true .openFailure (envAnswer s), ?_⟩
    split <;> simp

/-- Opening chip-select fails: the block halts with its three events (R173). -/
theorem perform_openCs_fails {s : State} (hp : s.phase ≠ .halted) (ha : envAnswer s ≠ .ok) :
    (perform (.openr .cs) s).phase = .halted ∧ (perform (.openr .cs) s).prog = [] ∧ (perform (.openr .cs) s).fault ≠ [] ∧
      ∃ k, (perform (.openr .cs) s).trace = s.trace ++ [.opened .cs (.fail k), .halt] := by
  rw [perform_halting hp ⟨rfl, ha⟩]
  simp only [callOf, callOpen]
  have hne : ∀ f, addFailure f s.fault ≠ [] := fun f h => by
    have := (addFailure_grows f s.fault).2
    rw [h] at this
    simp at this
  cases h : envAnswer s
  · exact absurd h ha
  · simp [callResult, raise, haltNow, hne, emit]
  · simp [callResult, raise, haltNow, hne, emit]

/-- What the construct program can do (R130, R131, R173): all six calls are attempted when ENV's second answer is "ok"; otherwise the
block halts after two. -/
theorem performAll_construct {s : State} (hp : s.phase ≠ .halted) :
    (envAnswer (envNext s) = .ok →
      (performAll (constructProg s.cfg) s).phase = s.phase ∧ (performAll (constructProg s.cfg) s).prog = s.prog ∧
      (performAll (constructProg s.cfg) s).pc = s.pc + 6 ∧
      attempts (performAll (constructProg s.cfg) s).trace = attempts s.trace ++
        [.opened .spi, .opened .cs, .opened .dc, .opened .rst, .pin .cs s.cfg.csIdle, .pin .dc s.cfg.dcIdle]) ∧
    (envAnswer (envNext s) ≠ .ok →
      performAll (constructProg s.cfg) s = perform (.openr .cs) (perform (.openr .spi) s) ∧
      (performAll (constructProg s.cfg) s).phase = .halted ∧ (performAll (constructProg s.cfg) s).prog = [] ∧
      (performAll (constructProg s.cfg) s).fault ≠ [] ∧
      ∃ o k, (performAll (constructProg s.cfg) s).trace = s.trace ++ [.opened .spi o, .opened .cs (.fail k), .halt]) := by
  obtain ⟨he, o, ht⟩ := perform_openSpi hp
  have hh1 : ¬ haltsOn (.openr .spi) s := by simp [haltsOn]
  obtain ⟨q1, q2, q3, q4⟩ := perform_attempts hp hh1
  have hall : performAll (constructProg s.cfg) s = performAll [.openr .dc, .openr .rst, .pinw .cs s.cfg.csIdle,
    .pinw .dc s.cfg.dcIdle] (perform (.openr .cs) (perform (.openr .spi) s)) := by
    rw [constructProg, performAll_cons, performAll_cons]
  rw [hall]
  generalize perform (.openr .spi) s = b at *
  have hp1 : b.phase ≠ .halted := by rw [q4]; exact hp
  rw [← he]
  constructor
  · intro ha
    have hh2 : ¬ haltsOn (.openr .cs) b := by simp [haltsOn, ha]
    obtain ⟨r1, r2, r3, r4⟩ := perform_attempts hp1 hh2
    generalize perform (.openr .cs) b = u at *
    have hp2 : u.phase ≠ .halted := by rw [r4]; exact hp1
    obtain ⟨g1, g2, g3⟩ := performAll_going
      (ms := [.openr .dc, .openr .rst, .pinw .cs s.cfg.csIdle, .pinw .dc s.cfg.dcIdle]) (by simp) hp2
    refine ⟨by rw [g1, r4, q4], by rw [g2, r3, q3], by rw [g3, r2, q2]; simp, ?_⟩
    rw [performAll_attempts s (by simp) (by simp) hp2, r1, q1]
    simp [opAttempt]
  · intro ha
    obtain ⟨f1, f2, f3, k, f4⟩ := perform_openCs_fails hp1 ha
    rw [performAll_halted f1]
    exact ⟨rfl, f1, f2, f3, o, k, by rw [f4, ht]; simp⟩

/-! ## The end of an operation -/

/-- A lone word between operations leaves the phase, and the position as it was. -/
theorem settle_between {s t : State} (h : betweenOps s) (hp : s.phase ≠ .halted) (h1 : t.phase = s.phase)
    (h2 : t.prog = s.prog) : settle t = { t with prog := [], pc := 0 } := by
  obtain ⟨a, b, -⟩ := h
  have : t.prog = [] := by rw [h2, a]
  rcases b with b | b | b | b
  all_goals simp_all [settle, finish]

theorem settle_keeps (s : State) :
    (settle s).trace = s.trace ∧ (settle s).fault = s.fault ∧ (s.phase ≠ .halted → (settle s).phase ≠ .halted) := by
  refine ⟨by simp, by simp, ?_⟩
  intro h
  unfold settle
  rw [if_neg h]
  split
  · unfold finish; split <;> simp_all
  · split <;> simp [h]

end Sys2Proof.Machine
end

