-- ==== Sys2Proof/Laws/Memory.lean ====
section
/-! SUPPORT. The pixel memory: reading after writing, and that writing keeps the canonical form. -/

namespace Sys2Proof.Machine

theorem Memory.wf_nil : Memory.wf [] := ⟨List.Pairwise.nil, by simp⟩

/-- The canonical form of a list taken apart. -/
theorem Memory.wf_cons {p : Nat × Color} {m : Memory} :
    Memory.wf (p :: m) ↔ (∀ q ∈ m, p.1 < q.1) ∧ p.2 ≠ Memory.unlisted ∧ Memory.wf m := by
  simp only [Memory.wf, List.map_cons, List.pairwise_cons, List.mem_map, forall_exists_index, and_imp,
    List.mem_cons, forall_eq_or_imp]
  constructor
  · rintro ⟨⟨h1, h2⟩, h3, h4⟩
    exact ⟨fun q hq => h1 _ q hq rfl, h3, h2, h4⟩
  · rintro ⟨h1, h3, h2, h4⟩
    exact ⟨⟨fun _ q hq e => e ▸ h1 q hq, h2⟩, h3, h4⟩

/-- An address below every listed one is unlisted. -/
theorem Memory.read_of_lt {m : Memory} {a : Nat} (h : ∀ p ∈ m, a < p.1) : m.read a = Memory.unlisted := by
  cases m with
  | nil => rfl
  | cons p m =>
    have := h p (by simp)
    simp [Memory.read, this, Nat.ne_of_gt this]

theorem Memory.mem_write {m : Memory} {a : Nat} {c : Color} {p : Nat × Color} (h : p ∈ m.write a c) :
    p ∈ m ∨ p = (a, c) ∧ c ≠ Memory.unlisted := by
  induction m with
  | nil =>
    simp only [Memory.write] at h
    split at h
    · simp at h
    · simp_all
  | cons q m ih =>
    simp only [Memory.write] at h
    split at h
    · split at h
      · simp_all
      · rcases List.mem_cons.1 h with h | h <;> simp_all
    · split at h
      · split at h
        · exact Or.inl h
        · rcases List.mem_cons.1 h with h | h <;> simp_all
      · rcases List.mem_cons.1 h with h | h
        · simp [h]
        · rcases ih h with h | h <;> simp_all

/-- Writing keeps the canonical form. -/
theorem Memory.write_wf {m : Memory} (h : m.wf) (a : Nat) (c : Color) : (m.write a c).wf := by
  induction m with
  | nil =>
    by_cases hc : c = Memory.unlisted
    · simpa [Memory.write, hc] using Memory.wf_nil
    · simpa [Memory.write, hc] using Memory.wf_cons.2 ⟨by simp, hc, Memory.wf_nil⟩
  | cons p m ih =>
    obtain ⟨h1, h2, h3⟩ := Memory.wf_cons.1 h
    simp only [Memory.write]
    split
    · rename_i hpa
      split
      · exact h3
      · exact Memory.wf_cons.2 ⟨fun q hq => hpa ▸ h1 q hq, by assumption, h3⟩
    · split
      · split
        · exact h
        · refine Memory.wf_cons.2 ⟨fun q hq => ?_, by assumption, h⟩
          rcases List.mem_cons.1 hq with rfl | hq
          · assumption
          · exact lt_trans (by assumption) (h1 q hq)
      · refine Memory.wf_cons.2 ⟨fun q hq => ?_, h2, ih h3⟩
        rcases Memory.mem_write hq with hq | ⟨rfl, -⟩
        · exact h1 q hq
        · show p.1 < a; omega

theorem Memory.memWrite_wf (cs : List Color) : ∀ {m : Memory} (_ : m.wf) (a : Nat), (memWrite m a cs).wf := by
  induction cs with
  | nil => intro m h a; exact h
  | cons c cs ih => intro m h a; exact ih (Memory.write_wf h a c) (a + 1)

/-- A write is read back. -/
theorem Memory.read_write_same {m : Memory} (h : m.wf) (a : Nat) (c : Color) : (m.write a c).read a = c := by
  induction m with
  | nil => by_cases hc : c = Memory.unlisted <;> simp [Memory.write, Memory.read, hc]
  | cons p m ih =>
    obtain ⟨h1, -, h3⟩ := Memory.wf_cons.1 h
    simp only [Memory.write]
    split
    · split
      · subst_vars; exact Memory.read_of_lt h1
      · simp [Memory.read]
    · split
      · split
        · subst_vars; simp [Memory.read, *]
        · simp [Memory.read]
      · simp [Memory.read, ih h3, *]

/-- A write leaves every other cell alone. -/
theorem Memory.read_write_other {m : Memory} (h : m.wf) {a b : Nat} (c : Color) (hab : b ≠ a) :
    (m.write a c).read b = m.read b := by
  induction m with
  | nil => by_cases hc : c = Memory.unlisted <;> simp [Memory.write, Memory.read, hc, Ne.symm hab]
  | cons p m ih =>
    obtain ⟨h1, -, h3⟩ := Memory.wf_cons.1 h
    simp only [Memory.write]
    split
    · rename_i hpa
      split
      · by_cases hb : b < p.1
        · rw [Memory.read_of_lt (fun q hq => lt_trans hb (h1 q hq))]
          simp [Memory.read, hb, Nat.ne_of_gt hb]
        · simp [Memory.read, hpa, Ne.symm hab]; omega
      · simp [Memory.read, hpa, Ne.symm hab]
    · split
      · split
        · rfl
        · by_cases hb : b < a
          · have : b < p.1 := by omega
            simp [Memory.read, hb, this, Nat.ne_of_gt this, Ne.symm hab]
          · simp [Memory.read, hb, Ne.symm hab]
      · simp [Memory.read, ih h3]

@[simp] theorem memRead_one (m : Memory) (a : Nat) : memRead m a 1 = [m.read a] := by simp [memRead]

@[simp] theorem memWrite_one (m : Memory) (a : Nat) (c : Color) : memWrite m a [c] = m.write a c := rfl

/-- The address of a cell in bounds lies in the grid (R48). -/
theorem cellAddr_lt {c : Cfg} {x y : Int} (h : inBounds c x y = true) : cellAddr c x y < fbSize c := by
  simp only [inBounds, decide_eq_true_eq] at h
  obtain ⟨hx, hx', hy, hy'⟩ := h
  unfold cellAddr fbSize
  have h1 : x.toNat < c.fbW := by omega
  have h2 : y.toNat + 1 ≤ c.fbH := by omega
  calc y.toNat * c.fbW + x.toNat < y.toNat * c.fbW + c.fbW := by omega
    _ = (y.toNat + 1) * c.fbW := by ring
    _ ≤ c.fbH * c.fbW := Nat.mul_le_mul_right _ h2
    _ = c.fbW * c.fbH := Nat.mul_comm _ _

end Sys2Proof.Machine
end

