-- ==== Sys2Proof/Laws/Steps.lean ====
section
/-! SUPPORT. Inversion: everything an instruction can do, everything a step can do, and runs of several steps. -/

namespace Sys2Proof.Machine

/-- Everything an instruction can do: refuse, answer, write one cell in bounds, run a host operation, or send a sequencer word. -/
theorem exec_cases {i : Instr} {s t : State} (h : exec i s = .next t) :
    (∃ why, t = refuse why s) ∨ (∃ r, t = { s with reply := r }) ∨
    (∃ x y c, inBounds s.cfg x y = true ∧ (s.phase = .off ∨ s.phase = .ready ∨ s.phase = .closed) ∧
      t = { s with fb := s.fb.write (cellAddr s.cfg x y) c, reply := .done }) ∨
    (i = .start ∧ s.phase = .off ∧ t = startRun s) ∨
    (i = .present ∧ s.phase = .ready ∧ s.cfg.fbW = s.cfg.panelW ∧ s.cfg.fbH = s.cfg.panelH ∧ t = presentRun s) ∨
    (i = .close ∧ s.phase = .ready ∧ t = closeRun s) ∨
    (∃ w, encode i = .w9 w ∧ t = settle (performAll (execW9 s.cfg w) s)) := by
  have word : ∀ w, exec i s = wordOp (execW9 s.cfg w) s → encode i = .w9 w →
      ∃ w, encode i = .w9 w ∧ t = settle (performAll (execW9 s.cfg w) s) := by
    intro w hw he
    rw [h, wordOp] at hw
    injection hw with hw
    exact ⟨w, he, hw⟩
  have pix : ∀ x y, pixelCheck x y s = none →
      inBounds s.cfg x y = true ∧ (s.phase = .off ∨ s.phase = .ready ∨ s.phase = .closed) := by
    intro x y hc
    unfold pixelCheck at hc
    cases hp : s.phase <;> simp [hp] at hc <;> simp [hc]
  cases i with
  | to565 c =>
    simp only [exec, execTo565, hostOp] at h
    injection h with h
    cases hc : to565Check s <;> rw [hc] at h
    · exact .inr (.inl ⟨_, h.symm⟩)
    · exact .inl ⟨_, h.symm⟩
  | getpixel x y =>
    simp only [exec, execGetpixel, hostOp] at h
    injection h with h
    cases hc : pixelCheck x y s <;> rw [hc] at h
    · exact .inr (.inl ⟨_, h.symm⟩)
    · exact .inl ⟨_, h.symm⟩
  | setpixelOver x y c =>
    simp only [exec, execSetpixelOver, hostOp] at h
    injection h with h
    cases hc : pixelCheck x y s <;> rw [hc] at h
    · exact .inr (.inr (.inl ⟨x, y, c, (pix x y hc).1, (pix x y hc).2, h.symm⟩))
    · exact .inl ⟨_, h.symm⟩
  | setpixelBlend x y c =>
    simp only [exec, execSetpixelBlend, hostOp] at h
    injection h with h
    cases hc : pixelCheck x y s <;> rw [hc] at h
    · exact .inr (.inr (.inl ⟨x, y, _, (pix x y hc).1, (pix x y hc).2, h.symm⟩))
    · exact .inl ⟨_, h.symm⟩
  | start =>
    simp only [exec, execStart, hostOp, startCheck] at h
    injection h with h
    by_cases hp : s.phase = .off
    · rw [if_pos hp] at h
      exact .inr (.inr (.inr (.inl ⟨rfl, hp, h.symm⟩)))
    · rw [if_neg hp] at h
      exact .inl ⟨_, h.symm⟩
  | present =>
    simp only [exec, execPresent, hostOp, presentCheck] at h
    injection h with h
    by_cases hp : s.phase = .ready
    · rw [if_neg (by simp [hp])] at h
      by_cases hd : s.cfg.fbW ≠ s.cfg.panelW ∨ s.cfg.fbH ≠ s.cfg.panelH
      · rw [if_pos hd] at h
        exact .inl ⟨_, h.symm⟩
      · rw [if_neg hd] at h
        simp only [not_or, not_not] at hd
        exact .inr (.inr (.inr (.inr (.inl ⟨rfl, hp, hd.1, hd.2, h.symm⟩))))
    · rw [if_pos hp] at h
      exact .inl ⟨_, h.symm⟩
  | close =>
    simp only [exec, execClose, hostOp, closeCheck] at h
    injection h with h
    by_cases hp : s.phase = .ready
    · rw [if_pos hp] at h
      exact .inr (.inr (.inr (.inr (.inr (.inl ⟨rfl, hp, h.symm⟩)))))
    · rw [if_neg hp] at h
      exact .inl ⟨_, h.symm⟩
  | _ => exact .inr (.inr (.inr (.inr (.inr (.inr (word _ (exec_word rfl s) rfl))))))

/-- Everything a step can do (R21): perform the next micro-operation, do nothing, refuse a host operation that is no instruction,
execute the decoded one, or run a lone sequencer word that a test has placed. -/
theorem step_cases {s t : State} (h : step s = .next t) :
    (∃ m, running s = true ∧ s.prog[s.pc]? = some m ∧ (m = .xferpx → 0 < s.pixctr ∧ s.pixctr ≤ fbSize s.cfg) ∧
      t = settle (perform m s)) ∨
    (running s = false ∧ s.input = [] ∧ t = s) ∨
    (∃ w rest e, running s = false ∧ s.input = w :: rest ∧ decode w.fetched = .error e ∧
      t = refuse .noSuchOperation { s with input := rest }) ∨
    (∃ w rest i, running s = false ∧ s.input = w :: rest ∧ decode w.fetched = .ok i ∧ exec i { s with input := rest } = .next t) ∨
    (∃ w, running s = false ∧ s.testPort = .placed w ∧ exec (decodeW9 w) { s with testPort := .used } = .next t) := by
  unfold step at h
  cases hr : running s with
  | true =>
    rw [if_pos hr, seqOutcome] at h
    have hn : nextOp s = s.prog[s.pc]? := by simp only [nextOp, hr, if_true]
    have hl : s.pc < s.prog.length := by
      simp only [running, decide_eq_true_eq] at hr; exact hr.2
    obtain ⟨m, hm⟩ : ∃ m, s.prog[s.pc]? = some m := ⟨_, List.getElem?_eq_getElem hl⟩
    rw [hm] at hn
    split at h
    · cases h
    · rename_i hx
      injection h with h
      refine .inl ⟨m, rfl, hm, ?_, ?_⟩
      · rintro rfl
        by_contra hc
        exact hx ⟨hn, decide_eq_false hc⟩
      · rw [← h, seqStep, hn]
  | false =>
    rw [if_neg (by simp [hr])] at h
    split at h
    · rename_i w hw
      exact .inr (.inr (.inr (.inr ⟨w, rfl, hw, h⟩)))
    · cases hi : s.input with
      | nil =>
        rw [hi] at h
        injection h with h
        exact .inr (.inl ⟨rfl, rfl, h.symm⟩)
      | cons w rest =>
        rw [hi] at h
        simp only at h
        cases hd : decode w.fetched with
        | error e =>
          rw [hd] at h
          injection h with h
          exact .inr (.inr (.inl ⟨w, rest, e, rfl, rfl, hd, h.symm⟩))
        | ok i =>
          rw [hd] at h
          exact .inr (.inr (.inr (.inl ⟨w, rest, i, rfl, rfl, hd, h⟩)))

/-- No meaning stops: every instruction has a next state. -/
theorem exec_next (i : Instr) (s : State) : ∃ t, exec i s = .next t := by
  cases i <;> exact ⟨_, rfl⟩

/-- With no micro-program running the machine never stops. -/
theorem step_next {s : State} (h : running s = false) : ∃ t, step s = .next t := by
  unfold step
  rw [if_neg (by simp [h])]
  split
  · exact exec_next _ _
  · split
    · exact ⟨_, rfl⟩
    · split
      · exact exec_next _ _
      · exact ⟨_, rfl⟩

/-! ## Runs -/

theorem run_succ {s u : State} (n : Nat) (h : step s = .next u) :
    Host.Core.run Sys2Proof.core (n + 1) s = Host.Core.run Sys2Proof.core n u := by
  have h' : Sys2Proof.core.step s = .next u := h
  simp only [Host.Core.run, h']

theorem run_add (a b : Nat) (s : State) :
    Host.Core.run Sys2Proof.core (a + b) s =
      match Host.Core.run Sys2Proof.core a s with
      | .next t => Host.Core.run Sys2Proof.core b t
      | .fault r => .fault r
      | .refused r => .refused r := by
  induction a generalizing s with
  | zero => simp [Host.Core.run]
  | succ a ih =>
    rw [show a + 1 + b = (a + b) + 1 by omega]
    simp only [Host.Core.run]
    cases Sys2Proof.core.step s with
    | next t => exact ih t
    | _ => rfl

theorem seqStep_of {s : State} {m : MicroOp} (hp : s.phase ≠ .halted) (hm : s.prog[s.pc]? = some m) :
    seqStep s = settle (perform m s) := by
  have hl : s.pc < s.prog.length := by
    by_contra hc
    rw [List.getElem?_eq_none (by omega)] at hm; cases hm
  have hr : running s = true := by simp [running, hp, hl]
  simp only [seqStep, nextOp, hr, if_true, hm]

/-- The small step performs the next micro-operation (R21). -/
theorem step_of {s : State} {m : MicroOp} (hp : s.phase ≠ .halted) (hm : s.prog[s.pc]? = some m)
    (hx : m = .xferpx → 0 < s.pixctr ∧ s.pixctr ≤ fbSize s.cfg) : step s = .next (settle (perform m s)) := by
  have hl : s.pc < s.prog.length := by
    by_contra hc
    rw [List.getElem?_eq_none (by omega)] at hm; cases hm
  have hr : running s = true := by simp [running, hp, hl]
  have hn : nextOp s = some m := by simp only [nextOp, hr, if_true, hm]
  unfold step
  rw [if_pos hr, seqOutcome, if_neg, seqStep_of hp hm]
  rintro ⟨h1, h2⟩
  rw [hn] at h1
  have := hx (by simpa using h1)
  simp [pixelCellExists, this] at h2

theorem perform_pixctr (m : MicroOp) (s : State) (hp : s.phase ≠ .halted) :
    (perform m s).pixctr = if m = .xferpx then s.pixctr - 1 else s.pixctr := by
  have key : (callOf m s).pixctr = if m = .xferpx then s.pixctr - 1 else s.pixctr := by
    cases m <;> simp [callOf, callXferpx]
  by_cases hh : haltsOn m s
  · rw [perform_halting hp hh, key]
  · rw [perform_going hp hh]; exact key

theorem startProg_length (c : Cfg) : (startProg c).length = 9 + 4 * c.initWords.length := by
  simp [startProg, initProg, execWords_length, constructProg, resetProg]; omega

theorem presentProg_length (c : Cfg) : (presentProg c).length = 47 + c.nPix := by
  have h : (streamSetupProg c).length = 2 := by unfold streamSetupProg; split <;> rfl
  have h2 : (windowWords c).length = 11 := rfl
  simp only [presentProg, List.length_append, execWords_length, h, h2, List.length_replicate, List.length_singleton]; omega

/-- The micro-operation at a place of the init table (R135). -/
theorem execWords_getElem {c : Cfg} {ws : List W9} {i : Nat} {w : W9} (h : ws[i]? = some w) (j : Nat) (hj : j < 4) :
    (execWords c ws)[4 * i + j]? = (execW9 c w)[j]? := by
  induction ws generalizing i with
  | nil => simp at h
  | cons v vs ih =>
    rw [execWords_cons]
    cases i with
    | zero =>
      simp at h; subst h
      rw [List.getElem?_append_left (by rw [execW9_length]; omega)]; simp
    | succ i =>
      rw [List.getElem?_append_right (by rw [execW9_length]; omega), execW9_length, ← ih (by simpa using h)]
      congr 1; omega

/-- The small steps perform the rest of a micro-program and finish the operation (R20, R21, R26). -/
theorem run_rest (ms : List MicroOp) (hne : ms ≠ []) (hno : MicroOp.openr .cs ∉ ms) : ∀ s : State,
    (s.phase = .init ∨ s.phase = .presenting ∨ s.phase = .closing) → s.prog.drop s.pc = ms →
    ms.count .xferpx ≤ s.pixctr → (MicroOp.xferpx ∈ ms → s.pixctr ≤ fbSize s.cfg) →
    Host.Core.run Sys2Proof.core ms.length s = .next (finish (performAll ms s)) := by
  induction ms with
  | nil => exact absurd rfl hne
  | cons m ms ih =>
    intro s hp hd hc hb
    have hpn : s.phase ≠ .halted := by rcases hp with h | h | h <;> rw [h] <;> simp
    have hm : s.prog[s.pc]? = some m := by
      have := List.getElem?_drop (xs := s.prog) (i := s.pc) (j := 0)
      rw [hd] at this; simpa using this.symm
    have hl : s.pc < s.prog.length := by
      by_contra hc
      rw [List.getElem?_eq_none (by omega)] at hm; cases hm
    have hlen : s.prog.length = s.pc + ms.length + 1 := by
      have := congrArg List.length hd
      simp at this; omega
    have hh : ¬ haltsOn m s := by rintro ⟨rfl, -⟩; simp at hno
    obtain ⟨-, h2, h3, h4⟩ := perform_attempts hpn hh
    have hk := perform_kept m s
    have hcfg : (perform m s).cfg = s.cfg := by rw [hk]
    have hst : step s = .next (settle (perform m s)) := by
      refine step_of hpn hm ?_
      rintro rfl
      exact ⟨by simp at hc; omega, hb (by simp)⟩
    have hrun : Host.Core.run Sys2Proof.core (ms.length + 1) s = Host.Core.run Sys2Proof.core ms.length (settle (perform m s)) := run_succ _ hst
    rw [List.length_cons, hrun, performAll_cons]
    by_cases he : ms = []
    · subst he
      have : settle (perform m s) = finish (perform m s) := by
        unfold settle
        rw [if_neg (by rw [h4]; exact hpn), if_pos (by rw [h3, h2, hlen]; simp)]
      rw [this]; rfl
    · have hpos : 0 < ms.length := List.length_pos_iff.2 he
      have hs : settle (perform m s) = perform m s := by
        unfold settle
        rw [if_neg (by rw [h4]; exact hpn), if_neg (by rw [h3, h2, hlen]; omega), if_neg]
        rintro ⟨h, -⟩
        rw [h4] at h; rcases hp with hp | hp | hp <;> rw [hp] at h <;> cases h
      rw [hs]
      refine ih he (fun h => hno (by simp [h])) _ ?_ ?_ ?_ ?_
      · rw [h4]; exact hp
      · rw [h3, h2]
        have := congrArg (List.drop 1) hd
        rw [List.drop_drop] at this; simpa using this
      · rw [perform_pixctr m s hpn]
        split
        · subst_vars; simp at hc; omega
        · rename_i hx; rw [List.count_cons_of_ne hx] at hc; exact hc
      · intro h
        rw [perform_pixctr m s hpn, hcfg]
        have := hb (by simp [h])
        split <;> omega

end Sys2Proof.Machine
end

