-- ==== Sys2Proof/Laws/Invariants.lean ====
section
/-! SUPPORT. One induction for every invariant: what a single micro-operation, a write of one cell and the bookkeeping of an operation
keep, every step keeps. -/

namespace Sys2Proof.Machine

/-- The loop of `PRESENT` keeps what every micro-operation keeps. -/
theorem streamPixels_keeps {P : State → Prop} (h : ∀ m s, P s → P (perform m s)) (n : Nat) : ∀ s, P s → P (streamPixels n s) := by
  induction n with
  | zero => intro s hs; exact hs
  | succ n ih =>
    intro s hs
    unfold streamPixels
    split
    · exact ih _ (h _ _ hs)
    · exact hs

/-- Micro-operations that send no pixel leave the pixel counter alone. -/
theorem performAll_pixctr {ms : List MicroOp} (hx : MicroOp.xferpx ∉ ms) (hn : MicroOp.openr .cs ∉ ms) :
    ∀ {s : State}, s.phase ≠ .halted → (performAll ms s).pixctr = s.pixctr := by
  induction ms with
  | nil => intros; rfl
  | cons m ms ih =>
    intro s hp
    have hh : ¬ haltsOn m s := by rintro ⟨rfl, -⟩; simp at hn
    have h4 := (perform_attempts hp hh).2.2.2
    rw [performAll_cons, ih (fun h => hx (by simp [h])) (fun h => hn (by simp [h])) (by rw [h4]; exact hp),
      perform_pixctr m s hp, if_neg (fun h => hx (by simp [h]))]

theorem streamSetupProg_plain (c : Cfg) : MicroOp.openr .cs ∉ streamSetupProg c ∧ MicroOp.xferpx ∉ streamSetupProg c := by
  unfold streamSetupProg; split <;> simp

theorem presentProg_noOpen (c : Cfg) : MicroOp.openr .cs ∉ presentProg c := by
  simp [presentProg, execWords_plain, streamSetupProg_plain]

/-- The loop form of `PRESENT` performs its micro-program (R146, R149). -/
theorem presentRun_eq (s : State) : presentRun s =
    { performAll (presentProg s.cfg) (beginPresent s) with phase := .ready, prog := [], pc := 0, reply := .done } := by
  simp only [presentRun, presentProg, performAll_append, performAll_cons, performAll_nil]
  have n1 := execWords_plain s.cfg (windowWords s.cfg)
  have n2 := streamSetupProg_plain s.cfg
  have g1 := performAll_going n1.1 (s := beginPresent s) (by simp [beginPresent])
  have q1 := performAll_pixctr n1.2 n1.1 (s := beginPresent s) (by simp [beginPresent])
  generalize performAll (execWords s.cfg (windowWords s.cfg)) (beginPresent s) = a at *
  have ha : a.phase ≠ .halted := by rw [g1.1]; simp [beginPresent]
  have g2 := performAll_going n2.1 ha
  have q2 := performAll_pixctr n2.2 n2.1 ha
  generalize performAll (streamSetupProg s.cfg) a = b at *
  have hb : b.phase ≠ .halted := by rw [g2.1]; exact ha
  have hbc : b.pixctr = s.cfg.nPix := by rw [q2, q1]; rfl
  rw [streamPixels_eq b.pixctr hb rfl, hbc]

/-- What every micro-operation keeps, and what does not depend on the bookkeeping fields. -/
structure Keeps (P : State → Prop) : Prop where
  perform : ∀ m s, P s → P (perform m s)
  bookkeeping : ∀ s ph pr pc r i tp rf px, P s →
    P { s with phase := ph, prog := pr, pc := pc, reply := r, input := i, testPort := tp, refused := rf, pixctr := px }

/-- The two states differ in bookkeeping fields only. -/
def sameBut (s t : State) : Prop :=
  t = { s with
    phase := t.phase, prog := t.prog, pc := t.pc, reply := t.reply, input := t.input, testPort := t.testPort
    refused := t.refused, pixctr := t.pixctr }

theorem Keeps.of_sameBut {P : State → Prop} (k : Keeps P) {s t : State} (hs : P s) (h : sameBut s t) : P t := by
  rw [h]; exact k.bookkeeping s _ _ _ _ _ _ _ _ hs

theorem sameBut_settle (s : State) : sameBut s (settle s) := by
  unfold settle sameBut
  split
  · rfl
  · split
    · unfold finish; split <;> rfl
    · split <;> rfl

theorem sameBut_finishReady (u : State) : sameBut u { u with phase := .ready, prog := [], pc := 0, reply := .done } := rfl

/-- What the big-step meanings keep. -/
theorem Keeps.startRun {P : State → Prop} (k : Keeps P) {s : State} (hs : P s) : P (startRun s) := by
  have h1 := performAll_keeps k.perform (constructProg s.cfg) (beginStart s) (k.of_sameBut hs rfl)
  unfold Machine.startRun
  generalize performAll (constructProg s.cfg) (beginStart s) = u at *
  dsimp only
  split
  · exact h1
  · have h2 : P { u with phase := .init } := k.of_sameBut h1 rfl
    have h3 := performAll_keeps k.perform (initProg s.cfg) _ h2
    generalize performAll (initProg s.cfg) _ = v at *
    exact k.of_sameBut h3 rfl

theorem Keeps.presentRun {P : State → Prop} (k : Keeps P) {s : State} (hs : P s) : P (presentRun s) := by
  have h1 := performAll_keeps k.perform (presentProg s.cfg) (beginPresent s) (k.of_sameBut hs rfl)
  rw [presentRun_eq]
  generalize performAll (presentProg s.cfg) (beginPresent s) = u at *
  exact k.of_sameBut h1 rfl

theorem Keeps.closeRun {P : State → Prop} (k : Keeps P) {s : State} (hs : P s) : P (closeRun s) := by
  have h1 := performAll_keeps k.perform (closeProg s) (beginClose s) (k.of_sameBut hs rfl)
  unfold Machine.closeRun
  generalize performAll (closeProg s) (beginClose s) = u at *
  exact k.of_sameBut h1 rfl

/-- What every instruction keeps. -/
theorem Keeps.exec {P : State → Prop} (k : Keeps P)
    (hfb : ∀ s x y c, P s → inBounds s.cfg x y = true → P { s with fb := s.fb.write (cellAddr s.cfg x y) c })
    {i : Instr} {s t : State} (hs : P s) (h : exec i s = .next t) : P t := by
  rcases exec_cases h with ⟨w, ht⟩ | ⟨r, ht⟩ | ⟨x, y, c, hb, -, ht⟩ | ⟨-, -, ht⟩ | ⟨-, -, -, -, ht⟩ | ⟨-, -, ht⟩ | ⟨w, -, ht⟩
  · exact k.of_sameBut hs (by rw [ht]; rfl)
  · exact k.of_sameBut hs (by rw [ht]; rfl)
  · exact k.of_sameBut (hfb s x y c hs hb) (by rw [ht]; rfl)
  · rw [ht]; exact k.startRun hs
  · rw [ht]; exact k.presentRun hs
  · rw [ht]; exact k.closeRun hs
  · rw [ht]; exact k.of_sameBut (performAll_keeps k.perform _ _ hs) (sameBut_settle _)

/-- What every step keeps. -/
theorem Keeps.step {P : State → Prop} (k : Keeps P)
    (hfb : ∀ s x y c, P s → inBounds s.cfg x y = true → P { s with fb := s.fb.write (cellAddr s.cfg x y) c })
    {s t : State} (hs : P s) (h : step s = .next t) : P t := by
  rcases step_cases h with ⟨m, -, -, -, ht⟩ | ⟨-, -, ht⟩ | ⟨w, rest, e, -, -, -, ht⟩ | ⟨w, rest, i, -, -, -, h⟩ | ⟨w, -, -, h⟩
  · rw [ht]; exact k.of_sameBut (k.perform _ _ hs) (sameBut_settle _)
  · rw [ht]; exact hs
  · exact k.of_sameBut hs (by rw [ht]; rfl)
  · exact k.exec hfb (k.of_sameBut hs (t := { s with input := rest }) rfl) h
  · exact k.exec hfb (k.of_sameBut hs (t := { s with testPort := .used }) rfl) h

end Sys2Proof.Machine
end

