-- ==== Sys2Proof/Laws/Lines.lean ====
section
/-! SUPPORT. Open flags and latches while no call fails: each micro-operation moves them by one small function, so what a list of
micro-operations leaves can be computed; and the flags and latches no micro-operation of a word touches. -/

namespace Sys2Proof.Machine

/-- The open flags and the latches of a state. -/
structure Lines where
  spi : Bool
  cs : Bool
  dc : Bool
  rst : Bool
  lcs : Level
  ldc : Level
  lrst : Level
  deriving DecidableEq, Repr

def linesOf (s : State) : Lines := ⟨s.spiOpen, s.csOpen, s.dcOpen, s.rstOpen, s.cs, s.dc, s.rst⟩

/-- How a successful micro-operation moves them (R114 to R117). -/
def Lines.apply (v : Lines) : MicroOp → Lines
  | .openr .spi => { v with spi := true }
  | .openr .cs => { v with cs := true }
  | .openr .dc => { v with dc := true }
  | .openr .rst => { v with rst := true }
  | .pinw .cs b => { v with lcs := Level.ofBit b }
  | .pinw .dc b => { v with ldc := Level.ofBit b }
  | .pinw .rst b => { v with lrst := Level.ofBit b }
  | .xferb _ => v
  | .xferpx => v
  | .relr .spi => { v with spi := false }
  | .relr .cs => { v with cs := false, lcs := .undriven }
  | .relr .dc => { v with dc := false, ldc := .undriven }
  | .relr .rst => { v with rst := false, lrst := .undriven }

theorem addFailure_ne_nil (f : Failure) (fs : List Failure) : addFailure f fs ≠ [] := by
  intro h
  have := (addFailure_grows f fs).2
  rw [h] at this
  simp at this

/-- A call after which no failure is recorded succeeded. -/
theorem callOf_clean {m : MicroOp} {s : State} (h : (callOf m s).fault = []) :
    s.fault = [] ∧ linesOf (callOf m s) = (linesOf s).apply m := by
  cases m with
  | openr r =>
    simp only [callOf, callOpen] at h ⊢
    split at h
    · rename_i o ho
      rw [ho]
      exact ⟨by simpa using h, by cases r <;> simp [linesOf, Lines.apply, setOpen]⟩
    · exfalso; simp at h; exact addFailure_ne_nil _ _ h
  | pinw l v =>
    simp only [callOf, callPinw] at h ⊢
    split at h
    · rename_i o ho
      rw [ho]
      exact ⟨by simpa using h, by cases l <;> simp [linesOf, Lines.apply, setLatch]⟩
    · exfalso; simp at h; exact addFailure_ne_nil _ _ h
  | xferb b =>
    simp only [callOf, callXfer] at h ⊢
    split at h
    · rename_i o ho
      rw [ho]
      exact ⟨by simpa using h, by simp [linesOf, Lines.apply]⟩
    · exfalso; simp at h; exact addFailure_ne_nil _ _ h
  | xferpx =>
    simp only [callOf, callXferpx, callXfer] at h ⊢
    split at h
    · rename_i o ho
      rw [ho]
      exact ⟨by simpa using h, by simp [linesOf, Lines.apply]⟩
    · exfalso; simp at h; exact addFailure_ne_nil _ _ h
  | relr r =>
    refine ⟨by simpa [callOf] using h, ?_⟩
    cases r <;> simp [callOf, callRel, setOpen, setLatch, linesOf, Lines.apply, emit]

theorem perform_clean {m : MicroOp} {s : State} (hp : s.phase ≠ .halted) (h : (perform m s).fault = []) :
    s.fault = [] ∧ linesOf (perform m s) = (linesOf s).apply m ∧ ¬ haltsOn m s := by
  have hh : ¬ haltsOn m s := by
    rintro ⟨rfl, ha⟩
    exact (perform_openCs_fails hp ha).2.2.1 h
  rw [perform_going hp hh] at h ⊢
  exact ⟨(callOf_clean h).1, (callOf_clean h).2, hh⟩

/-- A list of micro-operations after which no failure is recorded moves the lines as if every call succeeded. -/
theorem performAll_clean (ms : List MicroOp) : ∀ {s : State}, s.phase ≠ .halted → (performAll ms s).fault = [] →
    s.fault = [] ∧ linesOf (performAll ms s) = ms.foldl Lines.apply (linesOf s) := by
  induction ms with
  | nil => intro s _ h; exact ⟨h, rfl⟩
  | cons m ms ih =>
    intro s hp h
    rw [performAll_cons] at h ⊢
    have hf : (perform m s).fault = [] := by
      have := performAll_fault ms (perform m s)
      rw [h] at this
      exact List.subset_nil.1 this
    obtain ⟨a, b, c⟩ := perform_clean hp hf
    obtain ⟨d, e⟩ := ih (by rw [(perform_attempts hp c).2.2.2]; exact hp) h
    exact ⟨a, by rw [e, b]; rfl⟩

/-- The lines after one sequencer word (R121). -/
theorem apply_word (c : Cfg) (w : W9) (v : Lines) :
    (execW9 c w).foldl Lines.apply v =
      { v with lcs := Level.ofBit c.csIdle, ldc := Level.ofBit (if w9Flag w then c.dcData else c.dcCmd) } := by
  unfold execW9
  cases w9Flag w <;> rfl

/-- The lines after a list of words, from chip-select at idle (R121). -/
theorem apply_words (c : Cfg) (ws : List W9) : ∀ {v : Lines}, v.lcs = Level.ofBit c.csIdle →
    (execWords c ws).foldl Lines.apply v = { v with ldc := wordsDc c v.ldc ws } := by
  induction ws with
  | nil => intro v _; rfl
  | cons w ws ih =>
    intro v hv
    rw [execWords_cons, List.foldl_append, apply_word, ih rfl, wordsDc_cons]
    simp [hv]

/-- A data/command line that words have driven is driven. -/
theorem wordsDc_driven (c : Cfg) (b : Bool) (ws : List W9) : wordsDc c (Level.ofBit b) ws ≠ .undriven := by
  have h : ∀ x : Bool, Level.ofBit x ≠ .undriven := by decide
  unfold wordsDc
  split
  · exact h b
  · exact h _

/-- Pixels leave the lines alone. -/
theorem apply_pixels (n : Nat) (v : Lines) : (List.replicate n MicroOp.xferpx).foldl Lines.apply v = v := by
  induction n with
  | zero => rfl
  | succ n ih => rw [List.replicate_succ, List.foldl_cons]; exact ih

/-- Micro-operations that open and release nothing leave the open flags alone, whatever ENV answers. -/
theorem performAll_flags {ms : List MicroOp} (h : ∀ m ∈ ms, ∀ r, m ≠ .openr r ∧ m ≠ .relr r) (r : Resource) :
    ∀ {s : State}, openFlag r (performAll ms s) = openFlag r s := by
  induction ms with
  | nil => intro s; rfl
  | cons m ms ih =>
    intro s
    rw [performAll_cons, ih (fun m hm => h m (List.mem_cons_of_mem _ hm))]
    have hm := h m (by simp)
    by_cases hp : s.phase = .halted
    · rw [perform_halted hp]
    have hh : ¬ haltsOn m s := by rintro ⟨rfl, -⟩; exact (hm .cs).1 rfl
    rw [perform_going hp hh]
    have key : openFlag r (callOf m s) = openFlag r s := by
      cases m with
      | openr q => exact absurd rfl (hm q).1
      | relr q => exact absurd rfl (hm q).2
      | _ => cases r <;> simp [openFlag, callOf]
    cases r <;> exact key

theorem execW9_flags (c : Cfg) (w : W9) : ∀ m ∈ execW9 c w, ∀ r, m ≠ .openr r ∧ m ≠ .relr r := by
  intro m hm r
  unfold execW9 at hm
  split at hm <;> simp [sendcProg, senddProg] at hm <;> rcases hm with rfl | rfl | rfl | rfl <;> simp

end Sys2Proof.Machine
end

