-- ==== Sys2Proof/Laws/PerInstr.lean ====
section
/-! SUPPORT. Per instruction: the encoded word has the fixed bits of its row of spec/opcode_table.json (one lemma per constructor). -/

namespace Sys2Proof.Laws.EncodesTableRow

/-- The bits of a fetched word that the opcode table numbers: the host operation number, or the nine-bit word (R65, R68). -/
def rowBits : FetchWord → Nat
  | .h hop _ => hop.toNat
  | .w9 w => w.toNat

/-- Mask and match of the instruction's row. -/
def row : Instr → Nat × Nat
  | .to565 _ => (0xF, 0x1)
  | .getpixel _ _ => (0xF, 0x2)
  | .setpixelOver _ _ _ => (0xF, 0x3)
  | .setpixelBlend _ _ _ => (0xF, 0x4)
  | .start => (0xF, 0x8)
  | .present => (0xF, 0x9)
  | .close => (0xF, 0xA)
  | .sendc _ => (0x100, 0x000)
  | .sendd _ => (0x100, 0x100)
  | .madctl => (0x1FF, 0x036)
  | .colmod => (0x1FF, 0x03A)
  | .frmctr1 => (0x1FF, 0x0B1)
  | .frmctr2 => (0x1FF, 0x0B2)
  | .frmctr3 => (0x1FF, 0x0B3)
  | .pwctr1 => (0x1FF, 0x0C0)
  | .pwctr2 => (0x1FF, 0x0C1)
  | .pwctr3 => (0x1FF, 0x0C2)
  | .pwctr4 => (0x1FF, 0x0C3)
  | .pwctr5 => (0x1FF, 0x0C4)
  | .vmctr1 => (0x1FF, 0x0C5)
  | .invctr => (0x1FF, 0x0B4)
  | .gmctrp1 => (0x1FF, 0x0E0)
  | .gmctrn1 => (0x1FF, 0x0E1)
  | .slpout => (0x1FF, 0x011)
  | .dispon => (0x1FF, 0x029)
  | .caset => (0x1FF, 0x02A)
  | .raset => (0x1FF, 0x02B)
  | .ramwr => (0x1FF, 0x02C)

/-- The encoded word of the instruction has the fixed bits of its row. -/
def Statement (i : Instr) : Prop := rowBits (encode i) &&& (row i).1 = (row i).2

theorem command_bits : ∀ b : Byte, (w9Of false b).toNat &&& 0x100 = 0x000 := by decide

theorem data_bits : ∀ b : Byte, (w9Of true b).toNat &&& 0x100 = 0x100 := by decide

theorem to565 (c : Color) : Statement (.to565 c) := (by decide : (hopTo565).toNat &&& 0xF = 0x1)

theorem getpixel (x : Int) (y : Int) : Statement (.getpixel x y) := (by decide : (hopGetpixel).toNat &&& 0xF = 0x2)

theorem setpixelOver (x : Int) (y : Int) (c : Color) : Statement (.setpixelOver x y c) := (by decide : (hopSetpixelOver).toNat &&& 0xF = 0x3)

theorem setpixelBlend (x : Int) (y : Int) (c : Color) : Statement (.setpixelBlend x y c) := (by decide : (hopSetpixelBlend).toNat &&& 0xF = 0x4)

theorem start : Statement .start := (by decide : (hopStart).toNat &&& 0xF = 0x8)

theorem present : Statement .present := (by decide : (hopPresent).toNat &&& 0xF = 0x9)

theorem close : Statement .close := (by decide : (hopClose).toNat &&& 0xF = 0xA)

theorem sendc (b : Byte) : Statement (.sendc b) := command_bits b

theorem sendd (b : Byte) : Statement (.sendd b) := data_bits b

theorem madctl : Statement .madctl := (by decide : (0x036 : W9).toNat &&& 0x1FF = 0x036)

theorem colmod : Statement .colmod := (by decide : (0x03A : W9).toNat &&& 0x1FF = 0x03A)

theorem frmctr1 : Statement .frmctr1 := (by decide : (0x0B1 : W9).toNat &&& 0x1FF = 0x0B1)

theorem frmctr2 : Statement .frmctr2 := (by decide : (0x0B2 : W9).toNat &&& 0x1FF = 0x0B2)

theorem frmctr3 : Statement .frmctr3 := (by decide : (0x0B3 : W9).toNat &&& 0x1FF = 0x0B3)

theorem pwctr1 : Statement .pwctr1 := (by decide : (0x0C0 : W9).toNat &&& 0x1FF = 0x0C0)

theorem pwctr2 : Statement .pwctr2 := (by decide : (0x0C1 : W9).toNat &&& 0x1FF = 0x0C1)

theorem pwctr3 : Statement .pwctr3 := (by decide : (0x0C2 : W9).toNat &&& 0x1FF = 0x0C2)

theorem pwctr4 : Statement .pwctr4 := (by decide : (0x0C3 : W9).toNat &&& 0x1FF = 0x0C3)

theorem pwctr5 : Statement .pwctr5 := (by decide : (0x0C4 : W9).toNat &&& 0x1FF = 0x0C4)

theorem vmctr1 : Statement .vmctr1 := (by decide : (0x0C5 : W9).toNat &&& 0x1FF = 0x0C5)

theorem invctr : Statement .invctr := (by decide : (0x0B4 : W9).toNat &&& 0x1FF = 0x0B4)

theorem gmctrp1 : Statement .gmctrp1 := (by decide : (0x0E0 : W9).toNat &&& 0x1FF = 0x0E0)

theorem gmctrn1 : Statement .gmctrn1 := (by decide : (0x0E1 : W9).toNat &&& 0x1FF = 0x0E1)

theorem slpout : Statement .slpout := (by decide : (0x011 : W9).toNat &&& 0x1FF = 0x011)

theorem dispon : Statement .dispon := (by decide : (0x029 : W9).toNat &&& 0x1FF = 0x029)

theorem caset : Statement .caset := (by decide : (0x02A : W9).toNat &&& 0x1FF = 0x02A)

theorem raset : Statement .raset := (by decide : (0x02B : W9).toNat &&& 0x1FF = 0x02B)

theorem ramwr : Statement .ramwr := (by decide : (0x02C : W9).toNat &&& 0x1FF = 0x02C)

end Sys2Proof.Laws.EncodesTableRow
end

