-- ==== Sys2Proof/Laws/Transfers.lean ====
section
/-! SUPPORT. What goes out on the bus: the transfers of micro-operations, of lists of them, and of the host operations (R127). -/

namespace Sys2Proof.Machine

/-- What one micro-operation puts on the bus: a pixel's two bytes or its own byte, or nothing (R116, R152). -/
theorem perform_xfers (m : MicroOp) (s : State) : ∃ new, (perform m s).trace = s.trace ++ new ∧
    ∀ bytes o, Event.xfer bytes o ∈ new →
      m = .xferpx ∧ bytes = wordBytes (to565 (s.fb.read (s.pixctr - 1))) ∨ ∃ b, m = .xferb b ∧ bytes = [b] := by
  by_cases hp : s.phase = .halted
  · rw [perform_halted hp]; exact ⟨[], by simp, by simp⟩
  · have key : ∃ new, (callOf m s).trace = s.trace ++ new ∧
        ∀ bytes o, Event.xfer bytes o ∈ new →
          m = .xferpx ∧ bytes = wordBytes (to565 (s.fb.read (s.pixctr - 1))) ∨ ∃ b, m = .xferb b ∧ bytes = [b] := by
      cases m with
      | relr r => exact ⟨[.rel r], by cases r <;> simp [callOf, callRel, setOpen, setLatch, emit], by simp⟩
      | openr r =>
        simp only [callOf, callOpen]
        split
        · rename_i ho; exact ⟨[.opened r .ok], by rw [ho]; simp, by simp⟩
        · rename_i k hk
          cases decide (r = Resource.cs)
          · exact ⟨[.opened r (.fail k)], by rw [hk]; simp [raise], by simp⟩
          · exact ⟨[.opened r (.fail k), .halt], by rw [hk]; simp [raise, haltNow, emit], by simp⟩
      | pinw l v =>
        simp only [callOf, callPinw]
        split
        · rename_i ho; exact ⟨[.pin l v .ok], by rw [ho]; simp, by simp⟩
        · rename_i k ho; exact ⟨[.pin l v (.fail k)], by rw [ho]; simp, by simp⟩
      | xferb b =>
        simp only [callOf, callXfer]
        split
        · rename_i ho; exact ⟨[.xfer [b] .ok], by rw [ho]; simp, by simp⟩
        · rename_i k ho; exact ⟨[.xfer [b] (.fail k)], by rw [ho]; simp, by simp⟩
      | xferpx =>
        simp only [callOf, callXferpx, callXfer]
        split
        · rename_i ho; exact ⟨[.xfer (wordBytes (to565 (s.fb.read (s.pixctr - 1)))) .ok], by rw [ho]; simp, by simp⟩
        · rename_i k ho; exact ⟨[.xfer (wordBytes (to565 (s.fb.read (s.pixctr - 1)))) (.fail k)], by rw [ho]; simp, by simp⟩
    by_cases hh : haltsOn m s
    · rw [perform_halting hp hh]; exact key
    · rw [perform_going hp hh]; exact key

/-- A micro-program sends only bytes of the init table, of the window words, and pixels (R127). -/
def ownProg (c : Cfg) (ms : List MicroOp) : Prop := ∀ b, MicroOp.xferb b ∈ ms → ∃ w ∈ c.initWords ++ windowWords c, b = w9Byte w

/-- What a list of such micro-operations puts on the bus, while the pixels it sends exist. -/
theorem performAll_own (c : Cfg) (ms : List MicroOp) (h : ownProg c ms) : ∀ s : State, s.cfg = c → s.phase ≠ .halted →
    ms.count .xferpx ≤ s.pixctr → (MicroOp.xferpx ∈ ms → s.pixctr ≤ fbSize c) →
    ∃ new, (performAll ms s).trace = s.trace ++ new ∧ ∀ bytes o, Event.xfer bytes o ∈ new → ownBytes c s.fb bytes := by
  induction ms with
  | nil => intro s _ _ _ _; exact ⟨[], by simp, by simp⟩
  | cons m ms ih =>
    intro s hc hp hcount hb
    obtain ⟨n1, t1, b1⟩ := perform_xfers m s
    have hk := perform_kept m s
    have hhead : ∀ bytes o, Event.xfer bytes o ∈ n1 → ownBytes c s.fb bytes := by
      intro bytes o hx
      rcases b1 bytes o hx with ⟨rfl, rfl⟩ | ⟨b, rfl, rfl⟩
      · right
        refine ⟨s.pixctr - 1, ?_, rfl⟩
        have := hb (by simp)
        simp at hcount
        omega
      · left
        obtain ⟨w, hw, rfl⟩ := h b (by simp)
        exact ⟨w, hw, rfl⟩
    by_cases hh : (perform m s).phase = .halted
    · rw [performAll_cons, performAll_halted hh]
      exact ⟨n1, t1, hhead⟩
    · obtain ⟨n2, t2, b2⟩ := ih (fun b hb => h b (by simp [hb])) (perform m s) (by rw [hk]; exact hc) hh
        (by
          rw [perform_pixctr m s hp]
          split
          · subst_vars; simp at hcount; omega
          · rename_i hx; rw [List.count_cons_of_ne hx] at hcount; exact hcount)
        (by
          intro hm
          rw [perform_pixctr m s hp]
          have := hb (by simp [hm])
          split <;> omega)
      refine ⟨n1 ++ n2, by rw [performAll_cons, t2, t1]; simp, ?_⟩
      intro bytes o hx
      rcases List.mem_append.1 hx with hx | hx
      · exact hhead bytes o hx
      · have := b2 bytes o hx
        rw [show (perform m s).fb = s.fb by rw [hk]] at this
        exact this

theorem ownProg_words (c : Cfg) (ws : List W9) (h : ∀ w ∈ ws, w ∈ c.initWords ++ windowWords c) : ownProg c (execWords c ws) := by
  intro b hb
  simp only [execWords, List.mem_flatten, List.mem_map] at hb
  obtain ⟨l, ⟨w, hw, rfl⟩, hb⟩ := hb
  refine ⟨w, h w hw, ?_⟩
  unfold execW9 at hb
  split at hb <;> simpa [sendcProg, senddProg] using hb

theorem ownProg_start (c : Cfg) : ownProg c (startProg c) := by
  intro b hb
  simp only [startProg, initProg, List.mem_append] at hb
  rcases hb with hb | hb | hb
  · simp [constructProg] at hb
  · simp [resetProg] at hb
  · exact ownProg_words c c.initWords (fun w hw => by simp [hw]) b hb

theorem ownProg_present (c : Cfg) : ownProg c (presentProg c) := by
  intro b hb
  simp only [presentProg, List.mem_append] at hb
  rcases hb with ((hb | hb) | hb) | hb
  · exact ownProg_words c (windowWords c) (fun w hw => by simp [hw]) b hb
  · unfold streamSetupProg at hb; split at hb <;> simp at hb
  · simp at hb
  · simp at hb

/-- A host operation is no sequencer word (R127). -/
theorem decode_host_encode (w : HostWord) (i : Instr) (h : decode w.fetched = .ok i) (word : W9) : encode i ≠ .w9 word := by
  intro he
  simp only [decode, HostWord.fetched, decodeH] at h
  split_ifs at h <;> split at h <;> simp_all <;> subst h <;> simp [encode] at he

/-- What the operation puts on the bus (R127). -/
theorem startRun_own {s : State} (hs : s.testPort = .unused) : hostRun (startRun s) ∧ ∃ new, (startRun s).trace = s.trace ++ new ∧
    ∀ bytes o, Event.xfer bytes o ∈ new → ownBytes s.cfg s.fb bytes := by
  have o1 : ownProg s.cfg (constructProg s.cfg) := by intro b hb; simp [constructProg] at hb
  have o2 : ownProg s.cfg (initProg s.cfg) := fun b hb => ownProg_start s.cfg b (by simp [startProg, hb])
  have x1 : MicroOp.xferpx ∉ constructProg s.cfg := by simp [constructProg]
  have x2 : MicroOp.xferpx ∉ initProg s.cfg := by simp [initProg, resetProg, execWords_plain]
  obtain ⟨n1, t1, b1⟩ := performAll_own s.cfg _ o1 (beginStart s) rfl (by simp [beginStart])
    (by rw [List.count_eq_zero_of_not_mem x1]; exact Nat.zero_le _) (fun h => absurd h x1)
  have hk := performAll_kept (constructProg s.cfg) (beginStart s)
  have hu := performAll_testPort (constructProg s.cfg) (beginStart s)
  obtain ⟨hok, hno⟩ := performAll_construct (s := beginStart s) (by simp [beginStart])
  have hc : (beginStart s).cfg = s.cfg := rfl
  rw [hc] at hok hno
  have ht : (beginStart s).testPort = s.testPort := rfl
  have htr : (beginStart s).trace = s.trace := rfl
  have hph : (beginStart s).phase = .construct := rfl
  have hfb : (beginStart s).fb = s.fb := rfl
  unfold startRun
  generalize beginStart s = b at *
  generalize performAll (constructProg s.cfg) b = u at *
  have huc : u.cfg = s.cfg := by rw [hk]; exact hc
  have huf : u.fb = s.fb := by rw [hk]; exact hfb
  have hut : u.testPort = .unused := by rw [hu, ht, hs]
  rw [hfb] at b1
  rw [htr] at t1
  clear hk
  dsimp only
  split
  · rename_i hh
    have hprog : u.prog = [] := by
      by_cases ha : envAnswer (envNext b) = .ok
      · rw [(hok ha).1, hph] at hh; cases hh
      · exact (hno ha).2.2.1
    exact ⟨⟨hut, by simp [hprog]⟩, n1, t1, b1⟩
  · have hpos : ({ u with phase := Phase.init } : State).phase ≠ .halted := by simp
    have hcfg : ({ u with phase := Phase.init } : State).cfg = s.cfg := huc
    have hfb' : ({ u with phase := Phase.init } : State).fb = s.fb := huf
    have htp' : ({ u with phase := Phase.init } : State).testPort = .unused := hut
    have htr' : ({ u with phase := Phase.init } : State).trace = u.trace := rfl
    generalize ({ u with phase := Phase.init } : State) = v at *
    obtain ⟨n2, t2, b2⟩ := performAll_own s.cfg _ o2 v hcfg hpos
      (by rw [List.count_eq_zero_of_not_mem x2]; exact Nat.zero_le _) (fun h => absurd h x2)
    have hvt := performAll_testPort (initProg s.cfg) v
    generalize performAll (initProg s.cfg) v = w at *
    refine ⟨⟨hvt.trans htp', by simp⟩, n1 ++ n2, ?_, ?_⟩
    · rw [← List.append_assoc, ← t1, ← htr', ← t2]
    · intro bytes o hx
      rcases List.mem_append.1 hx with hx | hx
      · exact b1 bytes o hx
      · rw [← hfb']; exact b2 bytes o hx

/-- What the operation puts on the bus (R127). -/
theorem presentRun_own {s : State} (hs : s.testPort = .unused) (e1 : s.cfg.fbW = s.cfg.panelW) (e2 : s.cfg.fbH = s.cfg.panelH) :
    hostRun (presentRun s) ∧ ∃ new, (presentRun s).trace = s.trace ++ new ∧
    ∀ bytes o, Event.xfer bytes o ∈ new → ownBytes s.cfg s.fb bytes := by
  rw [presentRun_eq]
  have hcount : (presentProg s.cfg).count .xferpx = s.cfg.nPix := by
    have h1 := (execWords_plain s.cfg (windowWords s.cfg)).2
    have h2 : (streamSetupProg s.cfg).count .xferpx = 0 := by unfold streamSetupProg; split <;> simp
    simp [presentProg, List.count_append, List.count_eq_zero_of_not_mem h1, h2]
  obtain ⟨n, t1, b1⟩ := performAll_own s.cfg _ (ownProg_present s.cfg) (beginPresent s) rfl (by simp [beginPresent])
    (by rw [hcount]; exact le_refl _)
    (fun _ => by show s.cfg.nPix ≤ _; simp only [fbSize, Cfg.nPix]; rw [e1, e2])
  have hp := performAll_testPort (presentProg s.cfg) (beginPresent s)
  have hb : (beginPresent s).testPort = .unused := hs
  have hf : (beginPresent s).fb = s.fb := rfl
  have ht : (beginPresent s).trace = s.trace := rfl
  generalize beginPresent s = b at *
  generalize performAll (presentProg s.cfg) b = u at *
  rw [ht] at t1
  rw [hf] at b1
  exact ⟨⟨hp.trans hb, by simp⟩, n, t1, b1⟩

/-- What the operation puts on the bus (R127). -/
theorem closeRun_own {s : State} (hs : s.testPort = .unused) :
    hostRun (closeRun s) ∧ ∃ new, (closeRun s).trace = s.trace ++ new ∧
    ∀ bytes o, Event.xfer bytes o ∈ new → ownBytes s.cfg s.fb bytes := by
  unfold closeRun
  obtain ⟨n, t1, b1⟩ := performAll_own s.cfg (closeProg s) (by intro b hb; simp [closeProg] at hb) (beginClose s) rfl
    (by simp [beginClose])
    (by rw [List.count_eq_zero_of_not_mem (by simp [closeProg])]; exact Nat.zero_le _) (by simp [closeProg])
  have hp := performAll_testPort (closeProg s) (beginClose s)
  have hb : (beginClose s).testPort = .unused := hs
  have hf : (beginClose s).fb = s.fb := rfl
  have ht : (beginClose s).trace = s.trace := rfl
  generalize beginClose s = b at *
  generalize performAll (closeProg s) b = u at *
  rw [ht] at t1
  rw [hf] at b1
  exact ⟨⟨hp.trans hb, by simp⟩, n, t1, b1⟩

end Sys2Proof.Machine
end

