-- ==== Sys2Proof/Tests/Slice0.lean ====
section
/-! SUPPORT. The model's own tests. Expected results are the spec's: the vectors V<n>, S<n> and the programs P<n> of
spec/95_test_vectors.md, the encodings of 30_encoding.md, or hand calculation from a cited rule. Then, for every statement that has
hypotheses, a witness that meets them. -/

namespace Sys2Proof.Machine.Tests

/-! ## Helpers -/

/-- The configuration of P2: a 2 by 2 panel, two init words. -/
def smallCfg : Cfg :=
  { defaultCfg with
    panelW := 2, panelH := 2, fbW := 2, fbH := 2, initWords := [0x011, 0x029]
    opCaset := 0x2A, opRaset := 0x2B, opRamwr := 0x2C, winCol := ⟨0, 0, 0, 1⟩, winRow := ⟨0, 0, 0, 1⟩ }

/-- OFF, ENV about to answer as told. -/
def off (env : List Answer) : State := { State.reset with cfg := smallCfg, env := env }

/-- READY, everything open, lines as R140 says after a table that ends in a command word. -/
def ready (env : List Answer) : State :=
  { State.reset with
    cfg := smallCfg, phase := .ready, cs := .high, dc := .low, rst := .high
    spiOpen := true, csOpen := true, dcOpen := true, rstOpen := true, env := env }

/-- The same in another phase. -/
def inPhase (p : Phase) : State := { ready [] with phase := p }

/-- `n` answers "ok". -/
def oks (n : Nat) : List Answer := List.replicate n .ok

/-- The painted framebuffer of P2, by linear address. -/
def painted : Memory :=
  [(0, ⟨0x3F800000, 0, 0, 0x3F800000⟩), (1, ⟨0, 0x3F800000, 0, 0x3F800000⟩), (2, ⟨0, 0, 0x3F800000, 0x3F800000⟩),
    (3, ⟨0x3F000000, 0x3F000000, 0x3F000000, 0x3F800000⟩)]

/-- A field of the next state, if there is one. -/
def after {α : Type} (o : Host.Outcome State Fault Refusal) (f : State → α) : Option α :=
  match o with
  | .next t => some (f t)
  | .fault _ => none
  | .refused _ => none

/-! ## Well-formedness: a term each check refuses -/

theorem test_wf_sendc_panel_byte : (Instr.sendc 0x36).wellFormed = false ∧ (Instr.sendc 0x37).wellFormed = true := by decide
theorem test_wf_default_cfg : defaultCfg.lawful = true := by decide
theorem test_wf_init_first : { defaultCfg with initWords := [0x111, 0x011, 0x029] }.lawInitFirst = false := by decide
theorem test_wf_init_empty : { defaultCfg with initWords := [] }.lawInitFirst = false := by decide
theorem test_wf_init_groups : smallCfg.lawInitGroups = false := by decide
theorem test_wf_init_last : { defaultCfg with initWords := [0x029, 0x011] }.lawInitLast = false := by decide
/-- D12: no data after exit-sleep or display-on. -/
theorem test_wf_init_last_data :
    { defaultCfg with initWords := defaultInitA ++ [0x011, 0x100, 0x029, 0x100] }.lawInitLast = false ∧
    { defaultCfg with initWords := defaultInitA ++ [0x011, 0x029, 0x100] }.lawInitLast = false := by decide
/-- R70 (b): every group in order, but the orientation command without its data word. -/
theorem test_wf_init_data :
    { defaultCfg with initWords := [0x036] ++ defaultInitWords.drop 2 }.lawInitGroups = false ∧
    { defaultCfg with initWords := defaultInitWords.filter isCommandWord }.lawInitGroups = false := by decide
theorem test_wf_window : { defaultCfg with winRow := ⟨0x00, 0x02, 0x00, 0x82⟩ }.lawWindow = false := by decide
theorem test_wf_levels : { defaultCfg with dcCmd := true }.lawLevels = false := by decide
theorem test_wf_cs_levels : { defaultCfg with csActive := true }.lawLevels = false := by decide
theorem test_wf_fb : { defaultCfg with fbW := 128, fbH := 160 }.fbFits = false := by decide

/-! ## Decoding: words written out from R65, R68, R75 and R76 -/

theorem test_decode_host :
    decode (.h 0b0001 [.color ⟨1, 2, 3, 4⟩]) = .ok (.to565 ⟨1, 2, 3, 4⟩) ∧
    decode (.h 0b0010 [.int 3, .int 2]) = .ok (.getpixel 3 2) ∧
    decode (.h 0b0011 [.int 3, .int 2, .color ⟨1, 2, 3, 4⟩]) = .ok (.setpixelOver 3 2 ⟨1, 2, 3, 4⟩) ∧
    decode (.h 0b0100 [.int 3, .int 2, .color ⟨1, 2, 3, 4⟩]) = .ok (.setpixelBlend 3 2 ⟨1, 2, 3, 4⟩) ∧
    decode (.h 0b1000 []) = .ok .start ∧ decode (.h 0b1001 []) = .ok .present ∧ decode (.h 0b1010 []) = .ok .close := by decide

theorem test_decode_words :
    decode (.w9 0b000000000) = .ok (.sendc 0x00) ∧ decode (.w9 0b000110111) = .ok (.sendc 0x37) ∧
    decode (.w9 0b100000101) = .ok (.sendd 0x05) ∧ decode (.w9 0b111111111) = .ok (.sendd 0xFF) := by decide

theorem test_decode_panel :
    decode (.w9 0b000110110) = .ok .madctl ∧ decode (.w9 0b000111010) = .ok .colmod ∧
    decode (.w9 0b010110001) = .ok .frmctr1 ∧ decode (.w9 0b010110010) = .ok .frmctr2 ∧ decode (.w9 0b010110011) = .ok .frmctr3 ∧
    decode (.w9 0b011000000) = .ok .pwctr1 ∧ decode (.w9 0b011000001) = .ok .pwctr2 ∧ decode (.w9 0b011000010) = .ok .pwctr3 ∧
    decode (.w9 0b011000011) = .ok .pwctr4 ∧ decode (.w9 0b011000100) = .ok .pwctr5 ∧ decode (.w9 0b011000101) = .ok .vmctr1 ∧
    decode (.w9 0b010110100) = .ok .invctr ∧ decode (.w9 0b011100000) = .ok .gmctrp1 ∧ decode (.w9 0b011100001) = .ok .gmctrn1 ∧
    decode (.w9 0b000010001) = .ok .slpout ∧ decode (.w9 0b000101001) = .ok .dispon ∧ decode (.w9 0b000101010) = .ok .caset ∧
    decode (.w9 0b000101011) = .ok .raset ∧ decode (.w9 0b000101100) = .ok .ramwr := by decide

/-- R79, V45. -/
theorem test_decode_unassigned :
    decode (.h 0x0 []) = .error (.noSuchOperation 0x0) ∧ decode (.h 0x7 []) = .error (.noSuchOperation 0x7) ∧
    decode (.h 0xF []) = .error (.noSuchOperation 0xF) ∧ decode (.h 0x2 [.int 3]) = .error (.wrongOperands 0x2) := by decide

/-- Words of spec/opcode_table.json in the table's numbering. -/
theorem test_decode_table_word :
    decodeTableWord 8 0x1 = some (.to565 ⟨0, 0, 0, 0⟩) ∧ decodeTableWord 8 0x4 = some (.setpixelBlend 0 0 ⟨0, 0, 0, 0⟩) ∧
    decodeTableWord 8 0xA = some .close ∧ decodeTableWord 8 0x5 = none ∧ decodeTableWord 16 0x02B = some .raset ∧
    decodeTableWord 16 0x100 = some (.sendd 0x00) ∧ decodeTableWord 24 0x0E1 = some .gmctrn1 := by decide

/-! ## Color -/

/-- V1 to V6, V9. -/
theorem test_to565_exact :
    to565 (Color.rgb 0x3F000000 0x3F000000 0x3F000000) = 0x7BEF ∧ to565 (Color.rgb 0x3E800000 0x3F400000 0x3F800000) = 0x3DFF ∧
    to565 (Color.rgb 0x3E000000 0x3F000000 0x3F600000) = 0x1BFB ∧ to565 (Color.rgb 0x3F800000 0x3F800000 0) = 0xFFE0 ∧
    to565 (Color.rgb 0 0x3F800000 0x3F800000) = 0x07FF ∧ to565 (Color.rgb 0x3F800000 0 0x3F800000) = 0xF81F ∧
    to565 (Color.rgb 0x3D000000 0x3C800000 0x3D000000) = 0x0000 := by decide

/-- V7 (a NaN alpha), V8, V10, V11, V12. -/
theorem test_to565_rounding :
    to565 ⟨0x3F800000, 0, 0, 0x7FC00000⟩ = 0xF800 ∧ to565 (Color.rgb 0x80000000 0 0) = 0x0000 ∧
    to565 (Color.rgb 0x3F7FFFFF 0x3F7FFFFF 0x3F7FFFFF) = 0xF7DE ∧ to565 (Color.rgb 0x3D042108 0 0) = 0x0800 ∧
    to565 (Color.rgb 0x3E4CCCCD 0x3ECCCCCD 0x3F19999A) = 0x3332 := by decide

/-- V13: out of range is the open value of the three channels (R90). -/
theorem test_to565_open : to565 ⟨0x3FC00000, 0, 0, 0x3F800000⟩ = Config.oob565 0x3FC00000 0 0 := by rfl

/-- V44: `TO565` answers in HALTED too. -/
theorem test_to565_halted :
    after (exec (.to565 ⟨0x3F800000, 0, 0, 0⟩) (inPhase .halted)) State.reply = some (.word 0xF800) := by decide

/-! ## Framebuffer -/

/-- S6 and V14: an unwritten cell reads zero. -/
theorem test_getpixel_unwritten : after (exec (.getpixel 1 1) (off [])) State.reply = some (.color ⟨0, 0, 0, 0⟩) := by decide

/-- V19d: the first coordinate past the right edge is refused. -/
theorem test_getpixel_out_of_bounds :
    after (exec (.getpixel 2 0) (off [])) (fun t => (t.reply, t.refused)) = some (.refused .outOfBounds, true) := by decide

/-- S3, V15: one cell changed, no other; addressing is row-major (R48). -/
theorem test_setpixel_over :
    after (exec (.setpixelOver 1 0 ⟨0x3E800000, 0x3F000000, 0x3F400000, 0x3F800000⟩) (off [])) State.fb =
      some [(1, ⟨0x3E800000, 0x3F000000, 0x3F400000, 0x3F800000⟩)] := by decide

/-- V19d: a negative coordinate is refused and no cell changes. -/
theorem test_setpixel_over_negative :
    after (exec (.setpixelOver (-1) 0 ⟨1, 1, 1, 1⟩) { off [] with fb := painted }) (fun t => (t.fb, t.reply)) =
      some (painted, .refused .outOfBounds) := by decide

/-- V16: (1 0 0.25 0.5) on (0.5 0.5 0.5 1). -/
theorem test_setpixel_blend :
    after (exec (.setpixelBlend 1 1 ⟨0x3F800000, 0, 0x3E800000, 0x3F000000⟩) { off [] with fb := painted })
      (fun t => t.fb.read 3) = some ⟨0x3F400000, 0x3E800000, 0x3EC00000, 0⟩ := by decide

/-- V19e: the rounding of each operation. -/
theorem test_blend_rounding :
    blendColor ⟨0x3E4CCCCD, 0x3ECCCCCD, 0x3F19999A, 0x3F800000⟩ ⟨0x3F333333, 0x3DCCCCCD, 0x3F666666, 0x3E99999A⟩ =
      ⟨0x3EB33334, 0x3E9EB852, 0x3F30A3D7, 0⟩ := by decide

/-! ## Signalling -/

/-- The pattern of V20 on a byte without a row of its own (R119). -/
theorem test_sendc :
    after (exec (.sendc 0x00) (ready (oks 4))) (fun t => (t.trace, t.dc)) =
      some ([.pin .cs false .ok, .pin .dc false .ok, .xfer [0x00] .ok, .pin .cs true .ok], .low) := by decide

/-- V25: the transfer fails, the fourth step is still performed. -/
theorem test_sendc_transfer_fails :
    after (exec (.sendc 0x2A) (ready [.ok, .ok, .fail, .ok])) (fun t => (t.trace, t.fault)) =
      some ([.pin .cs false .ok, .pin .dc false .ok, .xfer [0x2A] (.fail .transferFailure), .pin .cs true .ok],
        [.transferFailure 1 2]) := by decide

/-- V21: the data/command line first. -/
theorem test_sendd :
    after (exec (.sendd 0x05) (ready (oks 4))) (fun t => (t.trace, t.dc, t.cs)) =
      some ([.pin .dc true .ok, .pin .cs false .ok, .xfer [0x05] .ok, .pin .cs true .ok], .high, .high) := by decide

/-- R115, R176: writing a line that is not open fails, and its latch is U. -/
theorem test_sendd_dc_closed :
    after (exec (.sendd 0x05) { ready (oks 4) with dcOpen := false }) (fun t => (t.dc, t.cs, t.fault)) =
      some (.undriven, .high, [.invalidHandle .dc 0]) := by decide

/-- V20, V22, V23 and R76: every panel command puts its own byte on the bus. -/
theorem test_panel_commands :
    ([(.madctl, 0x36), (.colmod, 0x3A), (.frmctr1, 0xB1), (.frmctr2, 0xB2), (.frmctr3, 0xB3), (.pwctr1, 0xC0), (.pwctr2, 0xC1),
      (.pwctr3, 0xC2), (.pwctr4, 0xC3), (.pwctr5, 0xC4), (.vmctr1, 0xC5), (.invctr, 0xB4), (.gmctrp1, 0xE0), (.gmctrn1, 0xE1),
      (.slpout, 0x11), (.dispon, 0x29), (.caset, 0x2A), (.raset, 0x2B), (.ramwr, 0x2C)] : List (Instr × Byte)).all (fun p =>
        after (exec p.1 (ready (oks 4))) State.trace ==
          some [.pin .cs false .ok, .pin .dc false .ok, .xfer [p.2] .ok, .pin .cs true .ok]) = true := by decide

/-! ## START -/

/-- P1: the trace. -/
theorem test_start_trace :
    after (exec .start (off (oks 17))) State.trace = some [
      .opened .spi .ok, .opened .cs .ok, .opened .dc .ok, .opened .rst .ok, .pin .cs true .ok, .pin .dc true .ok,
      .pin .rst true .ok, .pin .rst false .ok, .pin .rst true .ok,
      .pin .cs false .ok, .pin .dc false .ok, .xfer [0x11] .ok, .pin .cs true .ok,
      .pin .cs false .ok, .pin .dc false .ok, .xfer [0x29] .ok, .pin .cs true .ok] := by decide

/-- P4, V42: chip-select cannot be opened. -/
theorem test_start_halts :
    after (exec .start (off [.ok, .fail])) (fun t => (t.trace, t.phase, t.fault, t.spiOpen, t.csOpen)) =
      some ([.opened .spi .ok, .opened .cs (.fail .openFailure), .halt], .halted, [.openFailure .cs], true, false) := by
  decide

/-! ## PRESENT -/

/-- P2: the pixel part, from the last cell to the first. -/
theorem test_present_pixels :
    after (exec .present { ready (oks 51) with fb := painted }) (fun t => (t.trace.drop 44, t.phase, t.pixctr)) =
      some ([.pin .cs false .ok, .pin .dc true .ok, .xfer [0x7B, 0xEF] .ok, .xfer [0x00, 0x1F] .ok, .xfer [0x07, 0xE0] .ok,
        .xfer [0xF8, 0x00] .ok, .pin .cs true .ok], .ready, 0) := by decide +kernel

/-- P2: what the panel receives. -/
theorem test_present_rx :
    after (exec .present { ready (oks 51) with fb := painted }) (fun t => rx smallCfg t.trace) =
      some (some [0x02A, 0x100, 0x100, 0x100, 0x101, 0x02B, 0x100, 0x100, 0x100, 0x101, 0x02C, 0x17B, 0x1EF, 0x100, 0x11F,
        0x107, 0x1E0, 0x1F8, 0x100]) := by decide +kernel

/-- V33: transposed sizes are a mismatch. -/
theorem test_present_mismatch :
    after (exec .present { ready [] with cfg := { smallCfg with fbW := 1, fbH := 4 } }) State.reply =
      some (.refused .dimMismatch) := by decide

/-! ## CLOSE -/

/-- V38. -/
theorem test_close :
    after (exec .close (ready [])) (fun t => (t.trace, t.phase, t.cs, t.dc, t.rst)) =
      some ([.rel .spi, .rel .cs, .rel .dc, .rel .rst], .closed, .undriven, .undriven, .undriven) := by decide

/-- V39: only what is open is released; V40: a second CLOSE is refused. -/
theorem test_close_partial :
    after (exec .close { ready [] with dcOpen := false, dc := .undriven }) State.trace = some [.rel .spi, .rel .cs, .rel .rst] ∧
    after (exec .close (inPhase .closed)) State.reply = some (.refused .badPhase) := by decide

/-! ## Projections -/

/-- V23 with the lines high on entry: in `levels` the second write of the data/command line is dropped (R34). -/
theorem test_levels :
    levels [.pin .cs true .ok, .pin .dc true .ok, .pin .cs false .ok, .pin .dc false .ok, .xfer [0x11] .ok, .pin .cs true .ok,
      .pin .cs false .ok, .pin .dc false .ok, .xfer [0x29] .ok, .xfer [0x2A] .ok, .pin .cs true .ok] =
    some [.pin .cs true .ok, .pin .dc true .ok, .pin .cs false .ok, .pin .dc false .ok, .xfer [0x11] .ok, .pin .cs true .ok,
      .pin .cs false .ok, .xfer [0x29, 0x2A] .ok, .pin .cs true .ok] := by decide

/-- R35: a transfer with chip-select idle has no place in `rx`; R175: nor has a failed one. -/
theorem test_rx_undefined :
    rx smallCfg [.pin .cs true .ok, .pin .dc true .ok, .xfer [0x11] .ok] = none ∧
    rx smallCfg [.pin .cs false .ok, .pin .dc true .ok, .xfer [0x11] (.fail .transferFailure)] = none := by decide

/-! ## Stepping -/

/-- V45 through the step. -/
theorem test_step_unassigned :
    after (step { off [] with input := [⟨0x7, []⟩] }) (fun t => (t.reply, t.refused, t.input)) =
      some (.refused .noSuchOperation, true, []) := by decide

/-- The host's way of placing a word: the very next step runs it. -/
theorem test_withFetchWord :
    after (step (State.reset.withFetchWord 8 0x9)) State.reply = some (.refused .badPhase) ∧
    after (step ((ready (oks 4)).withFetchWord 16 0x02A)) (fun t => t.trace.length) = some 4 := by decide

/-- R127: a script is made of host operations; the operation of a sequencer word does not exist. -/
theorem test_hostWord : hostWord (.sendc 0x2A) = none ∧ hostWord .caset = none ∧ hostWord .present = some ⟨0x9, []⟩ := by decide

/-- A run in which a lone word has been placed never ends well as a run of the host. -/
theorem test_lone_word_is_marked :
    after (step ((ready (oks 4)).withFetchWord 16 0x105)) (fun t => (t.testPort, t.refused, t.fault, decide (endedWell t))) =
      some (.used, false, [], false) := by decide

/-! ## Witnesses: for each statement with hypotheses, states and operands that meet all of them -/

/-- A state in the middle of `PRESENT` whose next micro-operation is a pixel, `n` pixels left. -/
def midPixel (n : Nat) : State := { ready (oks 8) with phase := .presenting, prog := [.xferpx, .pinw .cs true], pixctr := n }

/-- A state in the middle of `START`, at word `i` of the init table. -/
def midInit (i : Nat) : State := { ready (oks 8) with phase := .init, prog := startProg smallCfg, pc := 9 + 4 * i }

/-- READY with P2's picture. -/
def readyPainted (env : List Answer) : State := { ready env with fb := painted }

theorem witness_DecodeEncodeRoundTrip :
    (Instr.sendc 0x00).wellFormed = true ∧ (Instr.sendc 0xFF).wellFormed = true ∧ (Instr.sendd 0x36).wellFormed = true ∧
    (Instr.setpixelBlend (-1) 5 ⟨1, 2, 3, 4⟩).wellFormed = true ∧ Instr.gmctrn1.wellFormed = true := by decide

theorem witness_DecodedWordsEncodeBack :
    decode (.w9 0x1FF) = .ok (.sendd 0xFF) ∧ decode (.w9 0x000) = .ok (.sendc 0x00) ∧ decode (.w9 0x036) = .ok .madctl ∧
    decode (.h 0x2 [.int (-7), .int 3]) = .ok (.getpixel (-7) 3) := by decide

theorem witness_UnassignedOperationNumbersRefused :
    (∀ hop ∈ ([0x0, 0x5, 0x7, 0xB, 0xF] : List (BitVec 4)),
      hop ∈ ([0x0, 0x5, 0x6, 0x7, 0xB, 0xC, 0xD, 0xE, 0xF] : List (BitVec 4)) ∧
      hostHasStep { off [] with input := [⟨hop, [.int 1]⟩] } ∧
      ({ off [] with input := [⟨hop, [.int 1]⟩] } : State).input = [⟨hop, [.int 1]⟩]) ∧
    (∀ hop ∈ ([0x1, 0x4, 0x8, 0xA] : List (BitVec 4)),
      hop ∉ ([0x0, 0x5, 0x6, 0x7, 0xB, 0xC, 0xD, 0xE, 0xF] : List (BitVec 4))) := by decide

theorem witness_StepRunsTheDecodedInstruction :
    hostHasStep { off (oks 17) with input := [⟨0x8, []⟩, ⟨0x9, []⟩] } ∧ decode (HostWord.fetched ⟨0x8, []⟩) = .ok .start ∧
    running { ready (oks 4) with testPort := .placed 0x02A } = false ∧ decode (.w9 0x02A) = .ok .caset := by decide

/-- Both clauses at the two ends of the grid's addresses. -/
theorem witness_StepPerformsTheNextMicroOperation :
    (∀ n ∈ [1, 4], (midPixel n).phase ≠ .halted ∧ (midPixel n).prog[(midPixel n).pc]? = some .xferpx ∧
      0 < (midPixel n).pixctr ∧ (midPixel n).pixctr ≤ (midPixel n).cfg.fbW * (midPixel n).cfg.fbH) ∧
    (∀ n ∈ [0, 5], (midPixel n).phase ≠ .halted ∧ (midPixel n).prog[(midPixel n).pc]? = some .xferpx ∧
      ¬(0 < (midPixel n).pixctr ∧ (midPixel n).pixctr ≤ (midPixel n).cfg.fbW * (midPixel n).cfg.fbH)) ∧
    (midInit 0).phase ≠ .halted ∧ (midInit 0).prog[(midInit 0).pc]? = some (.pinw .cs false) := by decide

theorem witness_ResetCellsReadZero :
    (0 : Int) ≤ 0 ∧ (0 : Int) < smallCfg.fbW ∧ (0 : Int) ≤ 1 ∧ (1 : Int) < smallCfg.fbH := by decide

theorem witness_To565AnswersThePackedWord :
    (inPhase .off).phase = .off ∧ (inPhase .ready).phase = .ready ∧ (inPhase .closed).phase = .closed ∧
    (inPhase .halted).phase = .halted ∧ (inPhase .construct).phase = .construct ∧ (inPhase .init).phase = .init ∧
    (inPhase .presenting).phase = .presenting ∧ (inPhase .closing).phase = .closing := by decide

/-- In range at both ends: 0, -0 and 1. -/
theorem witness_PackedWordGivesTheChannelsBack :
    inrange 0x00000000 = true ∧ inrange 0x80000000 = true ∧ inrange 0x3F800000 = true := by decide

theorem witness_QuantizerReachesItsMaximumOnlyAtOne :
    inrange 0x3F800000 = true ∧ quant 0x3F800000 31 = 31 ∧ inrange 0x3F7FFFFF = true ∧ quant 0x3F7FFFFF 63 = 62 ∧
    inrange 0x80000000 = true := by decide

theorem witness_QuantizerIsMonotone :
    inrange 0x3F000000 = true ∧ inrange 0x3F800000 = true ∧ f32Le 0x3F000000 0x3F800000 = true ∧
    inrange 0x80000000 = true ∧ f32Le 0x00000000 0x80000000 = true := by decide

/-- (1 + 2^-23) * 1.5 lies halfway between two numbers; the even one is the product. -/
theorem witness_FmulIsTheNearestNumber :
    f32IsFinite 0x3F800001 = true ∧ f32IsFinite 0x3FC00000 = true ∧ fmul 0x3F800001 0x3FC00000 = 0x3FC00002 ∧
    f32IsFinite 0x3FC00002 = true ∧ f32IsFinite 0x3FC00001 = true ∧
    |f32Val 0x3FC00002 - f32Val 0x3F800001 * f32Val 0x3FC00000| = |f32Val 0x3FC00001 - f32Val 0x3F800001 * f32Val 0x3FC00000| ∧
    f32Val 0x3FC00001 ≠ f32Val 0x3FC00002 := by decide +kernel

/-- 1 + 2^-24 lies halfway between 1 and the next number. -/
theorem witness_FaddAndFsubAreTheNearestNumber :
    f32IsFinite 0x3F800000 = true ∧ f32IsFinite 0x33800000 = true ∧ f32IsFinite 0xB3800000 = true ∧
    fadd 0x3F800000 0x33800000 = 0x3F800000 ∧ fsub 0x3F800000 0xB3800000 = 0x3F800000 ∧ f32IsFinite 0x3F800001 = true ∧
    |f32Val 0x3F800000 - (f32Val 0x3F800000 + f32Val 0x33800000)| = |f32Val 0x3F800001 - (f32Val 0x3F800000 + f32Val 0x33800000)| ∧
    f32Val 0x3F800001 ≠ f32Val 0x3F800000 := by decide +kernel

/-- Phases and coordinates of the statements about the framebuffer in bounds, at the first and the last cell. -/
theorem witness_GetpixelAnswersTheCell :
    (off []).phase = .off ∧ (readyPainted []).phase = .ready ∧ (inPhase .closed).phase = .closed ∧
    (0 : Int) ≤ 0 ∧ (0 : Int) < (readyPainted []).cfg.fbW ∧ (0 : Int) ≤ 1 ∧ (1 : Int) < (readyPainted []).cfg.fbH := by decide

theorem witness_OverwrittenCellReadsBack :
    (readyPainted []).fb.wf ∧ (readyPainted []).phase = .ready ∧ (0 : Int) ≤ 1 ∧ (1 : Int) < (readyPainted []).cfg.fbW ∧
    (1 : Int) < (readyPainted []).cfg.fbH := by decide

theorem witness_SetpixelOverWritesOneCell :
    (off []).fb.wf ∧ (off []).phase = .off ∧ (0 : Int) ≤ 0 ∧ (0 : Int) < (off []).cfg.fbW ∧ (0 : Int) < (off []).cfg.fbH := by decide

theorem witness_SetpixelBlendWritesOneCell :
    (readyPainted []).fb.wf ∧ (readyPainted []).phase = .ready ∧ (0 : Int) ≤ 1 ∧ (1 : Int) < (readyPainted []).cfg.fbW ∧
    (0 : Int) < (readyPainted []).cfg.fbH := by decide

/-- The largest finite number, a small one, and both zeros as weight. -/
theorem witness_ZeroWeightBlendKeepsTheChannel :
    f32IsFinite 0x7F7FFFFF = true ∧ f32IsFinite (fsub 0x3F800000 0x7F7FFFFF) = true ∧ f32IsZero 0x00000000 = true ∧
    f32IsZero 0x80000000 = true ∧ f32IsFinite 0x80000000 = true ∧ f32IsFinite (fsub 0x00000001 0x80000000) = true := by decide

theorem witness_FullWeightBlendOnZeroGivesTheNewChannel :
    f32IsZero 0x00000000 = true ∧ f32IsZero 0x80000000 = true ∧ f32IsFinite 0x7F7FFFFF = true ∧ f32IsFinite 0x80000000 = true ∧
    f32IsFinite 0x00000001 = true := by decide

theorem witness_NaNWeightBlendGivesNaN : f32IsNaN (⟨0x3F800000, 0, 0, 0x7FC00000⟩ : Color).a = true := by decide

theorem witness_NaNAndInfinityResults :
    f32IsNaN 0x7FC00000 = true ∧ f32IsNaN 0xFF800001 = true ∧ f32IsInf 0x7F800000 = true ∧ f32IsInf 0xFF800000 = true ∧
    f32IsZero 0x80000000 = true ∧ f32IsNaN 0x00000001 = false ∧ f32IsZero 0x00000001 = false ∧
    f32Sign 0x7F800000 ≠ f32Sign 0xFF800000 ∧ f32IsFinite 0x7F7FFFFF = true ∧ f32IsFinite 0x7F800000 = false := by decide

/-- The largest finite number doubled overflows, and added to half its last place; just below that half it does not. Then the signs
of exact zeros. -/
theorem witness_OverflowAndSigns :
    f32IsFinite 0x7F7FFFFF = true ∧ f32IsFinite 0x40000000 = true ∧ fmul 0x7F7FFFFF 0xC0000000 = 0xFF800000 ∧
    f32IsFinite 0x73000000 = true ∧ fadd 0x7F7FFFFF 0x73000000 = 0x7F800000 ∧ fadd 0x7F7FFFFF 0x72FFFFFF = 0x7F7FFFFF ∧
    f32IsFinite 0x80000000 = true ∧ fadd 0x80000000 0x80000000 = 0x80000000 ∧ fadd 0x3F800000 0xBF800000 = 0x00000000 ∧
    fsub 0x80000000 0x00000000 = 0x80000000 ∧ fsub 0x3F800000 0x3F800000 = 0x00000000 ∧
    fmul 0x80000000 0x3F800000 = 0x80000000 := by decide +kernel

theorem witness_CoordinatesAndAddressesAgree :
    inBounds smallCfg 0 0 = true ∧ inBounds smallCfg 1 1 = true ∧ cellAddr smallCfg 1 1 = 3 ∧ 3 < smallCfg.fbW * smallCfg.fbH := by
  decide

/-- Out of bounds just past each edge, PRESENTING, HALTED. -/
theorem witness_PixelOperationsRefused :
    (off []).phase = .off ∧ (∀ p ∈ ([(2, 0), (0, 2), (-1, 0), (0, -1)] : List (Int × Int)),
      ¬(0 ≤ p.1 ∧ p.1 < (off []).cfg.fbW ∧ 0 ≤ p.2 ∧ p.2 < (off []).cfg.fbH)) ∧
    (inPhase .presenting).phase = .presenting ∧ (inPhase .halted).phase = .halted := by decide

theorem witness_CallOnAClosedResourceFails :
    (off (oks 1)).phase ≠ .halted ∧ openFlag (Line.resource .cs) (off (oks 1)) = false ∧
    openFlag (Line.resource .dc) (off (oks 1)) = false ∧ openFlag (Line.resource .rst) (off (oks 1)) = false ∧
    (off (oks 1)).spiOpen = false ∧ (midPixel 1).phase ≠ .halted ∧ { midPixel 1 with spiOpen := false }.spiOpen = false ∧
    0 < (midPixel 1).pixctr := by decide

/-- Both kinds of failure, everything open, a pixel next. -/
theorem witness_FailureChosenByEnvIsRecorded :
    (∀ a ∈ [Answer.fail, .invalidHandle], { midPixel 1 with env := [a] }.phase ≠ .halted ∧
      envAnswer { midPixel 1 with env := [a] } ≠ .ok ∧ 0 < { midPixel 1 with env := [a] }.pixctr) ∧
    Resource.spi ≠ .cs ∧ Resource.dc ≠ .cs ∧ Resource.rst ≠ .cs := by decide

theorem witness_OnlyAFailedChipSelectOpenHalts :
    (off [.fail]).phase ≠ .halted ∧ envAnswer (off [.fail]) ≠ .ok ∧ envAnswer (off [.invalidHandle]) ≠ .ok := by decide

/-- The conditions under which a sequencer word succeeds. -/
theorem witness_SendcSendsACommandByte :
    betweenOps (ready (oks 4)) ∧ (ready (oks 4)).phase ≠ .halted ∧ (ready (oks 4)).spiOpen = true ∧ (ready (oks 4)).csOpen = true ∧
    (ready (oks 4)).dcOpen = true ∧ answersOk 4 (ready (oks 4)) := by decide

theorem witness_SenddSendsADataByte :
    betweenOps (ready (oks 5)) ∧ (ready (oks 5)).phase ≠ .halted ∧ (ready (oks 5)).spiOpen = true ∧ (ready (oks 5)).csOpen = true ∧
    (ready (oks 5)).dcOpen = true ∧ answersOk 4 (ready (oks 5)) := by decide

theorem witness_PanelCommandsSendTheirByte :
    betweenOps (readyPainted (oks 4)) ∧ (readyPainted (oks 4)).phase ≠ .halted ∧ (readyPainted (oks 4)).spiOpen = true ∧
    (readyPainted (oks 4)).csOpen = true ∧ (readyPainted (oks 4)).dcOpen = true ∧ answersOk 4 (readyPainted (oks 4)) := by decide

theorem witness_WordsAttemptTheirCallsWhateverEnvAnswers : (off [.fail, .ok, .invalidHandle]).phase ≠ .halted := by decide

theorem witness_WordsFrame :
    betweenOps (ready [.fail]) ∧ betweenOps (inPhase .halted) ∧ ∃ t, exec (decodeW9 0x105) (ready [.fail]) = .next t :=
  ⟨by decide, by decide, _, rfl⟩

theorem witness_WordsReachThePanel :
    (ready (oks 4)).cfg.dcCmd = false ∧ (ready (oks 4)).cfg.dcData = true ∧ betweenOps (ready (oks 4)) ∧
    (ready (oks 4)).phase ≠ .halted ∧ answersOk 4 (ready (oks 4)) ∧ (ready (oks 4)).spiOpen = true ∧ (ready (oks 4)).csOpen = true ∧
    (ready (oks 4)).dcOpen = true ∧ rx (ready (oks 4)).cfg (ready (oks 4)).trace = some [] := by decide

theorem witness_StartBringsTheBlockToReady :
    (off (oks 17)).phase = .off ∧ answersOk (9 + 4 * (off (oks 17)).cfg.initWords.length) (off (oks 17)) ∧
    (off (oks 17)).cfg.lawInitLast = true := by decide

/-- The second call answered "ok", and each of the two ways it can fail. -/
theorem witness_StartEndsWhateverEnvAnswers :
    (off [.fail, .ok]).phase = .off ∧ envAnswer (envNext (off [.fail, .ok])) = .ok ∧
    envAnswer (envNext (off [.ok, .fail])) ≠ .ok ∧ envAnswer (envNext (off [.ok, .invalidHandle])) ≠ .ok := by decide

theorem witness_StartRefusedOutsideOff :
    (inPhase .init).phase ≠ .off ∧ betweenOps (inPhase .closed) ∧ (inPhase .closed).phase = .closed ∧
    betweenOps (inPhase .halted) ∧ (inPhase .halted).phase = .halted ∧
    (∃ t, step { inPhase .closed with input := [⟨0x8, []⟩] } = .next t) ∧
    (∃ t, step { inPhase .halted with input := [⟨0x8, []⟩] } = .next t) :=
  ⟨by decide, by decide, by decide, by decide, by decide, ⟨_, rfl⟩, ⟨_, rfl⟩⟩

theorem witness_StartSendsTheInitTable :
    (off (oks 17)).phase = .off ∧ (off (oks 17)).trace = [] ∧ (off (oks 17)).cfg.dcCmd = false ∧ (off (oks 17)).cfg.dcData = true ∧
    answersOk (9 + 4 * (off (oks 17)).cfg.initWords.length) (off (oks 17)) := by decide

/-- The first and the last word of the table. -/
theorem witness_RomWordRunsAsItsInstruction :
    ∀ p ∈ ([(0, 0x011), (1, 0x029)] : List (Nat × W9)),
      (midInit p.1).phase = .init ∧ (midInit p.1).prog = startProg (midInit p.1).cfg ∧ (midInit p.1).pc = 9 + 4 * p.1 ∧
      (midInit p.1).cfg.initWords[p.1]? = some p.2 := by decide

theorem witness_SmallStepsMakeTheWholeOperation :
    (off [.fail, .ok]).phase = .off ∧ envAnswer (envNext (off [.fail, .ok])) = .ok ∧
    envAnswer (envNext (off [.ok, .fail])) ≠ .ok ∧ (ready [.fail]).phase = .ready ∧
    (ready [.fail]).cfg.fbW = (ready [.fail]).cfg.panelW ∧ (ready [.fail]).cfg.fbH = (ready [.fail]).cfg.panelH := by decide

theorem witness_PresentStreamsTheFrame :
    (readyPainted (oks 51)).phase = .ready ∧ (readyPainted (oks 51)).cfg.fbW = (readyPainted (oks 51)).cfg.panelW ∧
    (readyPainted (oks 51)).cfg.fbH = (readyPainted (oks 51)).cfg.panelH ∧ (readyPainted (oks 51)).spiOpen = true ∧
    (readyPainted (oks 51)).csOpen = true ∧ (readyPainted (oks 51)).dcOpen = true ∧
    answersOk (47 + (readyPainted (oks 51)).cfg.nPix) (readyPainted (oks 51)) := by decide +kernel

theorem witness_PresentAttemptsEveryCall :
    (readyPainted [.fail]).phase = .ready ∧ (readyPainted [.fail]).cfg.fbW = (readyPainted [.fail]).cfg.panelW ∧
    (readyPainted [.fail]).cfg.fbH = (readyPainted [.fail]).cfg.panelH := by decide

theorem witness_PresentRefused :
    (inPhase .closed).phase ≠ .ready ∧ (ready []).phase = .ready ∧
    ({ smallCfg with fbW := 1, fbH := 4 } : Cfg).fbW ≠ ({ smallCfg with fbW := 1, fbH := 4 } : Cfg).panelW := by decide

theorem witness_PanelReceivesTheFrame :
    (readyPainted (oks 51)).phase = .ready ∧ (readyPainted (oks 51)).cfg.fbW = (readyPainted (oks 51)).cfg.panelW ∧
    (readyPainted (oks 51)).cfg.fbH = (readyPainted (oks 51)).cfg.panelH ∧ (readyPainted (oks 51)).spiOpen = true ∧
    (readyPainted (oks 51)).csOpen = true ∧ (readyPainted (oks 51)).dcOpen = true ∧
    (readyPainted (oks 51)).cfg.dcCmd = false ∧ (readyPainted (oks 51)).cfg.dcData = true ∧
    answersOk (47 + (readyPainted (oks 51)).cfg.nPix) (readyPainted (oks 51)) ∧
    rx (readyPainted (oks 51)).cfg (readyPainted (oks 51)).trace = some [] := by decide +kernel

/-- A framebuffer that differs from another in one cell's alpha. -/
theorem witness_AlphaNeverReachesTheWire :
    ({ ready [.fail] with fb := [(0, ⟨0, 0, 0, 0x3F800000⟩)] } : State).phase = .ready ∧
    ∀ a, (Memory.read [] a).r = (Memory.read [(0, ⟨0, 0, 0, 0x3F800000⟩)] a).r ∧
      (Memory.read [] a).g = (Memory.read [(0, ⟨0, 0, 0, 0x3F800000⟩)] a).g ∧
      (Memory.read [] a).b = (Memory.read [(0, ⟨0, 0, 0, 0x3F800000⟩)] a).b := by
  refine ⟨rfl, fun a => ?_⟩
  cases a <;> simp [Memory.read, Memory.unlisted, Color.zero]

theorem witness_EventCounts :
    (off (oks 17)).phase = .off ∧ answersOk (9 + 4 * (off (oks 17)).cfg.initWords.length) (off (oks 17)) ∧
    (readyPainted (oks 51)).phase = .ready ∧ (readyPainted (oks 51)).cfg.fbW = (readyPainted (oks 51)).cfg.panelW ∧
    (readyPainted (oks 51)).cfg.fbH = (readyPainted (oks 51)).cfg.panelH ∧ (readyPainted (oks 51)).spiOpen = true ∧
    (readyPainted (oks 51)).csOpen = true ∧ (readyPainted (oks 51)).dcOpen = true ∧
    answersOk (47 + (readyPainted (oks 51)).cfg.nPix) (readyPainted (oks 51)) ∧
    (readyPainted (oks 51)).cfg.csActive ≠ (readyPainted (oks 51)).cfg.csIdle := by decide +kernel

/-- A history for which `levels` is defined, and one with a failed event. -/
theorem witness_LevelsDoNotSeeBatching :
    levels [.pin .cs false .ok, .pin .dc true .ok, .xfer [1] .ok, .xfer [2] .ok] =
      some [.pin .cs false .ok, .pin .dc true .ok, .xfer [1, 2] .ok] ∧
    levels [.pin .cs false (.fail .writeFailure)] = none := by decide

theorem witness_CloseReleasesWhatIsOpen : (ready []).phase = .ready ∧ (ready []).spiOpen = true := by decide

theorem witness_CloseRefusedOutsideReady : (inPhase .closed).phase ≠ .ready ∧ (inPhase .off).phase ≠ .ready := by decide

theorem witness_StepKeepsTheMemoryInTheGrid :
    memoryInGrid (readyPainted []) ∧
    ∃ t, step { readyPainted [] with input := [⟨0x3, [.int 1, .int 1, .color ⟨1, 1, 1, 1⟩]⟩] } = .next t :=
  ⟨by decide, _, rfl⟩

theorem witness_HistoryAndMarksOnlyGrow : ∃ t, step { ready [.fail] with input := [⟨0x9, []⟩] } = .next t := ⟨_, rfl⟩

theorem witness_NoStepReturnsToOff :
    (ready []).phase ≠ .off ∧ ∃ t, step { ready [] with input := [⟨0xA, []⟩] } = .next t := ⟨by decide, _, rfl⟩

theorem witness_HaltedIsTerminal : (inPhase .halted).phase = .halted := by decide

theorem witness_FailureFreeHistoryIsSuccessful :
    ((ready (oks 4)).fault = [] → allOk (ready (oks 4)).trace) ∧ closedLinesUndriven (ready (oks 4)) ∧
    ∃ t, step { ready (oks 4) with testPort := .placed 0x105 } = .next t := ⟨by decide, by decide, _, rfl⟩

theorem witness_HostCannotSendItsOwnBytes :
    decode (HostWord.fetched ⟨0x9, []⟩) = .ok .present ∧ hostRun { readyPainted (oks 51) with input := [⟨0x9, []⟩] } ∧
    (∃ t, step { readyPainted (oks 51) with input := [⟨0x9, []⟩] } = .next t) ∧
    hostRun { midPixel 4 with fb := painted } ∧ (∃ t, step { midPixel 4 with fb := painted } = .next t) :=
  ⟨by decide, ⟨rfl, by simp [readyPainted, ready, State.reset]⟩, ⟨_, rfl⟩, ⟨rfl, by simp [midPixel]⟩, ⟨_, rfl⟩⟩

/-- A state of the invariant that is not reset: READY, a picture in the framebuffer, words waiting. -/
theorem witness_EveryStepKeepsTheInvariant : Inv { readyPainted (oks 51) with input := [⟨0x9, []⟩, ⟨0xA, []⟩], testPort := .placed 0x105 } where
  between := by decide
  memory := by decide
  undriven := by decide
  closedLines := by decide
  ready := by decide
  haltedFailed := by decide
  nothingOpen := by decide
  okTrace := by decide
  faultSet := by decide

end Sys2Proof.Machine.Tests
end

namespace Sys2Proof.Machine

/-! ## Reset and the choice of the next step -/

/-- Settles O8: the values R38 names, and a step that finds nothing to fetch. -/
theorem resetLeavesTheBlockOff : Obligations.ResetLeavesTheBlockOff :=
  ⟨rfl, rfl, rfl, rfl, rfl, rfl, rfl, rfl, rfl, rfl, rfl, rfl, rfl, rfl, rfl, rfl, rfl⟩

/-- Settles O56: every clause of the invariant is decided on the one state. -/
theorem resetMeetsTheInvariant : Obligations.ResetMeetsTheInvariant where
  between := by decide
  memory := by decide
  undriven := by decide
  closedLines := by decide
  ready := by decide
  haltedFailed := by decide
  nothingOpen := by decide
  okTrace := by decide
  faultSet := by decide

/-- Settles O6: each clause picks its branch of `step`. -/
theorem stepRunsTheDecodedInstruction : Obligations.StepRunsTheDecodedInstruction := by
  constructor
  · intro s w rest i ⟨hrun, hport⟩ hin hdec
    unfold step
    rcases hport with hport | hport <;> simp [hrun, hport, hin, hdec]
  · intro s w i hrun hport hdec
    obtain rfl : decodeW9 w = i := Except.ok.inj hdec
    simp [step, hrun, hport]

/-- A pixel transfer whose cell does not exist stops the machine (log 18). -/
theorem step_xferpx_noCell {s : State} (hp : s.phase ≠ .halted) (hm : s.prog[s.pc]? = some .xferpx)
    (hc : ¬(0 < s.pixctr ∧ s.pixctr ≤ fbSize s.cfg)) : step s = .fault .noSuchCell := by
  have hl : s.pc < s.prog.length := (List.getElem?_eq_some_iff.1 hm).1
  have hr : running s = true := by simp [running, hp, hl]
  have hn : nextOp s = some .xferpx := by simp only [nextOp, hr, if_true, hm]
  have hx : pixelCellExists s = false := decide_eq_false hc
  unfold step
  rw [if_pos hr, seqOutcome, if_pos ⟨hn, hx⟩]

/-- Settles O7: the cell of the pixel exists (`step_of`) or it does not. -/
theorem stepPerformsTheNextMicroOperation : Obligations.StepPerformsTheNextMicroOperation := by
  intro s m hp hm
  refine ⟨step_of hp hm, ?_⟩
  rintro rfl hc
  exact step_xferpx_noCell hp hm hc

end Sys2Proof.Machine

namespace Sys2Proof.Machine

/-! ## What only grows -/

/-- From `s` to `t` the configuration and the undriven lines are the same, and history and failures have grown (R17, R28, R29, R33). -/
structure Grows (s t : State) : Prop where
  cfg : t.cfg = s.cfg
  bl : t.bl = s.bl
  aux0 : t.aux0 = s.aux0
  aux1 : t.aux1 = s.aux1
  history : ∃ new, t.trace = s.trace ++ new
  failures : s.fault ⊆ t.fault

theorem Grows.refl (s : State) : Grows s s := ⟨rfl, rfl, rfl, rfl, ⟨[], by simp⟩, fun _ h => h⟩

theorem perform_grows {s t : State} (m : MicroOp) (h : Grows s t) : Grows s (perform m t) where
  cfg := by rw [perform_cfg, h.cfg]
  bl := by rw [perform_bl, h.bl]
  aux0 := by rw [perform_aux0, h.aux0]
  aux1 := by rw [perform_aux1, h.aux1]
  history := by
    obtain ⟨old, hold⟩ := h.history
    obtain ⟨new, hnew⟩ := perform_trace_grows m t
    exact ⟨old ++ new, by rw [hnew, hold, List.append_assoc]⟩
  failures := List.Subset.trans h.failures (performAll_fault [m] t)

theorem grows_keeps (s : State) : Keeps (Grows s) where
  perform m _ h := perform_grows m h
  bookkeeping _ _ _ _ _ _ _ _ _ h := ⟨h.cfg, h.bl, h.aux0, h.aux1, h.history, h.failures⟩

theorem step_grows {s t : State} (h : step s = .next t) : Grows s t :=
  (grows_keeps s).step (fun _ _ _ _ h _ => ⟨h.cfg, h.bl, h.aux0, h.aux1, h.history, h.failures⟩) (Grows.refl s) h

/-- The mark of a refusal and the test port, which no micro-operation touches. -/
def sameMarks (s t : State) : Prop := t.refused = s.refused ∧ t.testPort = s.testPort

theorem startRun_sameMarks (s : State) : sameMarks s (startRun s) := by
  unfold startRun
  dsimp only
  split <;> simp [sameMarks, beginStart]

theorem presentRun_sameMarks (s : State) : sameMarks s (presentRun s) := by
  simp [sameMarks, presentRun_eq, beginPresent]

theorem closeRun_sameMarks (s : State) : sameMarks s (closeRun s) := by
  simp [sameMarks, closeRun, beginClose]

/-- An instruction leaves the test port alone, and sets the mark of a refusal or leaves it alone (R32, R183). -/
theorem exec_marks {i : Instr} {s t : State} (h : exec i s = .next t) :
    (t.refused = true ∨ t.refused = s.refused) ∧ t.testPort = s.testPort := by
  rcases exec_cases h with ⟨w, ht⟩ | ⟨r, ht⟩ | ⟨x, y, c, -, -, ht⟩ | ⟨-, -, ht⟩ | ⟨-, -, -, -, ht⟩ | ⟨-, -, ht⟩ | ⟨w, -, ht⟩
  · exact ⟨.inl (by rw [ht]; rfl), by rw [ht]; rfl⟩
  · exact ⟨.inr (by rw [ht]), by rw [ht]⟩
  · exact ⟨.inr (by rw [ht]), by rw [ht]⟩
  · exact (ht ▸ startRun_sameMarks s : sameMarks s t).imp .inr id
  · exact (ht ▸ presentRun_sameMarks s : sameMarks s t).imp .inr id
  · exact (ht ▸ closeRun_sameMarks s : sameMarks s t).imp .inr id
  · exact ⟨.inr (by simp [ht]), by simp [ht]⟩

/-- No step clears the mark of a refusal, nor the mark that a lone word was placed (R32; log 31). -/
theorem step_marks {s t : State} (h : step s = .next t) :
    (s.refused = true → t.refused = true) ∧ (s.testPort ≠ .unused → t.testPort ≠ .unused) := by
  rcases step_cases h with ⟨m, -, -, -, rfl⟩ | ⟨-, -, rfl⟩ | ⟨w, rest, e, -, -, -, rfl⟩ | ⟨w, rest, i, -, -, -, hex⟩ | ⟨w, -, -, hex⟩
  · simp
  · exact ⟨id, id⟩
  · simp
  · obtain ⟨hr, hp⟩ := exec_marks hex
    exact ⟨fun hs => hr.elim id (·.trans hs), fun hs => hp ▸ hs⟩
  · obtain ⟨hr, hp⟩ := exec_marks hex
    exact ⟨fun hs => hr.elim id (·.trans hs), fun _ => by rw [hp]; simp⟩

/-- Settles O51: `step_grows` for what every micro-operation keeps, `step_marks` for the two marks. -/
theorem historyAndMarksOnlyGrow : Obligations.HistoryAndMarksOnlyGrow := by
  intro s t h
  obtain ⟨hcfg, hbl, h0, h1, hhistory, hf⟩ := step_grows h
  exact ⟨hcfg, hbl, h0, h1, hhistory, hf, step_marks h⟩

end Sys2Proof.Machine

namespace Sys2Proof.Machine

/-! ## The clauses of the invariant that do not look at the phase -/

/-- Only a call on an open resource succeeds (R115, R116). -/
theorem callResult_ok {isOpen : Bool} {own : FailKind} {a : Answer} (h : callResult isOpen own a = .ok) : isOpen = true := by
  cases a with
  | ok =>
    cases isOpen with
    | false => cases h
    | true => rfl
  | fail => cases h
  | invalidHandle => cases h

theorem callOf_closedLines (m : MicroOp) {s : State} (h : closedLinesUndriven s) : closedLinesUndriven (callOf m s) := by
  obtain ⟨hcs, hdc, hrst⟩ := h
  unfold closedLinesUndriven
  cases m with
  | openr r =>
    simp only [callOf, callOpen]
    split
    · cases r <;> simp_all [setOpen]
    · simp_all
  | pinw l v =>
    simp only [callOf, callPinw]
    split
    · rename_i hok
      have hopen := callResult_ok hok
      cases l <;> simp_all [setLatch, openFlag, Line.resource]
    · cases l <;> simp_all [setLatch]
  | xferb b => simpa [callOf] using ⟨hcs, hdc, hrst⟩
  | xferpx => simpa [callOf] using ⟨hcs, hdc, hrst⟩
  | relr r => cases r <;> simp_all [callOf, callRel, setOpen, setLatch]

/-- A call after which no failure is recorded adds one successful event (R33, R194). -/
theorem callOf_clean_trace {m : MicroOp} {s : State} (h : (callOf m s).fault = []) :
    ∃ e, (callOf m s).trace = s.trace ++ [e] ∧ (e.result = some .ok ∨ e.result = none ∧ e ≠ .halt) := by
  cases m
  case relr r => exact ⟨.rel r, by cases r <;> rfl, .inr ⟨rfl, by simp⟩⟩
  all_goals
    simp only [callOf, callOpen, callPinw, callXferpx, callXfer] at h ⊢
    split at h
    · rename_i hok
      rw [hok]
      exact ⟨_, by simp; rfl, .inl rfl⟩
    · exact absurd (by simpa using h) (addFailure_ne_nil _ _)

theorem callOf_okTrace (m : MicroOp) {s : State} (h : s.fault = [] → allOk s.trace) (hf : (callOf m s).fault = []) :
    allOk (callOf m s).trace := by
  obtain ⟨e, ht, he⟩ := callOf_clean_trace hf
  rw [ht]
  intro x hx
  rcases List.mem_append.1 hx with hx | hx
  · exact h (callOf_clean hf).1 x hx
  · rwa [List.mem_singleton.1 hx]

theorem callOf_faultSet (m : MicroOp) {s : State} (h : s.fault.Nodup) : (callOf m s).fault.Nodup := by
  rcases callOf_fault m s with hf | ⟨f, hf⟩ <;> rw [hf]
  · exact h
  · exact addFailure_nodup h

/-- What `Inv` says whatever the phase is. -/
structure Steady (s : State) : Prop where
  memory : memoryInGrid s
  undriven : undrivenLines s
  closedLines : closedLinesUndriven s
  okTrace : s.fault = [] → allOk s.trace
  faultSet : s.fault.Nodup

theorem callOf_steady (m : MicroOp) {s : State} (h : Steady s) : Steady (callOf m s) where
  memory := by simpa [memoryInGrid] using h.memory
  undriven := by simpa [undrivenLines] using h.undriven
  closedLines := callOf_closedLines m h.closedLines
  okTrace := callOf_okTrace m h.okTrace
  faultSet := callOf_faultSet m h.faultSet

/-- The clauses do not speak of the bookkeeping fields. -/
theorem Steady.bookkeeping {s : State} (h : Steady s) (ph : Phase) (pr : List MicroOp) (pc : Nat) (r : Reply)
    (i : List HostWord) (tp : TestPort) (rf : Bool) (px : Nat) :
    Steady { s with phase := ph, prog := pr, pc := pc, reply := r, input := i, testPort := tp, refused := rf, pixctr := px } :=
  ⟨h.memory, h.undriven, h.closedLines, h.okTrace, h.faultSet⟩

theorem perform_steady (m : MicroOp) {s : State} (h : Steady s) : Steady (perform m s) := by
  by_cases hp : s.phase = .halted
  · rwa [perform_halted hp]
  have hc := callOf_steady m h
  by_cases hh : haltsOn m s
  · rwa [perform_halting hp hh]
  · rw [perform_going hp hh]
    exact ⟨hc.memory, hc.undriven, hc.closedLines, hc.okTrace, hc.faultSet⟩

theorem steady_keeps : Keeps Steady where
  perform m _ h := perform_steady m h
  bookkeeping _ ph pr pc r i tp rf px h := h.bookkeeping ph pr pc r i tp rf px

/-- Writing a cell in bounds keeps the memory in the grid (R39, R48). -/
theorem write_memoryInGrid {s : State} {x y : Int} (c : Color) (h : memoryInGrid s) (hb : inBounds s.cfg x y = true) :
    memoryInGrid { s with fb := s.fb.write (cellAddr s.cfg x y) c } := by
  refine ⟨Memory.write_wf h.1 _ c, fun p hp => ?_⟩
  rcases Memory.mem_write hp with hp | ⟨rfl, -⟩
  · exact h.2 p hp
  · exact cellAddr_lt hb

theorem exec_steady {i : Instr} {s t : State} (h : Steady s) (ht : exec i s = .next t) : Steady t :=
  steady_keeps.exec
    (fun _ _ _ c h hb => ⟨write_memoryInGrid c h.memory hb, h.undriven, h.closedLines, h.okTrace, h.faultSet⟩) h ht

/-! ## The end of a host operation -/

/-- The end of a host operation, in the phase it leads to (R26). -/
def completed (ph : Phase) (u : State) : State := { u with phase := ph, prog := [], pc := 0, reply := .done }

@[simp] theorem completed_phase (ph : Phase) (u : State) : (completed ph u).phase = ph := rfl
@[simp] theorem completed_prog (ph : Phase) (u : State) : (completed ph u).prog = [] := rfl
@[simp] theorem completed_pc (ph : Phase) (u : State) : (completed ph u).pc = 0 := rfl
@[simp] theorem completed_cfg (ph : Phase) (u : State) : (completed ph u).cfg = u.cfg := rfl
@[simp] theorem completed_fb (ph : Phase) (u : State) : (completed ph u).fb = u.fb := rfl
@[simp] theorem completed_fault (ph : Phase) (u : State) : (completed ph u).fault = u.fault := rfl
@[simp] theorem completed_trace (ph : Phase) (u : State) : (completed ph u).trace = u.trace := rfl
@[simp] theorem linesOf_completed (ph : Phase) (u : State) : linesOf (completed ph u) = linesOf u := rfl
@[simp] theorem openFlag_completed (r : Resource) (ph : Phase) (u : State) : openFlag r (completed ph u) = openFlag r u := by
  cases r <;> rfl

theorem finish_init {u : State} (h : u.phase = .init) : finish u = completed .ready u := by simp [finish, h, completed]
theorem finish_presenting {u : State} (h : u.phase = .presenting) : finish u = completed .ready u := by simp [finish, h, completed]
theorem finish_closing {u : State} (h : u.phase = .closing) : finish u = completed .closed u := by simp [finish, h, completed]

theorem presentRun_completed (s : State) :
    presentRun s = completed .ready (performAll (presentProg s.cfg) (beginPresent s)) := presentRun_eq s

theorem closeRun_completed (s : State) : closeRun s = completed .closed (performAll (closeProg s) (beginClose s)) := by
  simp only [closeRun, completed]

/-! ## START, whatever ENV answers -/

/-- ENV's second answer is the same once `START` is issued. -/
theorem envAnswer_beginStart (s : State) : envAnswer (envNext (beginStart s)) = envAnswer (envNext s) := by
  cases h : s.env <;> simp [envAnswer, envNext, beginStart, h]

/-- The end of the construct program (R26). -/
def enterInit (u : State) : State := { u with phase := .init }

@[simp] theorem enterInit_phase (u : State) : (enterInit u).phase = .init := rfl
@[simp] theorem enterInit_prog (u : State) : (enterInit u).prog = u.prog := rfl
@[simp] theorem enterInit_pc (u : State) : (enterInit u).pc = u.pc := rfl
@[simp] theorem enterInit_fault (u : State) : (enterInit u).fault = u.fault := rfl
@[simp] theorem enterInit_trace (u : State) : (enterInit u).trace = u.trace := rfl
@[simp] theorem linesOf_enterInit (u : State) : linesOf (enterInit u) = linesOf u := rfl

/-- The state `START` leads to after its construct program, when chip-select is opened. -/
def afterConstruct (s : State) : State := enterInit (performAll (constructProg s.cfg) (beginStart s))

@[simp] theorem afterConstruct_phase (s : State) : (afterConstruct s).phase = .init := enterInit_phase _

/-- Chip-select is not opened: `START` is its construct program, and that halts (R141, R173). -/
theorem startRun_halting {s : State} (ha : envAnswer (envNext s) ≠ .ok) :
    startRun s = performAll (constructProg s.cfg) (beginStart s) := by
  have hp : (beginStart s).phase ≠ .halted := by simp [beginStart]
  have hh := ((performAll_construct hp).2 (by rwa [envAnswer_beginStart])).2.1
  unfold startRun
  exact if_pos hh

/-- Chip-select is opened: the init program follows, and READY (R129, R141). -/
theorem startRun_going {s : State} (ha : envAnswer (envNext s) = .ok) :
    startRun s = completed .ready (performAll (initProg s.cfg) (afterConstruct s)) := by
  have hp : (beginStart s).phase ≠ .halted := by simp [beginStart]
  have hph := ((performAll_construct hp).1 (by rwa [envAnswer_beginStart])).1
  unfold startRun
  exact if_neg (fun hh => hp (hph.symm.trans hh))

theorem initProg_plain (c : Cfg) : MicroOp.openr .cs ∉ initProg c ∧ MicroOp.xferpx ∉ initProg c := by
  simp [initProg, resetProg, execWords_plain]

/-- The lines after a `START` in which no call failed (R132, R140). -/
theorem startRun_lines {s : State} (ha : envAnswer (envNext s) = .ok) (hf : (startRun s).fault = []) :
    linesOf (startRun s) = ⟨true, true, true, true, Level.ofBit s.cfg.csIdle,
      wordsDc s.cfg (Level.ofBit s.cfg.dcIdle) s.cfg.initWords, .high⟩ := by
  rw [startRun_going ha, completed_fault] at hf
  obtain ⟨hf1, hl1⟩ := performAll_clean (initProg s.cfg) (s := afterConstruct s) (by simp) hf
  rw [afterConstruct, enterInit_fault] at hf1
  obtain ⟨-, hl0⟩ := performAll_clean (constructProg s.cfg) (s := beginStart s) (by simp [beginStart]) hf1
  rw [startRun_going ha, linesOf_completed, hl1, afterConstruct, linesOf_enterInit, hl0, initProg, List.foldl_append]
  exact apply_words s.cfg s.cfg.initWords rfl

/-! ## PRESENT and CLOSE, whatever ENV answers -/

/-- The lines after a `PRESENT` in which no call failed, from chip-select at idle (R153). -/
theorem presentRun_lines {s : State} (hcs : s.cs = Level.ofBit s.cfg.csIdle) (hf : (presentRun s).fault = []) :
    linesOf (presentRun s) = { linesOf s with ldc := Level.ofBit s.cfg.dcData } := by
  rw [presentRun_completed] at hf ⊢
  rw [completed_fault] at hf
  obtain ⟨-, hl⟩ := performAll_clean (presentProg s.cfg) (s := beginPresent s) (by simp [beginPresent]) hf
  have hsetup : ∀ v : Lines, (streamSetupProg s.cfg).foldl Lines.apply v =
      { v with lcs := Level.ofBit s.cfg.csActive, ldc := Level.ofBit s.cfg.dcData } := by
    intro v
    unfold streamSetupProg
    split <;> rfl
  rw [linesOf_completed, hl, presentProg, List.foldl_append, List.foldl_append, List.foldl_append,
    apply_words (v := linesOf (beginPresent s)) s.cfg _ hcs, hsetup, apply_pixels]
  simp [Lines.apply, linesOf, beginPresent, hcs]

/-- The open flags after a release (R117). -/
theorem openFlag_perform_relr {s : State} (hp : s.phase ≠ .halted) (q r : Resource) :
    openFlag r (perform (.relr q) s) = (openFlag r s && decide (r ≠ q)) := by
  rw [perform_going hp (by simp [haltsOn])]
  cases q <;> cases r <;> simp [openFlag, callOf, callRel, setOpen, setLatch]

/-- The open flags after a list of releases. -/
theorem openFlag_releases (r : Resource) (rs : List Resource) : ∀ {s : State}, s.phase ≠ .halted →
    openFlag r (performAll (rs.map .relr) s) = (openFlag r s && decide (r ∉ rs)) := by
  induction rs with
  | nil => intro s _; simp
  | cons q rs ih =>
    intro s hp
    have hp' : (perform (.relr q) s).phase ≠ .halted := by
      rw [(perform_attempts hp (by simp [haltsOn])).2.2.2]; exact hp
    rw [List.map_cons, performAll_cons, ih hp', openFlag_perform_relr hp]
    by_cases h1 : r = q <;> by_cases h2 : r ∈ rs <;> simp [h1, h2]

/-- `CLOSE` leaves nothing open (R164). -/
theorem closeRun_openFlag (s : State) (r : Resource) : openFlag r (closeRun s) = false := by
  have hissued : openFlag r (beginClose s) = openFlag r s := by cases r <;> rfl
  rw [closeRun_completed, openFlag_completed, closeProg, openFlag_releases r _ (by simp [beginClose]), hissued]
  cases h : openFlag r s <;> cases r <;> simp [h]

/-! ## The invariant between operations -/

/-- What `Inv` says of a phase. -/
structure PhaseOk (s : State) : Prop where
  between : betweenOps s
  ready : readyLines s
  haltedFailed : s.phase = .halted → s.fault ≠ []
  nothingOpen : s.phase = .off ∨ s.phase = .closed →
    s.spiOpen = false ∧ s.csOpen = false ∧ s.dcOpen = false ∧ s.rstOpen = false

theorem inv_iff (s : State) : Inv s ↔ Steady s ∧ PhaseOk s :=
  ⟨fun h => ⟨⟨h.memory, h.undriven, h.closedLines, h.okTrace, h.faultSet⟩, ⟨h.between, h.ready, h.haltedFailed, h.nothingOpen⟩⟩,
    fun ⟨a, b⟩ => ⟨b.between, a.memory, a.undriven, a.closedLines, b.ready, b.haltedFailed, b.nothingOpen, a.okTrace, a.faultSet⟩⟩

/-- No clause speaks of the memory, the script, the test port, the answer, or the mark of a refusal. -/
theorem PhaseOk.frame {s : State} (h : PhaseOk s) (m : Memory) (i : List HostWord) (tp : TestPort) (r : Reply) (rf : Bool) :
    PhaseOk { s with fb := m, input := i, testPort := tp, reply := r, refused := rf } :=
  ⟨h.between, h.ready, h.haltedFailed, h.nothingOpen⟩

theorem startRun_phaseOk (s : State) : PhaseOk (startRun s) := by
  by_cases ha : envAnswer (envNext s) = .ok
  · have hl := startRun_lines ha
    have hcfg : (startRun s).cfg = s.cfg := ((grows_keeps s).startRun (Grows.refl s)).cfg
    have hph : (startRun s).phase = .ready := by rw [startRun_going ha, completed_phase]
    refine ⟨?_, ?_, by simp [hph], by simp [hph]⟩
    · rw [startRun_going ha]; exact ⟨rfl, .inr (.inl rfl), fun _ => rfl⟩
    · intro _ hf
      have hdc := wordsDc_driven s.cfg s.cfg.dcIdle s.cfg.initWords
      have hl := hl hf
      simp only [linesOf, Lines.mk.injEq] at hl
      simp [hl, hcfg, hdc]
  · have hp : (beginStart s).phase ≠ .halted := by simp [beginStart]
    obtain ⟨-, hph, hprog, hf, -⟩ := (performAll_construct hp).2 (by rwa [envAnswer_beginStart])
    rw [show (beginStart s).cfg = s.cfg from rfl, ← startRun_halting ha] at hph hprog hf
    exact ⟨⟨hprog, by simp [hph], by simp [hph]⟩, by simp [hph], fun _ => hf, by simp [hph]⟩

theorem presentRun_phaseOk {s : State} (h : readyLines s) (hp : s.phase = .ready) : PhaseOk (presentRun s) := by
  have hph : (presentRun s).phase = .ready := by rw [presentRun_completed, completed_phase]
  have hcfg : (presentRun s).cfg = s.cfg := ((grows_keeps s).presentRun (Grows.refl s)).cfg
  refine ⟨?_, ?_, by simp [hph], by simp [hph]⟩
  · rw [presentRun_completed]; exact ⟨rfl, .inr (.inl rfl), fun _ => rfl⟩
  · intro _ hf
    have hf0 : s.fault = [] := List.subset_nil.1 (hf ▸ ((grows_keeps s).presentRun (Grows.refl s)).failures)
    obtain ⟨hspi, hcs, hdc, hrst, hlcs, hlrst, -⟩ := h hp hf0
    have hl := presentRun_lines hlcs hf
    have hdriven : ∀ b, Level.ofBit b ≠ .undriven := by decide
    simp only [linesOf, Lines.mk.injEq] at hl
    simp [hl, hcfg, hspi, hcs, hdc, hrst, hlcs, hlrst, hdriven]

theorem closeRun_phaseOk (s : State) : PhaseOk (closeRun s) := by
  have hph : (closeRun s).phase = .closed := rfl
  refine ⟨⟨rfl, .inr (.inr (.inl rfl)), fun _ => rfl⟩, by simp [hph], by simp [hph], fun _ => ?_⟩
  exact ⟨closeRun_openFlag s .spi, closeRun_openFlag s .cs, closeRun_openFlag s .dc, closeRun_openFlag s .rst⟩

/-- A lone sequencer word keeps phase and position (log 10), the open flags, and the levels of READY (R121). -/
theorem word_phaseOk {s : State} (h : PhaseOk s) (w : W9) : PhaseOk (settle (performAll (execW9 s.cfg w) s)) := by
  by_cases hp : s.phase = .halted
  · rw [performAll_halted hp, settle, if_pos hp]; exact h
  have hno : MicroOp.openr .cs ∉ execW9 s.cfg w := fun hm => ((execW9_flags s.cfg w _ hm) .cs).1 rfl
  obtain ⟨hph, hprog, -⟩ := performAll_going hno hp
  have hset := settle_between h.between hp hph hprog
  have hflag := fun r => performAll_flags (execW9_flags s.cfg w) r (s := s)
  have hclean := performAll_clean (execW9 s.cfg w) hp
  rw [apply_word] at hclean
  have hcfg := performAll_cfg (execW9 s.cfg w) s
  rw [hset]
  generalize performAll (execW9 s.cfg w) s = t at *
  obtain ⟨-, hphase, -⟩ := h.between
  refine ⟨⟨rfl, by simpa [hph] using hphase, fun _ => rfl⟩, fun hr hf => ?_, fun hh => absurd (hph ▸ hh) hp, fun ho => ?_⟩
  · obtain ⟨hf0, hl⟩ := hclean hf
    obtain ⟨hspi, hcs, hdc, hrst, -, hlrst, -⟩ := h.ready (hph ▸ hr) hf0
    have hdriven : ∀ b, Level.ofBit b ≠ .undriven := by decide
    simp only [linesOf, Lines.mk.injEq] at hl
    simp [hl, hcfg, hspi, hcs, hdc, hrst, hlrst, hdriven]
  · obtain ⟨hspi, hcs, hdc, hrst⟩ := h.nothingOpen (hph ▸ ho)
    exact ⟨(hflag .spi).trans hspi, (hflag .cs).trans hcs, (hflag .dc).trans hdc, (hflag .rst).trans hrst⟩

theorem exec_phaseOk {i : Instr} {s t : State} (h : PhaseOk s) (ht : exec i s = .next t) : PhaseOk t := by
  rcases exec_cases ht with ⟨w, e⟩ | ⟨r, e⟩ | ⟨x, y, c, -, -, e⟩ | ⟨-, -, e⟩ | ⟨-, hp, -, -, e⟩ | ⟨-, -, e⟩ | ⟨w, -, e⟩ <;> rw [e]
  · exact h.frame _ _ _ _ _
  · exact h.frame _ _ _ _ _
  · exact h.frame _ _ _ _ _
  · exact startRun_phaseOk s
  · exact presentRun_phaseOk h.ready hp
  · exact closeRun_phaseOk s
  · exact word_phaseOk h w

theorem exec_inv {i : Instr} {s t : State} (h : Inv s) (ht : exec i s = .next t) : Inv t := by
  obtain ⟨hs, hp⟩ := (inv_iff s).1 h
  exact (inv_iff t).2 ⟨exec_steady hs ht, exec_phaseOk hp ht⟩

/-- What waits in the script or the test port, and the answer of a refusal, do not matter to the invariant. -/
theorem Inv.frame {s : State} (h : Inv s) (i : List HostWord) (tp : TestPort) (r : Reply) (rf : Bool) :
    Inv { s with input := i, testPort := tp, reply := r, refused := rf } :=
  ⟨h.between, h.memory, h.undriven, h.closedLines, h.ready, h.haltedFailed, h.nothingOpen, h.okTrace, h.faultSet⟩

theorem Inv.not_running {s : State} (h : Inv s) : running s = false := by
  simp [running, h.between.1]

/-- Settles O57: between operations the step is an instruction or bookkeeping, and both keep the invariant. -/
theorem everyStepKeepsTheInvariant : Obligations.EveryStepKeepsTheInvariant := by
  intro s h
  obtain ⟨t, ht⟩ := step_next h.not_running
  refine ⟨t, ht, ?_⟩
  rcases step_cases ht with ⟨m, hr, -, -, -⟩ | ⟨-, -, rfl⟩ | ⟨w, rest, e, -, -, -, rfl⟩ | ⟨w, rest, i, -, -, -, hex⟩ | ⟨w, -, -, hex⟩
  · rw [h.not_running] at hr; cases hr
  · exact h
  · exact h.frame _ _ _ _
  · exact exec_inv (h.frame rest _ _ _) hex
  · exact exec_inv (h.frame _ .used _ _) hex

end Sys2Proof.Machine

namespace Sys2Proof.Machine

/-! ## What is attempted, whatever ENV answers -/

/-- The calls of one sequencer word (R119, R120). -/
theorem attempts_wordEvents (c : Cfg) (w : W9) : attempts (wordEvents c w) =
    if w9Flag w then [.pin .dc c.dcData, .pin .cs c.csActive, .xfer [w9Byte w], .pin .cs c.csIdle]
    else [.pin .cs c.csActive, .pin .dc c.dcCmd, .xfer [w9Byte w], .pin .cs c.csIdle] := by
  unfold wordEvents
  split <;> rfl

/-- A list of sequencer words attempts its calls and goes on (R23, R122). -/
theorem performAll_words_attempts {c : Cfg} (ws : List W9) {s : State} (hp : s.phase ≠ .halted) :
    attempts (performAll (execWords c ws) s).trace = attempts s.trace ++ attempts (wordsEvents c ws) := by
  obtain ⟨hno, hpx⟩ := execWords_plain c ws
  rw [performAll_attempts s hno hpx hp, attempts_words c s]

/-- Settles O32: the four calls of the word as a list of one word. -/
theorem wordsAttemptTheirCallsWhateverEnvAnswers : Obligations.WordsAttemptTheirCallsWhateverEnvAnswers := by
  intro s w hp
  have hw : execWords s.cfg [w] = execW9 s.cfg w := by simp
  have hev : wordsEvents s.cfg [w] = wordEvents s.cfg w := by simp
  have hno := (execWords_plain s.cfg [w]).1
  have hat := performAll_words_attempts (c := s.cfg) [w] hp
  rw [hw] at hno hat
  obtain ⟨htr, hfault, hgo⟩ := settle_keeps (performAll (execW9 s.cfg w) s)
  refine ⟨_, exec_decodeW9 w s, hgo ?_, ?_, ?_⟩
  · rw [(performAll_going hno hp).1]; exact hp
  · rw [hfault]; exact performAll_fault _ s
  · rw [htr, hat, hev, attempts_wordEvents]

/-- The calls of the reset pulse (R134). -/
def pulseAttempts : List Attempt := [.pin .rst true, .pin .rst false, .pin .rst true]

/-- The calls of the construct program (R130). -/
def constructAttempts (c : Cfg) : List Attempt :=
  [.opened .spi, .opened .cs, .opened .dc, .opened .rst, .pin .cs c.csIdle, .pin .dc c.dcIdle]

theorem attempts_startEvents (c : Cfg) : attempts (startEvents c) =
    constructAttempts c ++ pulseAttempts ++ attempts (wordsEvents c c.initWords) := by
  simp [startEvents, attempts, attemptOf, constructAttempts, pulseAttempts]

theorem exec_start {s : State} (hp : s.phase = .off) : exec .start s = .next (startRun s) := by
  simp [exec, execStart, hostOp, startCheck, hp]

theorem exec_present {s : State} (hp : s.phase = .ready) (hw : s.cfg.fbW = s.cfg.panelW) (hh : s.cfg.fbH = s.cfg.panelH) :
    exec .present s = .next (presentRun s) := by
  simp [exec, execPresent, hostOp, presentCheck, hp, hw, hh]

theorem exec_close {s : State} (hp : s.phase = .ready) : exec .close s = .next (closeRun s) := by
  simp [exec, execClose, hostOp, closeCheck, hp]

/-- The history after the init program: the three writes of the reset line, then the words (R135). -/
theorem performAll_init_attempts (c : Cfg) {s : State} (hp : s.phase ≠ .halted) :
    attempts (performAll (initProg c) s).trace = attempts s.trace
      ++ pulseAttempts ++ attempts (wordsEvents c c.initWords) := by
  have hno : MicroOp.openr .cs ∉ resetProg ∧ MicroOp.xferpx ∉ resetProg := by simp [resetProg]
  have hp' : (performAll resetProg s).phase ≠ .halted := by rw [(performAll_going hno.1 hp).1]; exact hp
  rw [initProg, performAll_append, performAll_words_attempts _ hp', performAll_attempts s hno.1 hno.2 hp]
  simp [resetProg, opAttempt, pulseAttempts]

theorem startRun_attempts {s : State} (ha : envAnswer (envNext s) = .ok) :
    attempts (startRun s).trace = attempts s.trace ++ attempts (startEvents s.cfg) := by
  have hp : (beginStart s).phase ≠ .halted := by simp [beginStart]
  obtain ⟨-, -, -, hat⟩ := (performAll_construct hp).1 (by rwa [envAnswer_beginStart])
  have hcfg : (beginStart s).cfg = s.cfg := rfl
  have htr : (beginStart s).trace = s.trace := rfl
  rw [hcfg, htr] at hat
  rw [startRun_going ha, completed_trace, performAll_init_attempts s.cfg (by simp), afterConstruct, enterInit_trace, hat,
    attempts_startEvents]
  simp only [constructAttempts, List.append_assoc]

theorem startRun_fb (s : State) : (startRun s).fb = s.fb := by
  unfold startRun
  dsimp only
  split <;> simp [beginStart]

/-- Settles O36: chip-select is opened (`startRun_going`) or `START` halts in its construct program. -/
theorem startEndsWhateverEnvAnswers : Obligations.StartEndsWhateverEnvAnswers := by
  intro s hp
  have hgrow := (grows_keeps s).startRun (Grows.refl s)
  refine ⟨startRun s, exec_start hp, startRun_fb s, hgrow.cfg, (startRun_phaseOk s).between.1, hgrow.failures, ?_, ?_⟩
  · intro ha
    exact ⟨by rw [startRun_going ha, completed_phase], startRun_attempts ha⟩
  · intro ha
    have hp' : (beginStart s).phase ≠ .halted := by simp [beginStart]
    have hcfg : (beginStart s).cfg = s.cfg := rfl
    obtain ⟨-, hph, -, hf, o, k, htr⟩ := (performAll_construct hp').2 (by rwa [envAnswer_beginStart])
    rw [hcfg] at hph hf htr
    rw [startRun_halting ha]
    exact ⟨hph, hf, o, k, htr⟩

/-- The pixels of a frame are attempted from the last cell to the first, and counted down to 0 (R151, R152). -/
theorem performAll_pixels (n : Nat) : ∀ {s : State}, s.phase ≠ .halted → s.pixctr = n →
    attempts (performAll (List.replicate n .xferpx) s).trace = attempts s.trace ++ attempts (pixelEvents s.fb n) ∧
      (performAll (List.replicate n .xferpx) s).pixctr = 0 := by
  induction n with
  | zero => intro s _ hc; exact ⟨(List.append_nil _).symm, hc⟩
  | succ n ih =>
    intro s hp hc
    have hh : ¬ haltsOn .xferpx s := by simp [haltsOn]
    obtain ⟨hat, -, -, hph⟩ := perform_attempts hp hh
    have hctr : (perform .xferpx s).pixctr = n := by rw [perform_pixctr _ s hp, if_pos rfl, hc]; rfl
    obtain ⟨hat', hctr'⟩ := ih (by rw [hph]; exact hp) hctr
    rw [List.replicate_succ, performAll_cons]
    refine ⟨?_, hctr'⟩
    rw [hat', hat, perform_fb, List.append_assoc]
    simp [opAttempt, hc, pixelEvents, attempts, attemptOf]

theorem streamSetup_attempts (c : Cfg) (t : State) :
    (streamSetupProg c).map (fun m => opAttempt m t) = attempts (setupEvents c) := by
  unfold streamSetupProg setupEvents
  cases c.streamSetup <;> rfl

/-- What `PRESENT` attempts, and that it counts down to the last pixel (R23, R146, R153). -/
theorem presentProg_attempts {s : State} (hp : s.phase ≠ .halted) (hc : s.pixctr = s.cfg.nPix) :
    attempts (performAll (presentProg s.cfg) s).trace = attempts s.trace ++ attempts (presentEvents s.cfg s.fb) ∧
      (performAll (presentProg s.cfg) s).pixctr = 0 := by
  have hw := execWords_plain s.cfg (windowWords s.cfg)
  have hs := streamSetupProg_plain s.cfg
  have hpre : MicroOp.openr .cs ∉ execWords s.cfg (windowWords s.cfg) ++ streamSetupProg s.cfg ∧
      MicroOp.xferpx ∉ execWords s.cfg (windowWords s.cfg) ++ streamSetupProg s.cfg := by
    simp [hw, hs]
  have hpix : MicroOp.openr .cs ∉ List.replicate s.cfg.nPix MicroOp.xferpx := by simp
  have hat1 := performAll_attempts s hpre.1 hpre.2 hp
  rw [List.map_append, ← attempts_words, streamSetup_attempts] at hat1
  have hph1 := (performAll_going hpre.1 hp).1
  have hctr1 := performAll_pixctr hpre.2 hpre.1 hp
  have hfb1 := performAll_fb (execWords s.cfg (windowWords s.cfg) ++ streamSetupProg s.cfg) s
  rw [presentProg, performAll_append, performAll_append]
  generalize performAll (execWords s.cfg (windowWords s.cfg) ++ streamSetupProg s.cfg) s = a at *
  have hpa : a.phase ≠ .halted := by rw [hph1]; exact hp
  obtain ⟨hat2, hctr2⟩ := performAll_pixels s.cfg.nPix hpa (hctr1.trans hc)
  have hph2 := (performAll_going hpix hpa).1
  generalize performAll (List.replicate s.cfg.nPix MicroOp.xferpx) a = b at *
  have hpb : b.phase ≠ .halted := by rw [hph2]; exact hpa
  refine ⟨?_, by rw [performAll_pixctr (by simp) (by simp) hpb, hctr2]⟩
  rw [performAll_attempts s (by simp) (by simp) hpb, hat2, hat1, hfb1]
  simp [presentEvents, attempts, attemptOf, opAttempt]

/-- Is it a micro-operation of a frame: a chip-select or data/command write, or a transfer (R149)? -/
def frameOp : MicroOp → Bool
  | .pinw l _ => l != .rst
  | .xferb _ => true
  | .xferpx => true
  | .openr _ => false
  | .relr _ => false

theorem execWords_frameOps (c : Cfg) (ws : List W9) : (execWords c ws).all frameOp = true := by
  induction ws with
  | nil => rfl
  | cons w ws ih =>
    have hw : (execW9 c w).all frameOp = true := by unfold execW9; split <;> rfl
    rw [execWords_cons, List.all_append, hw, ih]; rfl

theorem presentProg_frameOps (c : Cfg) : (presentProg c).all frameOp = true := by
  have hsetup : (streamSetupProg c).all frameOp = true := by unfold streamSetupProg; split <;> rfl
  have hpixels : (List.replicate c.nPix MicroOp.xferpx).all frameOp = true :=
    List.all_eq_true.2 (fun m hm => (List.eq_of_mem_replicate hm) ▸ rfl)
  rw [presentProg, List.all_append, List.all_append, List.all_append, execWords_frameOps, hsetup, hpixels]; rfl

/-- Such micro-operations leave the reset line alone. -/
theorem performAll_rst {ms : List MicroOp} (h : ms.all frameOp = true) : ∀ s : State, (performAll ms s).rst = s.rst := by
  induction ms with
  | nil => intro s; rfl
  | cons m ms ih =>
    intro s
    rw [List.all_cons, Bool.and_eq_true] at h
    obtain ⟨hm, hms⟩ := h
    rw [performAll_cons, ih hms]
    by_cases hp : s.phase = .halted
    · rw [perform_halted hp]
    have hh : ¬ haltsOn m s := by rintro ⟨rfl, -⟩; cases hm
    rw [perform_going hp hh]
    show (callOf m s).rst = s.rst
    cases m with
    | pinw l v =>
      simp only [callOf, callPinw]
      cases l with
      | rst => cases hm
      | cs => split <;> simp [setLatch]
      | dc => split <;> simp [setLatch]
    | xferb b => simp [callOf]
    | xferpx => simp [callOf]
    | openr r => cases hm
    | relr r => cases hm

/-- What `PRESENT` leaves alone (R160). -/
theorem presentRun_frame {s : State} (hp : s.phase = .ready) :
    presentRun s = { s with
      prog := [], pc := 0, reply := .done, cs := (presentRun s).cs, dc := (presentRun s).dc, pixw := (presentRun s).pixw
      pixctr := (presentRun s).pixctr, fault := (presentRun s).fault, trace := (presentRun s).trace
      env := (presentRun s).env, envCount := (presentRun s).envCount } := by
  have hkept := performAll_kept (presentProg s.cfg) (beginPresent s)
  have hrst := performAll_rst (presentProg_frameOps s.cfg) (beginPresent s)
  have hops : ∀ m ∈ presentProg s.cfg, ∀ r, m ≠ .openr r ∧ m ≠ .relr r := by
    intro m hm r
    have hframe := List.all_eq_true.1 (presentProg_frameOps s.cfg) m hm
    constructor <;> rintro rfl <;> cases hframe
  have hflag := fun r => performAll_flags hops r (s := beginPresent s)
  have hspi := hflag .spi
  have hcs := hflag .cs
  have hdc := hflag .dc
  have hres := hflag .rst
  rw [presentRun_completed]
  generalize performAll (presentProg s.cfg) (beginPresent s) = u at *
  unfold kept at hkept
  simp only [openFlag, beginPresent] at hspi hcs hdc hres hrst hkept
  rw [hspi, hcs, hdc, hres, hrst] at hkept
  cases u
  simp only [State.mk.injEq] at hkept
  simp [completed, hkept, hp]

/-- Settles O42: `presentRun` is its micro-program, which never halts. -/
theorem presentAttemptsEveryCall : Obligations.PresentAttemptsEveryCall := by
  intro s hp hw hh
  obtain ⟨hat, hctr⟩ := presentProg_attempts (s := beginPresent s) (by simp [beginPresent]) rfl
  have hcfg : (beginPresent s).cfg = s.cfg := rfl
  rw [hcfg] at hat hctr
  have hframe := presentRun_frame hp
  have hgrow := (grows_keeps s).presentRun (Grows.refl s)
  refine ⟨presentRun s, exec_present hp hw hh, by rw [presentRun_completed, completed_phase], ?_, hgrow.failures, ?_⟩
  · rw [presentRun_completed, completed_trace]; exact hat
  · have h0 : (presentRun s).pixctr = 0 := by rw [presentRun_completed]; exact hctr
    rwa [h0] at hframe

end Sys2Proof.Machine

namespace Sys2Proof.Machine

/-! ## Small steps and the whole operation -/

/-- Inside `START`'s micro-program the construct phase ends at its sixth micro-operation, and nothing else happens (R26). -/
theorem settle_construct {s : State} (hp : s.phase = .construct) (hl : s.pc < s.prog.length) :
    settle s = if s.pc < 6 then s else enterInit s := by
  have h6 : (constructProg s.cfg).length = 6 := rfl
  unfold settle
  rw [if_neg (by simp [hp]), if_neg (by omega), h6]
  by_cases h : s.pc < 6 <;> simp [h, hp, enterInit]

/-- The first micro-operation of what is left of a micro-program is the next one. -/
theorem getElem?_of_drop {s : State} {m : MicroOp} {ms : List MicroOp} (hd : s.prog.drop s.pc = m :: ms) :
    s.prog[s.pc]? = some m := by
  simpa [hd] using (List.getElem?_drop (xs := s.prog) (i := s.pc) (j := 0)).symm

/-- The small steps perform the rest of the construct program and move on to the init program, if chip-select is opened. -/
theorem run_construct (ms rest : List MicroOp) (hne : ms ≠ []) (hrest : rest ≠ []) (hx : MicroOp.xferpx ∉ ms) : ∀ s : State,
    s.phase = .construct → s.prog.drop s.pc = ms ++ rest → s.pc + ms.length = 6 → (performAll ms s).phase ≠ .halted →
    Host.Core.run Sys2Proof.core ms.length s = .next (enterInit (performAll ms s)) := by
  induction ms with
  | nil => exact absurd rfl hne
  | cons m ms ih =>
    intro s hp hd h6 hgo
    have hpn : s.phase ≠ .halted := by simp [hp]
    have hh : ¬ haltsOn m s := by
      intro hh
      have hhalt := ((perform_phase m s hpn).1).2 hh
      rw [performAll_cons, performAll_halted hhalt] at hgo
      exact hgo hhalt
    obtain ⟨-, hpc, hprog, hph⟩ := perform_attempts hpn hh
    have hlen : s.prog.length - s.pc = ms.length + 1 + rest.length := by
      simpa [Nat.add_right_comm] using congrArg List.length hd
    have hpos : 0 < rest.length := List.length_pos_iff.2 hrest
    have hset := settle_construct (s := perform m s) (hph.trans hp) (by rw [hpc, hprog]; omega)
    have hstep := step_of hpn (getElem?_of_drop hd) (fun h => absurd h (fun h => hx (by simp [h])))
    rw [List.length_cons] at h6
    rw [List.length_cons, run_succ _ hstep, hset, performAll_cons]
    rw [performAll_cons] at hgo
    by_cases he : ms = []
    · subst he
      rw [if_neg (by rw [hpc]; simp at h6; omega)]
      rfl
    · have hms : 0 < ms.length := List.length_pos_iff.2 he
      rw [if_pos (by omega)]
      refine ih he (fun h => hx (List.mem_cons_of_mem _ h)) _ (hph.trans hp) ?_ (by rw [hpc]; omega) hgo
      rw [hprog, hpc, ← List.drop_drop, hd]
      rfl

/-- The construct program of `START`, step by step (R21, R26). -/
theorem run_beginStart {s : State} (ha : envAnswer (envNext s) = .ok) :
    Host.Core.run Sys2Proof.core 6 (beginStart s) = .next (afterConstruct s) := by
  have hp : (beginStart s).phase ≠ .halted := by simp [beginStart]
  have hph := ((performAll_construct hp).1 (by rwa [envAnswer_beginStart])).1
  exact run_construct (constructProg s.cfg) (initProg s.cfg) (by simp [constructProg]) (by simp [initProg, resetProg])
    (by simp [constructProg]) (beginStart s) rfl rfl rfl (fun hh => hp (hph.symm.trans hh))

/-- The state after the construct program is at the init program. -/
theorem afterConstruct_prog {s : State} (ha : envAnswer (envNext s) = .ok) :
    (afterConstruct s).prog.drop (afterConstruct s).pc = initProg s.cfg := by
  have hp : (beginStart s).phase ≠ .halted := by simp [beginStart]
  obtain ⟨-, hprog, hpc, -⟩ := (performAll_construct hp).1 (by rwa [envAnswer_beginStart])
  have hcfg : (beginStart s).cfg = s.cfg := rfl
  rw [hcfg] at hprog hpc
  rw [afterConstruct, enterInit_prog, enterInit_pc, hprog, hpc]
  rfl

theorem initProg_length (c : Cfg) : (initProg c).length = 3 + 4 * c.initWords.length := by
  simp [initProg, resetProg, execWords_length]; omega

/-- `START`, chip-select opened: the construct program, then the init program (R21, R214). -/
theorem run_start_going {s : State} (ha : envAnswer (envNext s) = .ok) :
    Host.Core.run Sys2Proof.core (9 + 4 * s.cfg.initWords.length) (beginStart s) = .next (startRun s) := by
  have hlen : 9 + 4 * s.cfg.initWords.length = 6 + (initProg s.cfg).length := by rw [initProg_length]; omega
  obtain ⟨hno, hx⟩ := initProg_plain s.cfg
  have hrest := run_rest (initProg s.cfg) (by simp [initProg, resetProg]) hno (afterConstruct s) (.inl (by simp))
    (afterConstruct_prog ha) (by rw [List.count_eq_zero_of_not_mem hx]; exact Nat.zero_le _) (fun h => absurd h hx)
  have hph : (performAll (initProg s.cfg) (afterConstruct s)).phase = .init := by
    rw [(performAll_going hno (by simp)).1, afterConstruct_phase]
  rw [hlen, run_add, run_beginStart ha]
  rw [finish_init hph, ← startRun_going ha] at hrest
  exact hrest

/-- `START`, chip-select not opened: two steps (R173). -/
theorem run_start_halting {s : State} (ha : envAnswer (envNext s) ≠ .ok) :
    Host.Core.run Sys2Proof.core 2 (beginStart s) = .next (startRun s) := by
  have hp : (beginStart s).phase ≠ .halted := by simp [beginStart]
  obtain ⟨heq, hhalt, -⟩ := (performAll_construct hp).2 (by rwa [envAnswer_beginStart])
  have hcfg : (beginStart s).cfg = s.cfg := rfl
  rw [hcfg] at heq hhalt
  rw [startRun_halting ha]
  obtain ⟨-, hpc, hprog, hph⟩ := perform_attempts hp (m := .openr .spi) (by simp [haltsOn])
  have hstep1 := step_of (s := beginStart s) (m := .openr .spi) hp rfl (by simp)
  rw [settle_construct hph (by rw [hprog, hpc]; simp [beginStart, startProg, constructProg]),
    if_pos (by rw [hpc]; simp [beginStart])] at hstep1
  have hget : (perform (.openr .spi) (beginStart s)).prog[(perform (.openr .spi) (beginStart s)).pc]? = some (.openr .cs) := by
    rw [hprog, hpc]; rfl
  rw [heq] at hhalt ⊢
  generalize perform (.openr .spi) (beginStart s) = b at *
  have hstep2 := step_of (m := .openr .cs) (by rw [hph]; exact hp) hget (by simp)
  rw [settle, if_pos hhalt] at hstep2
  rw [run_succ _ hstep1, run_succ _ hstep2]
  rfl

theorem presentProg_count (c : Cfg) : (presentProg c).count .xferpx = c.nPix := by
  have hw := (execWords_plain c (windowWords c)).2
  have hs := (streamSetupProg_plain c).2
  simp [presentProg, List.count_append, List.count_eq_zero_of_not_mem hw, List.count_eq_zero_of_not_mem hs]

/-- `PRESENT`, step by step: every pixel's cell exists, since the framebuffer has the panel's size (R147, R152). -/
theorem run_present {s : State} (hw : s.cfg.fbW = s.cfg.panelW) (hh : s.cfg.fbH = s.cfg.panelH) :
    Host.Core.run Sys2Proof.core (47 + s.cfg.nPix) (beginPresent s) = .next (presentRun s) := by
  have hno := presentProg_noOpen s.cfg
  have hrest := run_rest (presentProg s.cfg) (by simp [presentProg]) hno (beginPresent s) (.inr (.inl rfl)) rfl
    (by rw [presentProg_count]; exact le_refl _) (fun _ => by simp [beginPresent, Cfg.nPix, fbSize, hw, hh])
  have hph : (performAll (presentProg s.cfg) (beginPresent s)).phase = .presenting :=
    (performAll_going hno (by simp [beginPresent])).1
  rw [finish_presenting hph, ← presentRun_completed, presentProg_length] at hrest
  exact hrest

/-- `CLOSE` has a step for every open resource (R163). -/
theorem closeProg_length (s : State) : (closeProg s).length = (closeEvents s).length := by
  simp only [closeProg, closeEvents, List.filter_cons, openFlag]
  cases s.spiOpen <;> cases s.csOpen <;> cases s.dcOpen <;> cases s.rstOpen <;> rfl

/-- `CLOSE`, step by step; with nothing open it is complete at once (R163, R164). -/
theorem run_close (s : State) :
    Host.Core.run Sys2Proof.core (closeEvents s).length (settle (beginClose s)) = .next (closeRun s) := by
  have hno : MicroOp.openr .cs ∉ closeProg s := by simp [closeProg]
  have hx : MicroOp.xferpx ∉ closeProg s := by simp [closeProg]
  rw [← closeProg_length, closeRun_completed]
  by_cases he : closeProg s = []
  · have hset : settle (beginClose s) = completed .closed (beginClose s) := by
      simp [settle, beginClose, he, finish, completed]
    rw [he, hset]; rfl
  · have hset : settle (beginClose s) = beginClose s := by simp [settle, beginClose, he]
    have hrest := run_rest (closeProg s) he hno (beginClose s) (.inr (.inr rfl)) rfl
      (by rw [List.count_eq_zero_of_not_mem hx]; exact Nat.zero_le _) (fun h => absurd h hx)
    have hph : (performAll (closeProg s) (beginClose s)).phase = .closing :=
      (performAll_going hno (by simp [beginClose])).1
    rw [finish_closing hph] at hrest
    rw [hset]; exact hrest

/-- Settles O40: each operation run to its end, against its meaning. -/
theorem smallStepsMakeTheWholeOperation : Obligations.SmallStepsMakeTheWholeOperation :=
  ⟨fun _ hp ha => ⟨_, run_start_going ha, exec_start hp⟩, fun _ hp ha => ⟨_, run_start_halting ha, exec_start hp⟩,
    fun _ hp hw hh => ⟨_, run_present hw hh, exec_present hp hw hh⟩, fun s hp => ⟨_, run_close s, exec_close hp⟩⟩

end Sys2Proof.Machine

namespace Sys2Proof.Machine

/-! ## The projection `levels` -/

@[simp] theorem wire_append (t u : List Event) : wire (t ++ u) = wire t ++ wire u := List.filter_append _ _

@[simp] theorem wire_cons_pin (l : Line) (v : Bool) (o : CallResult) (t : List Event) :
    wire (.pin l v o :: t) = .pin l v o :: wire t := rfl

@[simp] theorem wire_cons_xfer (bytes : List Byte) (o : CallResult) (t : List Event) :
    wire (.xfer bytes o :: t) = .xfer bytes o :: wire t := rfl

@[simp] theorem Event.result_pin (l : Line) (v : Bool) (o : CallResult) : (Event.pin l v o).result = some o := rfl

@[simp] theorem Event.result_xfer (bytes : List Byte) (o : CallResult) : (Event.xfer bytes o).result = some o := rfl

theorem wire_idem (t : List Event) : wire (wire t) = wire t := by simp [wire]

/-- Writing the level a line already has moves no pin (R34). -/
theorem Pins.set_of_get {p : Pins} {l : Line} {v : Bool} (h : p.get l = Level.ofBit v) : p.set l v = p := by
  cases l <;> simp only [Pins.get] at h <;> simp only [Pins.set, ← h]

theorem Pins.get_set (p : Pins) (l : Line) (v : Bool) : (p.set l v).get l = Level.ofBit v := by cases l <;> rfl

/-- When the walk that drops redundant writes is defined: when no wire event of the history failed (R34). -/
theorem dropRedundant_isSome (t : List Event) : ∀ p, (dropRedundant p t).isSome = true ↔ ∀ e ∈ wire t, e.result = some .ok := by
  induction t with
  | nil => intro p; simp [dropRedundant, wire]
  | cons e t ih =>
    intro p
    cases e with
    | pin l v o =>
      rw [dropRedundant, wire_cons_pin, List.forall_mem_cons, Event.result_pin]
      by_cases ho : o = .ok
      · by_cases hg : p.get l = Level.ofBit v <;> simp [ho, hg, ih]
      · simp [ho]
    | xfer bytes o =>
      rw [dropRedundant, wire_cons_xfer, List.forall_mem_cons, Event.result_xfer]
      by_cases ho : o = .ok <;> simp [ho, ih]
    | opened r o => exact ih p
    | rel r => exact ih p
    | halt => exact ih p

/-- The walk over a history and what follows it: what follows matters only from the levels the history leaves (R34). -/
theorem dropRedundant_append (t u : List Event) : ∀ p, dropRedundant p (t ++ u) =
    (dropRedundant p t).bind (fun a => (dropRedundant (walkPins p t) u).map (fun b => a ++ b)) := by
  induction t with
  | nil => intro p; simp [dropRedundant, walkPins]
  | cons e t ih =>
    intro p
    cases e with
    | pin l v o =>
      simp only [List.cons_append, dropRedundant, walkPins, ih]
      split
      · split
        · rename_i hg; rw [Pins.set_of_get hg]
        · cases dropRedundant (p.set l v) t <;> simp [Function.comp_def]
      · rfl
    | xfer bytes o =>
      simp only [List.cons_append, dropRedundant, walkPins, ih]
      split
      · cases dropRedundant p t <;> simp [Function.comp_def]
      · rfl
    | opened r o => exact ih p
    | rel r => exact ih p
    | halt => exact ih p

/-- Writing a level twice is writing it once (R34). -/
theorem dropRedundant_pin_pin (p : Pins) (l : Line) (v : Bool) (u : List Event) :
    dropRedundant p (.pin l v .ok :: .pin l v .ok :: u) = dropRedundant p (.pin l v .ok :: u) := by
  by_cases hg : p.get l = Level.ofBit v <;> simp [dropRedundant, hg, Pins.get_set]

theorem consXfer_consXfer (p q : List Byte) (t : List Event) : consXfer p (consXfer q t) = consXfer (p ++ q) t := by
  unfold consXfer
  split <;> split <;> simp_all

/-- Merging looks at what follows only through what it merges to. -/
theorem mergeXfers_append_congr (t : List Event) {u v : List Event} (h : mergeXfers u = mergeXfers v) :
    mergeXfers (t ++ u) = mergeXfers (t ++ v) := by
  induction t with
  | nil => exact h
  | cons e t ih =>
    cases e with
    | xfer bytes o => cases o <;> simp [mergeXfers, ih]
    | _ => simp [mergeXfers, ih]

/-- Merging two adjacent transfers beforehand changes nothing (R34). -/
theorem mergeXfers_two (t u : List Event) (p q : List Byte) :
    mergeXfers (t ++ .xfer p .ok :: .xfer q .ok :: u) = mergeXfers (t ++ .xfer (p ++ q) .ok :: u) :=
  mergeXfers_append_congr t (by simp [mergeXfers, consXfer_consXfer])

theorem levels_merge (t u : List Event) (p q : List Byte) :
    levels (t ++ [.xfer p .ok, .xfer q .ok] ++ u) = levels (t ++ [.xfer (p ++ q) .ok] ++ u) := by
  have htwo : wire (t ++ [.xfer p .ok, .xfer q .ok] ++ u) = wire t ++ .xfer p .ok :: .xfer q .ok :: wire u := by simp
  have hone : wire (t ++ [.xfer (p ++ q) .ok] ++ u) = wire t ++ .xfer (p ++ q) .ok :: wire u := by simp
  rw [levels, levels, htwo, hone, dropRedundant_append, dropRedundant_append]
  simp only [dropRedundant, if_true]
  cases dropRedundant Pins.start (wire t) with
  | none => rfl
  | some a =>
    cases dropRedundant (walkPins Pins.start (wire t)) (wire u) with
    | none => rfl
    | some b => exact congrArg some (mergeXfers_two a b p q)

theorem levels_repeat (t u : List Event) (l : Line) (v : Bool) :
    levels (t ++ [.pin l v .ok, .pin l v .ok] ++ u) = levels (t ++ [.pin l v .ok] ++ u) := by
  have htwo : wire (t ++ [.pin l v .ok, .pin l v .ok] ++ u) = wire t ++ .pin l v .ok :: .pin l v .ok :: wire u := by simp
  have hone : wire (t ++ [.pin l v .ok] ++ u) = wire t ++ .pin l v .ok :: wire u := by simp
  rw [levels, levels, htwo, hone, dropRedundant_append, dropRedundant_append, dropRedundant_pin_pin]

/-- The panel receives of the merged transfers what it receives of the single ones (R35). -/
theorem rxFrom_consXfer (c : Cfg) (p : Pins) (bytes : List Byte) (t : List Event) :
    rxFrom c p (consXfer bytes t) = rxFrom c p (.xfer bytes .ok :: t) := by
  unfold consXfer
  split
  · rename_i more t
    simp only [rxFrom, true_and]
    split
    · cases p.dc.bit with
      | none => rfl
      | some d => cases rxFrom c p t <;> simp [rxWords]
    · rfl
  · rfl

theorem rxFrom_mergeXfers (c : Cfg) (t : List Event) : ∀ p, rxFrom c p (mergeXfers t) = rxFrom c p t := by
  induction t with
  | nil => intro p; rfl
  | cons e t ih =>
    intro p
    cases e with
    | xfer bytes o =>
      cases o with
      | ok => rw [mergeXfers, rxFrom_consXfer]; simp only [rxFrom, ih]
      | fail k => simp only [mergeXfers, rxFrom, ih]
    | _ => simp only [mergeXfers, rxFrom, ih]

/-- The panel receives of the history without redundant writes what it receives of the history (R35). -/
theorem rxFrom_dropRedundant (c : Cfg) (t : List Event) : ∀ (p : Pins) (u : List Event),
    dropRedundant p t = some u → rxFrom c p u = rxFrom c p t := by
  induction t with
  | nil => rintro p u h; obtain rfl := Option.some.inj h; rfl
  | cons e t ih =>
    intro p u h
    cases e with
    | pin l v o =>
      simp only [dropRedundant] at h
      split at h
      · rename_i ho
        split at h
        · rename_i hg
          simp only [rxFrom, ho, if_true, Pins.set_of_get hg, ih p u h]
        · obtain ⟨r, hr, rfl⟩ := Option.map_eq_some_iff.1 h
          simp only [rxFrom, ho, if_true, ih _ r hr]
      · cases h
    | xfer bytes o =>
      simp only [dropRedundant] at h
      split at h
      · rename_i ho
        obtain ⟨r, hr, rfl⟩ := Option.map_eq_some_iff.1 h
        simp only [rxFrom, ho, ih p r hr]
      · cases h
    | opened r o => exact ih p u h
    | rel r => exact ih p u h
    | halt => exact ih p u h

/-- The panel receives the same words of `levels` of a history as of the history (R35). -/
theorem rx_levels (c : Cfg) {t u : List Event} (h : levels t = some u) : rx c u = rx c t := by
  obtain ⟨d, hd, rfl⟩ := Option.map_eq_some_iff.1 h
  rw [rx, rx, rxFrom_wire, rxFrom_mergeXfers, rxFrom_dropRedundant c _ _ _ hd]

/-- Settles O47: both walks, `dropRedundant` and `rxFrom`, taken through a history by induction. -/
theorem levelsDoNotSeeBatching : Obligations.LevelsDoNotSeeBatching := by
  refine ⟨fun t => ?_, levels_merge, levels_repeat, fun c t u => rx_levels c⟩
  rw [levels, Option.isSome_map, dropRedundant_isSome, wire_idem]

end Sys2Proof.Machine

namespace Sys2Proof.Machine

/-! ## The pixel memory and the operations on it -/

/-- A micro-operation touches neither the pixel memory nor the size of the grid. -/
theorem memoryInGrid_keeps : Keeps memoryInGrid where
  perform m s h := by simpa [memoryInGrid] using h
  bookkeeping _ _ _ _ _ _ _ _ _ h := h

/-- Settles O50: what writes the memory writes one cell in bounds (`write_memoryInGrid`). -/
theorem stepKeepsTheMemoryInTheGrid : Obligations.StepKeepsTheMemoryInTheGrid := by
  intro s t hs ht
  exact memoryInGrid_keeps.step (fun _ _ _ c h hb => write_memoryInGrid c h hb) hs ht

theorem inBounds_iff {c : Cfg} {x y : Int} : inBounds c x y = true ↔ 0 ≤ x ∧ x < c.fbW ∧ 0 ≤ y ∧ y < c.fbH :=
  decide_eq_true_iff

/-- The column of a cell is the remainder of its address by the width (R48). -/
theorem cellAddr_mod {c : Cfg} {x y : Int} (h : inBounds c x y = true) : ((cellAddr c x y % c.fbW : Nat) : Int) = x := by
  obtain ⟨hx0, hxw, -, -⟩ := inBounds_iff.1 h
  have hx : x.toNat < c.fbW := by omega
  rw [cellAddr, Nat.mul_add_mod', Nat.mod_eq_of_lt hx, Int.toNat_of_nonneg hx0]

/-- The row of a cell is the quotient of its address by the width (R48). -/
theorem cellAddr_div {c : Cfg} {x y : Int} (h : inBounds c x y = true) : ((cellAddr c x y / c.fbW : Nat) : Int) = y := by
  obtain ⟨hx0, hxw, hy0, -⟩ := inBounds_iff.1 h
  have hx : x.toNat < c.fbW := by omega
  rw [cellAddr, Nat.mul_comm, Nat.mul_add_div (Nat.zero_lt_of_lt hx), Nat.div_eq_of_lt hx, Nat.add_zero,
    Int.toNat_of_nonneg hy0]

/-- Remainder and quotient of an address of the grid are a coordinate in bounds. -/
theorem inBounds_mod_div {c : Cfg} {a : Nat} (h : a < c.fbW * c.fbH) :
    inBounds c (a % c.fbW : Nat) (a / c.fbW : Nat) = true := by
  have hw : 0 < c.fbW := Nat.pos_of_mul_pos_right (Nat.zero_lt_of_lt h)
  have hx : a % c.fbW < c.fbW := Nat.mod_lt a hw
  have hy : a / c.fbW < c.fbH := Nat.div_lt_of_lt_mul h
  exact inBounds_iff.2 ⟨Int.natCast_nonneg _, Int.ofNat_lt.2 hx, Int.natCast_nonneg _, Int.ofNat_lt.2 hy⟩

theorem cellAddr_mod_div (c : Cfg) (a : Nat) : cellAddr c (a % c.fbW : Nat) (a / c.fbW : Nat) = a := by
  rw [cellAddr, Int.toNat_natCast, Int.toNat_natCast, Nat.div_add_mod']

/-- Settles O24: division of the address by the width undoes `cellAddr`, on either side. -/
theorem coordinatesAndAddressesAgree : Obligations.CoordinatesAndAddressesAgree := by
  intro c
  refine ⟨fun x y => cellAddr_lt, ?_, fun a h => ⟨_, _, inBounds_mod_div h, cellAddr_mod_div c a⟩⟩
  intro x y x' y' h h' ha
  constructor
  · rw [← cellAddr_mod h, ha, cellAddr_mod h']
  · rw [← cellAddr_div h, ha, cellAddr_div h']

/-- In the phases in which the framebuffer operations are allowed the coordinates alone decide (R44, R102). -/
theorem pixelCheck_allowed {x y : Int} {s : State} (hp : s.phase = .off ∨ s.phase = .ready ∨ s.phase = .closed) :
    pixelCheck x y s = if inBounds s.cfg x y then none else some .outOfBounds := by
  rcases hp with hp | hp | hp <;> simp only [pixelCheck, hp]

theorem pixelCheck_inBounds {x y : Int} {s : State} (hp : s.phase = .off ∨ s.phase = .ready ∨ s.phase = .closed)
    (hb : 0 ≤ x ∧ x < s.cfg.fbW ∧ 0 ≤ y ∧ y < s.cfg.fbH) : pixelCheck x y s = none := by
  rw [pixelCheck_allowed hp, if_pos (inBounds_iff.2 hb)]

/-- `GETPIXEL` that is not refused answers what the cell holds (R103). -/
theorem exec_getpixel {x y : Int} {c : Color} {s : State} (hc : pixelCheck x y s = none)
    (hr : s.fb.read (cellAddr s.cfg x y) = c) : exec (.getpixel x y) s = .next { s with reply := .color c } := by
  simp [exec, execGetpixel, hostOp, hc, hr]

/-- `SETPIXEL OVER` that is not refused writes the cell (R106). -/
theorem exec_setpixelOver {x y : Int} {c : Color} {s : State} (hc : pixelCheck x y s = none) :
    exec (.setpixelOver x y c) s = .next { s with fb := s.fb.write (cellAddr s.cfg x y) c, reply := .done } := by
  simp [exec, execSetpixelOver, hostOp, hc]

/-- The three framebuffer operations are refused by one check (R102, R183). -/
theorem exec_pixel_refused {i : Instr} {x y : Int} {c : Color} {s : State} {why : RefuseReason}
    (hi : i = .getpixel x y ∨ i = .setpixelOver x y c ∨ i = .setpixelBlend x y c) (hc : pixelCheck x y s = some why) :
    exec i s = .next (refuse why s) := by
  rcases hi with rfl | rfl | rfl
  · simp only [exec, execGetpixel, hostOp, hc]
  · simp only [exec, execSetpixelOver, hostOp, hc]
  · simp only [exec, execSetpixelBlend, hostOp, hc]

/-- Settles O18: a write changes neither the phase nor the grid, so the read that follows meets the same check. -/
theorem overwrittenCellReadsBack : Obligations.OverwrittenCellReadsBack := by
  intro s x y c hwf hp hx hxw hy hyh
  have hc := pixelCheck_inBounds hp ⟨hx, hxw, hy, hyh⟩
  exact ⟨_, exec_setpixelOver hc, exec_getpixel hc (Memory.read_write_same hwf _ c)⟩

/-- Settles O25: what `pixelCheck` answers in each of the three cases. -/
theorem pixelOperationsRefused : Obligations.PixelOperationsRefused := by
  intro s x y c i hi
  refine ⟨fun hp hb => exec_pixel_refused hi ?_, fun hp => exec_pixel_refused hi ?_, fun hp => exec_pixel_refused hi ?_⟩
  · rw [pixelCheck_allowed hp, if_neg (mt inBounds_iff.1 hb)]
  · simp only [pixelCheck, hp]
  · simp only [pixelCheck, hp]

/-- Settles O9: reset is in OFF with an empty memory, and an unlisted cell reads as zero. -/
theorem resetCellsReadZero : Obligations.ResetCellsReadZero := by
  intro c x y hx hxw hy hyh
  exact exec_getpixel (pixelCheck_inBounds (.inl rfl) ⟨hx, hxw, hy, hyh⟩) rfl

end Sys2Proof.Machine

namespace Sys2Proof.Machine

/-! ## Decoding and the operations it selects -/

/-- Settles O1: each word is looked up in the decoder's tables. -/
theorem knownWordsDecode : Obligations.KnownWordsDecode :=
  ⟨rfl, rfl, rfl, rfl, rfl, rfl, rfl, rfl, rfl, rfl, rfl, rfl⟩

theorem exec_sendc (b : Byte) (s : State) : exec (.sendc b) s = wordOp (sendcProg s.cfg b) s := rfl

theorem exec_sendd (b : Byte) (s : State) : exec (.sendd b) s = wordOp (senddProg s.cfg b) s := rfl

/-- Settles O4: a decoded word executes its micro-program (`exec_decodeW9`), which bit 8 chooses. -/
theorem sequencerWordRunsAsSendcOrSendd : Obligations.SequencerWordRunsAsSendcOrSendd := by
  intro w
  refine ⟨decodeW9 w, rfl, fun s => ?_⟩
  rw [exec_decodeW9, exec_sendc, exec_sendd, execW9, w9Flag, w9Byte]
  cases w.getLsbD 8 with
  | false => rfl
  | true => rfl

/-- The operation numbers of R75. -/
def operationNumbers : List (BitVec 4) :=
  [hopTo565, hopGetpixel, hopSetpixelOver, hopSetpixelBlend, hopStart, hopPresent, hopClose]

/-- The numbers of R79 are the ones R75 does not assign. -/
theorem unassigned_iff : ∀ hop : BitVec 4,
    hop ∈ ([0x0, 0x5, 0x6, 0x7, 0xB, 0xC, 0xD, 0xE, 0xF] : List (BitVec 4)) ↔ hop ∉ operationNumbers := by decide

/-- A number that R75 does not assign selects no operation, whatever operands follow it. -/
theorem decode_unassigned {hop : BitVec 4} (operands : List Operand) (h : hop ∉ operationNumbers) :
    decode (.h hop operands) = .error (.noSuchOperation hop) := by
  simp only [operationNumbers, List.mem_cons, List.not_mem_nil, or_false, not_or] at h
  simp only [decode, decodeH, h, if_false]

/-- Every number of R75 decodes with the operands R66 lists for it. -/
theorem decode_assigned {hop : BitVec 4} (h : hop ∈ operationNumbers) : ∃ operands i, decode (.h hop operands) = .ok i := by
  simp only [operationNumbers, List.mem_cons, List.not_mem_nil, or_false] at h
  rcases h with rfl | rfl | rfl | rfl | rfl | rfl | rfl
  · exact ⟨[.color Color.zero], .to565 Color.zero, rfl⟩
  · exact ⟨[.int 0, .int 0], .getpixel 0 0, rfl⟩
  · exact ⟨[.int 0, .int 0, .color Color.zero], .setpixelOver 0 0 Color.zero, rfl⟩
  · exact ⟨[.int 0, .int 0, .color Color.zero], .setpixelBlend 0 0 Color.zero, rfl⟩
  · exact ⟨[], .start, rfl⟩
  · exact ⟨[], .present, rfl⟩
  · exact ⟨[], .close, rfl⟩

/-- HOST's step on a word that is no instruction takes the word and refuses it (R79, R183). -/
theorem step_of_decode_error {s : State} {w : HostWord} {rest : List HostWord} {e : DecodeError} (hs : hostHasStep s)
    (hin : s.input = w :: rest) (hdec : decode w.fetched = .error e) :
    step s = .next (refuse .noSuchOperation { s with input := rest }) := by
  obtain ⟨hrun, hport⟩ := hs
  unfold step
  rcases hport with hport | hport <;> simp [hrun, hport, hin, hdec, rejectWord]

/-- Settles O5: the decoder knows exactly the numbers of R75 (`unassigned_iff`), and the step refuses the others. -/
theorem unassignedOperationNumbersRefused : Obligations.UnassignedOperationNumbersRefused := by
  constructor
  · intro s hop operands rest hhop hs hin
    exact step_of_decode_error hs hin (decode_unassigned operands ((unassigned_iff hop).1 hhop))
  · intro hop hhop
    exact decode_assigned (not_not.1 (mt (unassigned_iff hop).2 hhop))

/-! ## One sequencer word between operations -/

/-- The micro-program of a command word (R68, R119). -/
theorem execW9_command (c : Cfg) (b : Byte) : execW9 c (w9Of false b) = sendcProg c b := by
  simp [execW9, w9Flag_w9Of, w9Byte_w9Of]

/-- The events of a command word (R68, R119). -/
theorem wordEvents_command (c : Cfg) (b : Byte) : wordEvents c (w9Of false b) =
    [.pin .cs c.csActive .ok, .pin .dc c.dcCmd .ok, .xfer [b] .ok, .pin .cs c.csIdle .ok] := by
  simp [wordEvents, w9Flag_w9Of, w9Byte_w9Of]

/-- A lone sequencer word between operations, all calls successful (R119, R120): its events, chip-select back at idle, the
data/command line at the level of the word; pc, prog and phase as they were (log 10). -/
theorem wordOp_word_ok {s : State} (w : W9) (hb : betweenOps s) (hp : s.phase ≠ .halted) (hspi : s.spiOpen = true)
    (hcs : s.csOpen = true) (hdc : s.dcOpen = true) (hok : answersOk 4 s) :
    wordOp (execW9 s.cfg w) s = .next { s with
      cs := Level.ofBit s.cfg.csIdle, dc := Level.ofBit (if w9Flag w then s.cfg.dcData else s.cfg.dcCmd)
      env := s.env.drop 4, trace := s.trace ++ wordEvents s.cfg w } := by
  have hperformed := performAll_word_ok w hp hspi hcs hdc (answersOk_iff.1 hok)
  have hsettled := settle_between (t := performAll (execW9 s.cfg w) s) hb hp (by rw [hperformed]) (by rw [hperformed])
  obtain ⟨hprog, -, hpc⟩ := hb
  rw [wordOp, hsettled, hperformed]
  simp only [hprog, hpc hp]

/-- A lone command word between operations, all calls successful (R119). -/
theorem wordOp_sendc_ok {s : State} (b : Byte) (hb : betweenOps s) (hp : s.phase ≠ .halted) (hspi : s.spiOpen = true)
    (hcs : s.csOpen = true) (hdc : s.dcOpen = true) (hok : answersOk 4 s) :
    wordOp (sendcProg s.cfg b) s = .next { s with
      cs := Level.ofBit s.cfg.csIdle, dc := Level.ofBit s.cfg.dcCmd, env := s.env.drop 4
      trace := s.trace ++ [.pin .cs s.cfg.csActive .ok, .pin .dc s.cfg.dcCmd .ok, .xfer [b] .ok, .pin .cs s.cfg.csIdle .ok] } := by
  have hword := wordOp_word_ok (w9Of false b) hb hp hspi hcs hdc hok
  rwa [execW9_command, wordEvents_command, w9Flag_w9Of] at hword

/-- Settles O31: the nineteen pairs are the rows of the decoder's panel table, and each row means `SENDC` of its byte. -/
theorem panelCommandsSendTheirByte : Obligations.PanelCommandsSendTheirByte := by
  intro p hp s hb hrun hspi hcs hdc hok
  obtain ⟨row, hrow, rfl⟩ := List.mem_map.1 (show p ∈ panelTable.map Prod.swap from hp)
  exact (exec_panelTable hrow s).trans (wordOp_sendc_ok row.1 hb hrun hspi hcs hdc hok)

end Sys2Proof.Machine

namespace Sys2Proof.Machine

/-! ## Exact values and their rounding -/

/-- A magnitude with a sign. -/
def signed (s : Bool) (n : Nat) : Int := if s then -(n : Int) else n

theorem signed_mul (s t : Bool) (m n : Nat) : signed (s != t) (m * n) = signed s m * signed t n := by
  cases s <;> cases t <;> simp [signed]

theorem natAbs_signed (s : Bool) (n : Nat) : (signed s n).natAbs = n := by cases s <;> simp [signed]

theorem signed_natAbs (v : Int) : signed (decide (v < 0)) v.natAbs = v := by
  rcases lt_or_ge v 0 with h | h
  · simp only [signed, h, decide_true, if_true]; omega
  · simp only [signed, not_lt.2 h, decide_false, Bool.false_eq_true, if_false]; omega

theorem signed_lt_zero {s : Bool} {n : Nat} (h : signed s n ≠ 0) : decide (signed s n < 0) = s := by
  cases s
  · simp [signed]
  · simp only [signed, if_true] at h
    simp only [signed, if_true, decide_eq_true_eq]
    omega

theorem abs_signed_sub_same (s : Bool) (m n : Nat) : |signed s m - signed s n| = |(m : Int) - n| := by
  cases s
  · rfl
  · simp only [signed, if_true]
    rw [← abs_neg]
    congr 1
    ring

theorem abs_signed_sub_opposite {s t : Bool} (h : t ≠ s) (m n : Nat) : |signed t m - signed s n| = m + n := by
  rw [Int.abs_eq_natAbs]
  cases s <;> cases t <;> simp only [signed, ne_eq, not_true_eq_false, Bool.false_eq_true, if_true, if_false] at h ⊢ <;> omega

theorem f32Units_signed (x : F32) : f32Units x = signed (f32Sign x) (magUnits (f32Mag x)) := f32Units_eq x

theorem f32Units_signed_sig (x : F32) : f32Units x = signed (f32Sign x) (f32Sig x * 2 ^ f32Pow x) := rfl

/-- `r` is the exact value `v`, counted in units of `2 ^ -298` (those of a product), rounded once (R91). -/
def Rounds (r : F32) (v : Int) : Prop := ∃ s m e, r = f32Of s (roundMag m e) ∧ v = signed s (m * 2 ^ e)

theorem fmul_rounds {a b : F32} (ha : f32IsFinite a = true) (hb : f32IsFinite b = true) :
    Rounds (fmul a b) (f32Units a * f32Units b) := by
  refine ⟨_, _, _, fmul_finite ha hb, ?_⟩
  rw [f32Units_signed_sig, f32Units_signed_sig, ← signed_mul, pow_add, Nat.mul_mul_mul_comm]

theorem addWith_rounds (op : ArithOp) (a0 b0 : F32) {a b : F32} (ha : f32IsFinite a = true) (hb : f32IsFinite b = true) :
    Rounds (addWith op a0 b0 a b) ((f32Units a + f32Units b) * 2 ^ 149) := by
  rw [addWith_finite op a0 b0 ha hb]
  by_cases hv : f32Units a + f32Units b = 0
  · refine ⟨f32Sign a && f32Sign b, 0, 149, ?_, by rw [hv, Nat.zero_mul, zero_mul]; cases f32Sign a && f32Sign b <;> rfl⟩
    rw [if_pos hv, roundMag_zero]
    cases f32Sign a && f32Sign b <;> rfl
  · refine ⟨_, _, 149, if_neg hv, ?_⟩
    generalize f32Units a + f32Units b = v
    conv_lhs => rw [← signed_natAbs v]
    unfold signed
    split <;> push_cast <;> ring

theorem fadd_rounds {a b : F32} (ha : f32IsFinite a = true) (hb : f32IsFinite b = true) :
    Rounds (fadd a b) ((f32Units a + f32Units b) * 2 ^ 149) := addWith_rounds .add a b ha hb

theorem fsub_rounds {a b : F32} (ha : f32IsFinite a = true) (hb : f32IsFinite b = true) :
    Rounds (fsub a b) ((f32Units a - f32Units b) * 2 ^ 149) := by
  have h := addWith_rounds .sub a b ha ((f32IsFinite_f32Neg b).trans hb)
  rwa [f32Units_f32Neg, ← sub_eq_add_neg] at h

/-- Below the infinities `roundMag` is a nearest magnitude, and the even one of two equally near ones; exact zeros included. -/
theorem roundMag_nearest {m e : Nat} (hfin : roundMag m e < infMag) (z : Nat) :
    |(magUnits (roundMag m e) * unitScale : Int) - m * 2 ^ e| ≤ |(magUnits z * unitScale : Int) - m * 2 ^ e| ∧
    (|(magUnits (roundMag m e) * unitScale : Int) - m * 2 ^ e| = |(magUnits z * unitScale : Int) - m * 2 ^ e| →
      z ≠ roundMag m e → roundMag m e % 2 = 0) := by
  by_cases h : m = 0
  · subst h
    have h0 : magUnits 0 = 0 := by decide
    rw [roundMag_zero, h0]
    refine ⟨?_, fun _ _ => rfl⟩
    simp only [Nat.cast_zero, zero_mul, sub_zero, abs_zero]
    exact abs_nonneg _
  · have hraw : roundMag m e = rawMag m e := by
      rw [roundMag_eq h] at hfin ⊢
      omega
    rw [hraw]
    exact rawMag_nearest h z

theorem getLsbD_zero_f32Of {s : Bool} {mag : Nat} (h : mag < 2 ^ 31) (he : mag % 2 = 0) : (f32Of s mag).getLsbD 0 = false := by
  rw [BitVec.getLsbD, f32Of_toNat s h, Nat.testBit_zero]
  cases s <;> simp <;> omega


theorem f32Units_scaled (x : F32) : f32Units x * 2 ^ 149 = signed (f32Sign x) (magUnits (f32Mag x) * unitScale) := by
  rw [f32Units_signed]
  unfold signed unitScale
  split <;> push_cast <;> ring

/-- A finite rounded number is nearest to the exact value among all numbers of either sign, and even if another one is equally near
(R91). A number of the other sign is never nearer than zero is. -/
theorem Rounds.nearest_units {r : F32} {v : Int} (h : Rounds r v) (hr : f32IsFinite r = true) (z : F32) :
    |f32Units r * 2 ^ 149 - v| ≤ |f32Units z * 2 ^ 149 - v| ∧
    (|f32Units r * 2 ^ 149 - v| = |f32Units z * 2 ^ 149 - v| → f32Units z ≠ f32Units r → r.getLsbD 0 = false) := by
  obtain ⟨s, m, e, rfl, rfl⟩ := h
  have hlt := lt_of_le_of_lt (roundMag_le m e) infMag_lt
  have hfin : roundMag m e < infMag := by simpa only [f32IsFinite, f32Mag_f32Of s hlt, decide_eq_true_eq] using hr
  have hmag0 : magUnits 0 = 0 := by decide
  obtain ⟨hz, hzTie⟩ := roundMag_nearest hfin (f32Mag z)
  obtain ⟨h0, h0Tie⟩ := roundMag_nearest hfin 0
  have heven : (roundMag m e ≠ 0 → roundMag m e % 2 = 0) → (f32Of s (roundMag m e)).getLsbD 0 = false := by
    intro h
    exact getLsbD_zero_f32Of hlt (by omega)
  rw [f32Units_scaled, f32Units_scaled, f32Sign_f32Of s hlt, f32Mag_f32Of s hlt, abs_signed_sub_same]
  push_cast
  by_cases hs : f32Sign z = s
  · rw [hs, abs_signed_sub_same]
    push_cast
    refine ⟨hz, fun htie hne => heven fun _ => hzTie htie fun he => hne ?_⟩
    rw [f32Units_signed, f32Units_signed, f32Sign_f32Of s hlt, f32Mag_f32Of s hlt, hs, he]
  · rw [abs_signed_sub_opposite hs]
    have hV : |(magUnits 0 * unitScale : Int) - m * 2 ^ e| = m * 2 ^ e := by
      rw [hmag0, Nat.cast_zero, zero_mul, zero_sub, abs_neg, abs_of_nonneg (by positivity)]
    rw [hV] at h0 h0Tie
    push_cast
    have hZ : (0 : Int) ≤ magUnits (f32Mag z) * unitScale := by positivity
    refine ⟨by omega, fun htie _ => heven fun hne => h0Tie (by omega) hne.symm⟩

theorem Rounds.finite_or_inf {r : F32} {v : Int} (h : Rounds r v) (hr : f32IsFinite r = false) : f32IsInf r = true := by
  obtain ⟨s, m, e, rfl, -⟩ := h
  exact (f32Of_roundMag s m e).2.1 hr

theorem Rounds.finite_iff {r : F32} {v : Int} (h : Rounds r v) :
    f32IsFinite r = true ↔ v.natAbs < (2 ^ 25 - 1) * 2 ^ 401 := by
  obtain ⟨s, m, e, rfl, rfl⟩ := h
  rw [natAbs_signed]
  exact (f32Of_roundMag s m e).1

theorem Rounds.sign {r : F32} {v : Int} (h : Rounds r v) (hv : v ≠ 0) : f32Sign r = decide (v < 0) := by
  obtain ⟨s, m, e, rfl, rfl⟩ := h
  rw [signed_lt_zero hv]
  exact (f32Of_roundMag s m e).2.2

/-! ## The same in rationals -/

/-- The rational that an exact count of `2 ^ -298` stands for. -/
def unitsVal (v : Int) : Rat := (v : Rat) / 2 ^ 298

theorem f32Val_eq (x : F32) : f32Val x = unitsVal (f32Units x * 2 ^ 149) := by
  unfold f32Val unitsVal
  rw [show (298 : Nat) = 149 + 149 from rfl, pow_add, Int.cast_mul, Int.cast_pow, Int.cast_ofNat,
    mul_div_mul_right _ _ (by positivity)]

theorem f32Val_mul (a b : F32) : f32Val a * f32Val b = unitsVal (f32Units a * f32Units b) := by
  unfold f32Val unitsVal
  push_cast
  rw [show (298 : Nat) = 149 + 149 from rfl, pow_add, div_mul_div_comm]

theorem f32Val_add (a b : F32) : f32Val a + f32Val b = unitsVal ((f32Units a + f32Units b) * 2 ^ 149) := by
  rw [f32Val_eq, f32Val_eq]
  unfold unitsVal
  push_cast
  rw [← add_div, add_mul]

theorem f32Val_sub (a b : F32) : f32Val a - f32Val b = unitsVal ((f32Units a - f32Units b) * 2 ^ 149) := by
  rw [f32Val_eq, f32Val_eq]
  unfold unitsVal
  push_cast
  rw [← sub_div, sub_mul]

theorem abs_unitsVal_sub (v w : Int) : |unitsVal v - unitsVal w| = unitsVal |v - w| := by
  unfold unitsVal
  rw [← sub_div, abs_div, abs_of_pos (by positivity : (0 : Rat) < 2 ^ 298)]
  push_cast
  rfl

theorem unitsVal_le {v w : Int} : unitsVal v ≤ unitsVal w ↔ v ≤ w := by
  unfold unitsVal
  rw [div_le_div_iff_of_pos_right (by positivity), Int.cast_le]

theorem unitsVal_inj {v w : Int} : unitsVal v = unitsVal w ↔ v = w := by
  rw [le_antisymm_iff, unitsVal_le, unitsVal_le, ← le_antisymm_iff]

theorem unitsVal_zero : unitsVal 0 = 0 := by simp [unitsVal]

theorem unitsVal_eq_zero {v : Int} : unitsVal v = 0 ↔ v = 0 := by rw [← unitsVal_zero, unitsVal_inj]

theorem unitsVal_neg {v : Int} : unitsVal v < 0 ↔ v < 0 := by rw [← unitsVal_zero, ← not_le, unitsVal_le, not_le]

/-- The bound of R91, halfway from the largest finite number to `2 ^ 128`, in counts of `2 ^ -298`. -/
theorem abs_unitsVal_lt_limit {v : Int} : |unitsVal v| < (2 ^ 25 - 1) * 2 ^ 103 ↔ v.natAbs < (2 ^ 25 - 1) * 2 ^ 401 := by
  have hlimit : ((2 ^ 25 - 1) * 2 ^ 103 : Rat) * 2 ^ 298 = (((2 ^ 25 - 1) * 2 ^ 401 : Nat) : Rat) := by
    rw [mul_assoc, ← pow_add, Nat.cast_mul, Nat.cast_pow, Nat.cast_ofNat]
    congr 1
    norm_num
  unfold unitsVal
  rw [abs_div, abs_of_pos (by positivity : (0 : Rat) < 2 ^ 298), div_lt_iff₀ (by positivity), hlimit, ← Int.cast_abs,
    Int.abs_eq_natAbs, Int.cast_natCast, Nat.cast_lt]

theorem Rounds.nearest {r : F32} {v : Int} (h : Rounds r v) (hr : f32IsFinite r = true) (z : F32) :
    |f32Val r - unitsVal v| ≤ |f32Val z - unitsVal v| ∧
    (|f32Val r - unitsVal v| = |f32Val z - unitsVal v| → f32Val z ≠ f32Val r → r.getLsbD 0 = false) := by
  obtain ⟨hle, htie⟩ := h.nearest_units hr z
  rw [f32Val_eq, f32Val_eq, abs_unitsVal_sub, abs_unitsVal_sub, unitsVal_le, unitsVal_inj]
  exact ⟨hle, fun he hne => htie he fun hu => hne (by rw [hu])⟩

/-- Settles O15: `Rounds.nearest` for the product. -/
theorem fmulIsTheNearestNumber : Obligations.FmulIsTheNearestNumber := by
  intro a b z ha hb hr _
  rw [f32Val_mul]
  exact (fmul_rounds ha hb).nearest hr z

/-- Settles O16: `Rounds.nearest` for the sum and the difference. -/
theorem faddAndFsubAreTheNearestNumber : Obligations.FaddAndFsubAreTheNearestNumber := by
  constructor <;> intro a b z ha hb hr _
  · rw [f32Val_add]
    exact (fadd_rounds ha hb).nearest hr z
  · rw [f32Val_sub]
    exact (fsub_rounds ha hb).nearest hr z

/-- Finite below the limit of R91, an infinity from it on. -/
theorem Rounds.overflow {r : F32} {v : Int} (h : Rounds r v) :
    (f32IsFinite r = true ↔ |unitsVal v| < (2 ^ 25 - 1) * 2 ^ 103) ∧ (f32IsFinite r = false → f32IsInf r = true) :=
  ⟨h.finite_iff.trans abs_unitsVal_lt_limit.symm, h.finite_or_inf⟩

theorem Rounds.sign_val {r : F32} {v : Int} (h : Rounds r v) (hv : unitsVal v ≠ 0) : f32Sign r = decide (unitsVal v < 0) := by
  rw [h.sign (mt unitsVal_eq_zero.2 hv), decide_eq_decide, unitsVal_neg]

/-- An exact zero sum is +, unless both operands are negative zeros (R91). -/
theorem addWith_zero (op : ArithOp) (a0 b0 : F32) {a b : F32} (ha : f32IsFinite a = true) (hb : f32IsFinite b = true)
    (h : f32Units a + f32Units b = 0) :
    addWith op a0 b0 a b = if f32Sign a && f32Sign b then 0x80000000 else 0x00000000 := by
  rw [addWith_finite op a0 b0 ha hb, if_pos h]

theorem unitsVal_scaled_eq_zero {v : Int} (h : unitsVal (v * 2 ^ 149) = 0) : v = 0 :=
  (mul_eq_zero.1 (unitsVal_eq_zero.1 h)).resolve_right (by positivity)

/-- Settles O60: `Rounds.overflow` and `Rounds.sign_val` for the three operations, `addWith_zero` for the exact zero sums. -/
theorem overflowAndSigns : Obligations.OverflowAndSigns := by
  intro a b ha hb
  refine ⟨?_, ?_, ?_⟩
  · obtain ⟨hfin, hinf⟩ := (fmul_rounds ha hb).overflow
    rw [f32Val_mul]
    refine ⟨hfin, hinf, ?_⟩
    rw [fmul_finite ha hb]
    exact (f32Of_roundMag _ _ _).2.2
  · have hr := fadd_rounds ha hb
    obtain ⟨hfin, hinf⟩ := hr.overflow
    rw [f32Val_add]
    exact ⟨hfin, hinf, hr.sign_val, fun h0 => addWith_zero .add a b ha hb (unitsVal_scaled_eq_zero h0)⟩
  · have hr := fsub_rounds ha hb
    obtain ⟨hfin, hinf⟩ := hr.overflow
    rw [f32Val_sub]
    refine ⟨hfin, hinf, hr.sign_val, fun h0 => ?_⟩
    have hz := unitsVal_scaled_eq_zero h0
    rw [sub_eq_add_neg, ← f32Units_f32Neg] at hz
    rw [← f32Sign_f32Neg]
    exact addWith_zero .sub a b ha ((f32IsFinite_f32Neg b).trans hb) hz

end Sys2Proof.Machine

namespace Sys2Proof.Machine

/-! ## NaN and infinities -/

theorem f32_not_finite {x : F32} (h : f32IsFinite x = false) : f32IsNaN x = true ∨ f32IsInf x = true := by
  rcases f32_classes x with ⟨hf, -, -⟩ | ⟨-, hi, -⟩ | ⟨-, -, hn⟩
  · rw [h] at hf; cases hf
  · exact .inr hi
  · exact .inl hn

theorem f32_of_nan {x : F32} (h : f32IsNaN x = true) : f32IsFinite x = false := by
  rcases f32_classes x with ⟨-, -, hn⟩ | ⟨hf, -, -⟩ | ⟨hf, -, -⟩
  · rw [h] at hn; cases hn
  · exact hf
  · exact hf

theorem f32Of_infMag (s : Bool) : f32IsInf (f32Of s infMag) = true ∧ f32Sign (f32Of s infMag) = s :=
  ⟨decide_eq_true (f32Mag_f32Of s infMag_lt), f32Sign_f32Of s infMag_lt⟩

/-- An infinity times a number (R91). -/
theorem fmul_inf_left {a b : F32} (ha : f32IsInf a = true) (hb : f32IsNaN b = false) :
    fmul a b = if f32IsZero b then nanResult .mul a b else f32Of (f32Sign a != f32Sign b) infMag := by
  simp [fmul, (f32_of_inf ha).1, ha, hb]

/-- A number times an infinity (R91). -/
theorem fmul_inf_right {a b : F32} (ha : f32IsNaN a = false) (hb : f32IsInf b = true) :
    fmul a b = if f32IsZero a then nanResult .mul a b else f32Of (f32Sign a != f32Sign b) infMag := by
  obtain ⟨hbn, -, hbz⟩ := f32_of_inf hb
  cases hi : f32IsInf a with
  | false => simp [fmul, ha, hb, hbn, hi]
  | true => simp [fmul, ha, hbn, hbz, hi, (f32_of_inf hi).2.2]

/-- A zero times what is not finite is NaN (R91). -/
theorem fmul_zero_of_not_finite {a b : F32} (ha : f32IsFinite a = false) (hb : f32IsZero b = true) :
    f32IsNaN (fmul a b) = true ∧ f32IsNaN (fmul b a) = true := by
  have hbn := (f32_of_finite (f32_of_zero hb)).1
  rcases f32_not_finite ha with h | h
  · exact ⟨fmul_nan (.inl h), fmul_nan (.inr h)⟩
  · rw [fmul_inf_left h hbn, fmul_inf_right hbn h, if_pos hb, if_pos hb]
    exact ⟨f32IsNaN_nanResult _ _ _, f32IsNaN_nanResult _ _ _⟩

/-- A sum with a NaN (R91). -/
theorem addWith_nan (op : ArithOp) (a0 b0 : F32) {a b : F32} (h : f32IsNaN a = true ∨ f32IsNaN b = true) :
    f32IsNaN (addWith op a0 b0 a b) = true := by
  have hor : (f32IsNaN a || f32IsNaN b) = true := by rwa [Bool.or_eq_true]
  simp [addWith, hor]

/-- Infinities of opposite signs have no sum (R91). -/
theorem addWith_inf_opposite (op : ArithOp) (a0 b0 : F32) {a b : F32} (ha : f32IsInf a = true) (hb : f32IsInf b = true)
    (hs : f32Sign a ≠ f32Sign b) : f32IsNaN (addWith op a0 b0 a b) = true := by
  simp [addWith, (f32_of_inf ha).1, (f32_of_inf hb).1, ha, hb, hs]

/-- An infinity absorbs what is added to it: a finite number, or an infinity of its own sign (R91). -/
theorem addWith_inf_left (op : ArithOp) (a0 b0 : F32) {a b : F32} (ha : f32IsInf a = true)
    (hb : f32IsFinite b = true ∨ f32IsInf b = true ∧ f32Sign a = f32Sign b) : addWith op a0 b0 a b = a := by
  rcases hb with hb | ⟨hb, hs⟩
  · simp [addWith, (f32_of_inf ha).1, ha, f32_of_finite hb]
  · simp [addWith, (f32_of_inf ha).1, (f32_of_inf hb).1, ha, hs]

theorem addWith_inf_right (op : ArithOp) (a0 b0 : F32) {a b : F32} (ha : f32IsFinite a = true) (hb : f32IsInf b = true) :
    addWith op a0 b0 a b = b := by
  simp [addWith, f32_of_finite ha, (f32_of_inf hb).1, hb]

/-- A difference is finite only for finite operands. -/
theorem fsub_not_finite {a b : F32} (h : f32IsFinite a = false ∨ f32IsFinite b = false) : f32IsFinite (fsub a b) = false := by
  have hcases : ∀ x, f32IsFinite x = true ∨ f32IsNaN x = true ∨ f32IsInf x = true := by
    intro x
    cases hx : f32IsFinite x with
    | true => exact .inl rfl
    | false => exact .inr (f32_not_finite hx)
  rcases hcases a with ha | ha | ha
  · rcases hcases b with hb | hb | hb
    · simp [ha, hb] at h
    · exact f32_of_nan (fsub_nan (.inr hb))
    · rw [fsub, addWith_inf_right _ _ _ ha ((f32IsInf_f32Neg b).trans hb), f32IsFinite_f32Neg]
      exact (f32_of_inf hb).2.1
  · exact f32_of_nan (fsub_nan (.inl ha))
  · rcases hcases b with hb | hb | hb
    · rw [fsub, addWith_inf_left _ _ _ ha (.inl ((f32IsFinite_f32Neg b).trans hb))]
      exact (f32_of_inf ha).2.1
    · exact f32_of_nan (fsub_nan (.inr hb))
    · have hb' := (f32IsInf_f32Neg b).trans hb
      by_cases hs : f32Sign a = f32Sign (f32Neg b)
      · rw [fsub, addWith_inf_left _ _ _ ha (.inr ⟨hb', hs⟩)]
        exact (f32_of_inf ha).2.1
      · exact f32_of_nan (addWith_inf_opposite _ _ _ ha hb' hs)

/-- Settles O59: one rule of `fmul` or `addWith` for each clause; `fsub` adds the second operand with its sign turned over. -/
theorem naNAndInfinityResults : Obligations.NaNAndInfinityResults := by
  refine ⟨?_, ?_, ?_, ?_, ?_, ?_⟩
  · exact fun a b h => ⟨fmul_nan h, fadd_nan h, fsub_nan h⟩
  · exact fun a b ha hb => fmul_zero_of_not_finite (f32_of_inf ha).2.1 hb
  · intro a b ha hbn hbz
    have hz : ¬ f32IsZero b = true := by simp [hbz]
    rw [fmul_inf_left ha hbn, fmul_inf_right hbn ha, if_neg hz, if_neg hz, bne_comm (a := f32Sign b)]
    obtain ⟨hinf, hsign⟩ := f32Of_infMag (f32Sign a != f32Sign b)
    exact ⟨hinf, hinf, hsign, hsign⟩
  · intro a b ha hb
    have hb' := (f32IsInf_f32Neg b).trans hb
    constructor <;> intro hs
    · have hs' : f32Sign a = f32Sign (f32Neg b) := by rw [f32Sign_f32Neg]; exact Bool.eq_not.2 hs
      exact ⟨addWith_inf_opposite _ _ _ ha hb hs, addWith_inf_left _ _ _ ha (.inr ⟨hb', hs'⟩)⟩
    · have hs' : f32Sign a ≠ f32Sign (f32Neg b) := by rw [f32Sign_f32Neg, hs]; exact (Bool.not_ne_self _).symm
      exact ⟨addWith_inf_left _ _ _ ha (.inr ⟨hb, hs⟩), addWith_inf_opposite _ _ _ ha hb' hs'⟩
  · intro a b ha hb
    have hneg : fsub b a = f32Neg a := addWith_inf_right _ _ _ hb ((f32IsInf_f32Neg a).trans ha)
    refine ⟨addWith_inf_left _ _ _ ha (.inl hb), addWith_inf_right _ _ _ hb ha,
      addWith_inf_left _ _ _ ha (.inl ((f32IsFinite_f32Neg b).trans hb)), ?_, ?_⟩
    · rw [hneg, f32IsInf_f32Neg, ha]
    · rw [hneg, f32Sign_f32Neg]
  · intro old new weight hw hfin
    exact fadd_nan (.inr (fmul_zero_of_not_finite (fsub_not_finite hfin.symm) hw).1)

end Sys2Proof.Machine

namespace Sys2Proof.Machine

/-! ## The quantizer -/

theorem magUnits_mono {a b : Nat} (h : a ≤ b) : magUnits a ≤ magUnits b := by
  rcases Nat.eq_or_lt_of_le h with rfl | h
  · exact le_rfl
  · exact (magUnits_lt h).le

theorem roundMag_mono {m e m' e' : Nat} (hv : m * 2 ^ e ≤ m' * 2 ^ e') : roundMag m e ≤ roundMag m' e' := by
  by_cases h : m = 0
  · rw [h, roundMag_zero]; exact Nat.zero_le _
  · have h' : m' ≠ 0 := by
      rintro rfl
      rw [Nat.zero_mul, Nat.le_zero, Nat.mul_eq_zero] at hv
      exact hv.elim h (by positivity)
    rw [roundMag_eq h, roundMag_eq h']
    exact min_le_min_right _ (rawMag_mono h h' hv)

theorem f32Sig_mul_pow (x : F32) : f32Sig x * 2 ^ f32Pow x = magUnits (f32Mag x) := by
  rw [← f32Units_natAbs, f32Units_eq]
  split <;> simp

theorem f32Sig_mul_pow_add (x y : F32) :
    f32Sig x * f32Sig y * 2 ^ (f32Pow x + f32Pow y) = magUnits (f32Mag x) * magUnits (f32Mag y) := by
  rw [pow_add, Nat.mul_mul_mul_comm, f32Sig_mul_pow, f32Sig_mul_pow]

/-- The quantizer is the integer part of the rounded product's magnitude (R92). -/
theorem quant_eq {c : F32} {n : Nat} (hc : f32IsFinite c = true) (hn : f32IsFinite (f32OfNat n) = true) :
    quant c n =
      magUnits (roundMag (f32Sig c * f32Sig (f32OfNat n)) (f32Pow c + f32Pow (f32OfNat n))) / 2 ^ 149 := by
  unfold quant f32Floor
  rw [f32Sig_mul_pow, fmul_finite hc hn, f32Mag_f32Of _ (lt_of_le_of_lt (roundMag_le _ _) infMag_lt)]

/-- The quantizer is monotone in the magnitude of the channel. -/
theorem quant_mono_mag {c d : F32} {n : Nat} (hc : f32IsFinite c = true) (hd : f32IsFinite d = true)
    (hn : f32IsFinite (f32OfNat n) = true) (h : f32Mag c ≤ f32Mag d) : quant c n ≤ quant d n := by
  rw [quant_eq hc hn, quant_eq hd hn]
  refine Nat.div_le_div_right (magUnits_mono (roundMag_mono ?_))
  rw [f32Sig_mul_pow_add, f32Sig_mul_pow_add]
  exact Nat.mul_le_mul_right _ (magUnits_mono h)

theorem f32Le_iff (a b : F32) : f32Le a b = true ↔ f32IsNaN a = false ∧ f32IsNaN b = false ∧ f32Key a ≤ f32Key b := by
  rw [f32Le, Bool.and_eq_true, Bool.and_eq_true, Bool.not_eq_true', Bool.not_eq_true', decide_eq_true_eq, and_assoc]

/-- A channel in range is one of the two zeros, or is positive and at most 1.0 (R84). -/
theorem inrange_iff (c : F32) : inrange c = true ↔ f32Mag c = 0 ∨ f32Sign c = false ∧ f32Mag c ≤ f32Mag f32One := by
  have hzero : f32IsNaN 0 = false ∧ f32Key 0 = 0 := by decide
  have hone : f32IsNaN f32One = false ∧ f32Key f32One = f32Mag f32One := by decide
  have hlimit : f32Mag f32One ≤ infMag := by decide
  have hnan : f32IsNaN c = false ↔ ¬ infMag < f32Mag c := decide_eq_false_iff_not
  rw [inrange, Bool.and_eq_true, f32Le_iff, f32Le_iff, hzero.1, hzero.2, hone.1, hone.2, hnan, f32Key]
  generalize f32Mag f32One = one at *
  generalize infMag = limit at *
  cases f32Sign c
  · simp only [Bool.false_eq_true, if_false, true_and]; omega
  · simp only [if_true, Bool.true_eq_false, false_and, or_false, true_and]; omega

theorem inrange_mag_le {c : F32} (h : inrange c = true) : f32Mag c ≤ f32Mag f32One := by
  rcases (inrange_iff c).1 h with h0 | ⟨-, h1⟩
  · rw [h0]; exact Nat.zero_le _
  · exact h1

theorem inrange_finite {c : F32} (h : inrange c = true) : f32IsFinite c = true :=
  decide_eq_true (lt_of_le_of_lt (inrange_mag_le h) (by decide))

theorem eq_one_of_mag {c : F32} (h : inrange c = true) (hm : f32Mag c = f32Mag f32One) : c = f32One := by
  have hs : f32Sign c = false := by
    rcases (inrange_iff c).1 h with h0 | ⟨hs, -⟩
    · rw [h0] at hm; exact absurd hm (by decide)
    · exact hs
  rw [← f32Of_sign_mag c, hs, hm]
  rfl

/-- On channels in range the order of the format is that of the magnitudes, but for the two zeros. -/
theorem f32Le_mag {c d : F32} (hc : inrange c = true) (h : f32Le c d = true) : f32Mag c ≤ f32Mag d := by
  obtain ⟨-, -, hkey⟩ := (f32Le_iff c d).1 h
  unfold f32Key at hkey
  rcases (inrange_iff c).1 hc with h0 | ⟨hs, -⟩
  · omega
  · rw [hs] at hkey
    cases hd : f32Sign d <;> simp [hd] at hkey <;> omega

/-- The two multipliers are finite numbers of the format (R91). -/
theorem f32OfNat_finite {n : Nat} (h : n = 31 ∨ n = 63) : f32IsFinite (f32OfNat n) = true := by
  rcases h with rfl | rfl <;> decide

theorem quant_zero {n : Nat} (h : n = 31 ∨ n = 63) : quant 0x00000000 n = 0 ∧ quant 0x80000000 n = 0 := by
  rcases h with rfl | rfl <;> decide

theorem quant_one {n : Nat} (h : n = 31 ∨ n = 63) : quant f32One n = n := by
  rcases h with rfl | rfl <;> decide

/-- The largest number below 1.0 already falls short of the maximum (R93). -/
theorem quant_below_one {n : Nat} (h : n = 31 ∨ n = 63) : quant 0x3F7FFFFF n < n := by
  rcases h with rfl | rfl <;> decide

theorem quant_le {c : F32} {n : Nat} (hc : inrange c = true) (hn : n = 31 ∨ n = 63) : quant c n ≤ n :=
  (quant_mono_mag (inrange_finite hc) (by decide : f32IsFinite f32One = true) (f32OfNat_finite hn) (inrange_mag_le hc)).trans_eq
    (quant_one hn)

theorem quant_lt {c : F32} {n : Nat} (hc : inrange c = true) (hn : n = 31 ∨ n = 63) (h1 : c ≠ f32One) : quant c n < n := by
  have hne : f32Mag c ≠ f32Mag f32One := mt (eq_one_of_mag hc) h1
  have hone : f32Mag f32One = f32Mag 0x3F7FFFFF + 1 := by decide
  have hle := inrange_mag_le hc
  exact (quant_mono_mag (inrange_finite hc) (by decide : f32IsFinite 0x3F7FFFFF = true) (f32OfNat_finite hn)
    (by omega)).trans_lt (quant_below_one hn)

/-- Settles O13: monotonicity against 1.0 and against the largest number below it. -/
theorem quantizerReachesItsMaximumOnlyAtOne : Obligations.QuantizerReachesItsMaximumOnlyAtOne := by
  intro c n hc hn
  refine ⟨quant_le hc hn, ⟨fun hq => ?_, ?_⟩, ?_⟩
  · by_contra h1
    exact (quant_lt hc hn h1).ne hq
  · rintro rfl
    exact quant_one hn
  · rintro (rfl | rfl)
    · exact (quant_zero hn).1
    · exact (quant_zero hn).2

/-- Settles O14: the order of channels in range is that of their magnitudes, in which the quantizer is monotone. -/
theorem quantizerIsMonotone : Obligations.QuantizerIsMonotone := by
  intro c d n hc hd hn hle
  exact quant_mono_mag (inrange_finite hc) (inrange_finite hd) (f32OfNat_finite hn) (f32Le_mag hc hle)

/-! ## The packed word -/

theorem to565_inrange {c : Color} (hr : inrange c.r = true) (hg : inrange c.g = true) (hb : inrange c.b = true) :
    to565 c = pack565 (quant c.r 31) (quant c.g 63) (quant c.b 31) := by
  simp [to565, hr, hg, hb]

/-- The three fields do not overlap (R74). -/
theorem pack565_toNat {r g b : Nat} (hr : r ≤ 31) (hg : g ≤ 63) (hb : b ≤ 31) :
    (pack565 r g b).toNat = r * 2 ^ 11 + g * 2 ^ 5 + b := by
  have hgb : g <<< 5 ||| b = g * 2 ^ 5 + b := by
    rw [← Nat.shiftLeft_add_eq_or_of_lt (by omega), Nat.shiftLeft_eq]
  have hrgb : r <<< 11 ||| (g * 2 ^ 5 + b) = r * 2 ^ 11 + (g * 2 ^ 5 + b) := by
    rw [← Nat.shiftLeft_add_eq_or_of_lt (by omega), Nat.shiftLeft_eq]
  have hfit : ∀ x < 2 ^ 16, x % 2 ^ 16 = x := fun _ => Nat.mod_eq_of_lt
  unfold pack565
  rw [BitVec.toNat_or, BitVec.toNat_or, BitVec.toNat_shiftLeft, BitVec.toNat_shiftLeft, BitVec.toNat_ofNat, BitVec.toNat_ofNat,
    BitVec.toNat_ofNat, hfit r (by omega), hfit g (by omega), hfit b (by omega),
    hfit (r <<< 11) (by rw [Nat.shiftLeft_eq]; omega), hfit (g <<< 5) (by rw [Nat.shiftLeft_eq]; omega), Nat.or_assoc, hgb, hrgb,
    Nat.add_assoc]

/-- Settles O11: the fields of `pack565_toNat`, which the quantizer's bounds keep apart. -/
theorem packedWordGivesTheChannelsBack : Obligations.PackedWordGivesTheChannelsBack := by
  intro c hr hg hb
  have hr' := quant_le (n := 31) hr (.inl rfl)
  have hg' := quant_le (n := 63) hg (.inr rfl)
  have hb' := quant_le (n := 31) hb (.inl rfl)
  have hpack := pack565_toNat hr' hg' hb'
  have h5 : ∀ x, x &&& 31 = x % 2 ^ 5 := fun x => Nat.and_two_pow_sub_one_eq_mod x 5
  have h6 : ∀ x, x &&& 63 = x % 2 ^ 6 := fun x => Nat.and_two_pow_sub_one_eq_mod x 6
  have h31 : (0x1F : U16).toNat = 31 := rfl
  have h63 : (0x3F : U16).toNat = 63 := rfl
  rw [to565_inrange hr hg hb, BitVec.toNat_and, BitVec.toNat_and, BitVec.toNat_and, BitVec.toNat_ushiftRight,
    BitVec.toNat_ushiftRight, hpack, h31, h63, h5, h6, h5, Nat.shiftRight_eq_div_pow, Nat.shiftRight_eq_div_pow]
  omega

theorem to565_rgb {r g b : F32} (hr : inrange r = true) (hg : inrange g = true) (hb : inrange b = true) :
    to565 (Color.rgb r g b) = pack565 (quant r 31) (quant g 63) (quant b 31) := to565_inrange hr hg hb

/-- Settles O12: the quantizer's values at 0 and 1.0, packed. -/
theorem to565WorkedExamples : Obligations.To565WorkedExamples := by
  have h0 : inrange 0 = true := by decide
  have h1 : inrange 0x3F800000 = true := by decide
  have r0 : quant 0 31 = 0 := (quant_zero (.inl rfl)).1
  have g0 : quant 0 63 = 0 := (quant_zero (.inr rfl)).1
  have r1 : quant 0x3F800000 31 = 31 := quant_one (.inl rfl)
  have g1 : quant 0x3F800000 63 = 63 := quant_one (.inr rfl)
  refine ⟨?_, ?_, ?_, ?_, ?_⟩
  · rw [to565_rgb h1 h0 h0, r1, g0, r0]; rfl
  · rw [to565_rgb h0 h1 h0, r0, g1]; rfl
  · rw [to565_rgb h0 h0 h1, r0, g0, r1]; rfl
  · rw [to565_rgb h1 h1 h1, r1, g1]; rfl
  · rw [to565_rgb h0 h0 h0, r0, g0]; rfl

/-- Settles O10: `to565Check` allows the four phases in which HOST has a step and refuses the other four. -/
theorem to565AnswersThePackedWord : Obligations.To565AnswersThePackedWord := by
  constructor
  · intro c s hp
    have hcheck : to565Check s = none := by rcases hp with hp | hp | hp | hp <;> simp only [to565Check, hp]
    simp only [exec, execTo565, hostOp, hcheck, to565, pack565, Bool.and_eq_true, and_assoc]
  · intro c s hp
    have hcheck : to565Check s = some .badPhase := by rcases hp with hp | hp | hp | hp <;> simp only [to565Check, hp]
    simp only [exec, execTo565, hostOp, hcheck, refuse]

end Sys2Proof.Machine

namespace Sys2Proof.Machine

/-! ## Two blocks whose framebuffers differ only in alpha -/

/-- The state with another pixel memory. -/
def withFb (m : Memory) (s : State) : State := { s with fb := m }

theorem envNext_withFb (m : Memory) (s : State) : envNext (withFb m s) = withFb m (envNext s) := by
  cases h : s.env <;> simp [envNext, withFb, h]

/-- The transport calls do not read the pixel memory (R114 to R117). -/
theorem callOpen_withFb (m : Memory) (r : Resource) (s : State) : callOpen r (withFb m s) = withFb m (callOpen r s) := by
  unfold callOpen
  rw [envNext_withFb, show envAnswer (withFb m s) = envAnswer s from rfl]
  cases envAnswer s <;> cases r <;> rfl

theorem callPinw_withFb (m : Memory) (l : Line) (v : Bool) (s : State) :
    callPinw l v (withFb m s) = withFb m (callPinw l v s) := by
  unfold callPinw
  rw [envNext_withFb, show envAnswer (withFb m s) = envAnswer s from rfl,
    show openFlag l.resource (withFb m s) = openFlag l.resource s by cases l <;> rfl]
  cases callResult (openFlag l.resource s) .writeFailure (envAnswer s) <;> cases l <;> rfl

theorem callXfer_withFb (m : Memory) (bytes : List Byte) (s : State) :
    callXfer bytes (withFb m s) = withFb m (callXfer bytes s) := by
  unfold callXfer
  rw [envNext_withFb, show envAnswer (withFb m s) = envAnswer s from rfl, show (withFb m s).spiOpen = s.spiOpen from rfl]
  cases callResult s.spiOpen .transferFailure (envAnswer s) <;> rfl

theorem callRel_withFb (m : Memory) (r : Resource) (s : State) : callRel r (withFb m s) = withFb m (callRel r s) := by
  cases r <;> rfl

/-- The two memories hold cells of the same packed colour. -/
def samePacked (m n : Memory) : Prop := ∀ a, to565 (m.read a) = to565 (n.read a)

/-- A pixel transfer reads the packed colour of a cell and nothing else of the memory (R152). -/
theorem callXferpx_withFb {m : Memory} {s : State} (h : samePacked m s.fb) :
    callXferpx (withFb m s) = withFb m (callXferpx s) := by
  have hpix : to565 ((withFb m s).fb.read ((withFb m s).pixctr - 1)) = to565 (s.fb.read (s.pixctr - 1)) := h _
  unfold callXferpx
  dsimp only
  rw [hpix]
  exact congrArg (fun t : State => { t with pixctr := t.pixctr - 1 })
    (callXfer_withFb m _ { s with pixw := to565 (s.fb.read (s.pixctr - 1)) })

theorem callOf_withFb {m : Memory} {s : State} (h : samePacked m s.fb) (op : MicroOp) :
    callOf op (withFb m s) = withFb m (callOf op s) := by
  cases op with
  | openr r => exact callOpen_withFb m r s
  | pinw l v => exact callPinw_withFb m l v s
  | xferb b => exact callXfer_withFb m [b] s
  | xferpx => exact callXferpx_withFb h
  | relr r => exact callRel_withFb m r s

theorem perform_withFb {m : Memory} {s : State} (h : samePacked m s.fb) (op : MicroOp) :
    perform op (withFb m s) = withFb m (perform op s) := by
  by_cases hp : s.phase = .halted
  · rw [perform_halted hp, perform_halted (s := withFb m s) hp]
  by_cases hh : haltsOn op s
  · rw [perform_halting hp hh, perform_halting (s := withFb m s) hp hh, callOf_withFb h]
  · rw [perform_going hp hh, perform_going (s := withFb m s) hp hh, callOf_withFb h]
    rfl

theorem performAll_withFb {m : Memory} (ops : List MicroOp) :
    ∀ {s : State}, samePacked m s.fb → performAll ops (withFb m s) = withFb m (performAll ops s) := by
  induction ops with
  | nil => intro s _; rfl
  | cons op ops ih =>
    intro s h
    rw [performAll_cons, performAll_cons, perform_withFb h, ih (by rwa [perform_fb])]

/-- `PRESENT` sees of the memory only the packed colours (R94, R149). -/
theorem presentRun_withFb {m : Memory} {s : State} (h : samePacked m s.fb) :
    presentRun (withFb m s) = withFb m (presentRun s) := by
  rw [presentRun_completed, presentRun_completed, show beginPresent (withFb m s) = withFb m (beginPresent s) from rfl,
    show (withFb m s).cfg = s.cfg from rfl, performAll_withFb (s := beginPresent s) _ h]
  rfl

theorem exec_present_hostOp (s : State) : exec .present s = hostOp (presentCheck s) s presentRun := rfl

/-- The packed colour does not depend on alpha (R94). -/
theorem to565_congr {c d : Color} (hr : c.r = d.r) (hg : c.g = d.g) (hb : c.b = d.b) : to565 c = to565 d := by
  rw [to565, to565, hr, hg, hb]

/-- Settles O45: the check of `PRESENT` reads no cell, and its run only their packed colours. -/
theorem alphaNeverReachesTheWire : Obligations.AlphaNeverReachesTheWire := by
  refine ⟨fun _ _ => to565_congr rfl rfl rfl, fun s m _ hrgb => ?_⟩
  have hpacked : samePacked m s.fb := fun a => by
    obtain ⟨hr, hg, hb⟩ := hrgb a
    exact to565_congr hr hg hb
  have hother : exec .present { s with fb := m } = hostOp (presentCheck s) (withFb m s) presentRun :=
    exec_present_hostOp (withFb m s)
  rw [exec_present_hostOp s, hother]
  cases presentCheck s with
  | some why => exact ⟨_, _, rfl, rfl, rfl, rfl⟩
  | none =>
    refine ⟨_, _, rfl, rfl, ?_, ?_⟩ <;> rw [presentRun_withFb hpacked] <;> rfl

end Sys2Proof.Machine

namespace Sys2Proof.Machine

/-! ## The framebuffer operations in bounds -/

/-- `SETPIXEL BLEND` that is not refused writes the blend of the cell and the Color (R107). -/
theorem exec_setpixelBlend {x y : Int} {c : Color} {s : State} (hc : pixelCheck x y s = none) :
    exec (.setpixelBlend x y c) s = .next { s with
      fb := s.fb.write (cellAddr s.cfg x y) (blendColor (s.fb.read (cellAddr s.cfg x y)) c), reply := .done } := by
  simp [exec, execSetpixelBlend, hostOp, hc]

/-- An instruction that writes one cell changes that cell, and nothing else but the answer (R113). -/
theorem exec_write_frame {i : Instr} {s : State} {a : Nat} {c : Color} (hwf : s.fb.wf)
    (hex : exec i s = .next { s with fb := s.fb.write a c, reply := .done }) :
    ∃ t, exec i s = .next t ∧ t = { s with fb := t.fb, reply := .done } ∧ t.fb.wf ∧ t.fb.read a = c ∧
      ∀ b, b ≠ a → t.fb.read b = s.fb.read b :=
  ⟨_, hex, rfl, Memory.write_wf hwf a c, Memory.read_write_same hwf a c, fun _ hb => Memory.read_write_other hwf c hb⟩

/-- Settles O17: in bounds the check lets `GETPIXEL` answer the cell. -/
theorem getpixelAnswersTheCell : Obligations.GetpixelAnswersTheCell := by
  intro s x y hp hx hxw hy hyh
  exact exec_getpixel (pixelCheck_inBounds hp ⟨hx, hxw, hy, hyh⟩) rfl

/-- Settles O19: the frame of a write, for the Color itself. -/
theorem setpixelOverWritesOneCell : Obligations.SetpixelOverWritesOneCell := by
  intro s x y c hwf hp hx hxw hy hyh
  exact exec_write_frame hwf (exec_setpixelOver (pixelCheck_inBounds hp ⟨hx, hxw, hy, hyh⟩))

/-- Settles O20: the frame of a write, for the blend of the cell and the Color. -/
theorem setpixelBlendWritesOneCell : Obligations.SetpixelBlendWritesOneCell := by
  intro s x y c hwf hp hx hxw hy hyh
  exact exec_write_frame hwf (exec_setpixelBlend (pixelCheck_inBounds hp ⟨hx, hxw, hy, hyh⟩))

/-! ## The blend of one channel -/

/-- A NaN weight makes the product NaN, and so the sum (R110 (e)). -/
theorem blendChannel_nan_weight {old new weight : F32} (h : f32IsNaN weight = true) :
    f32IsNaN (blendChannel old new weight) = true := fadd_nan (.inr (fmul_nan (.inr h)))

/-- Settles O23: the three colour channels have the one weight, and alpha is +0.0 whatever they are. -/
theorem naNWeightBlendGivesNaN : Obligations.NaNWeightBlendGivesNaN := by
  intro old c h
  exact ⟨blendChannel_nan_weight h, blendChannel_nan_weight h, blendChannel_nan_weight h, rfl⟩

theorem signed_zero (s : Bool) : signed s 0 = 0 := by cases s <;> rfl

theorem magUnits_zero : magUnits 0 = 0 := by decide

/-- A zero of either sign is worth nothing (R87). -/
theorem f32Units_of_zero {x : F32} (h : f32IsZero x = true) : f32Units x = 0 := by
  have hmag : f32Mag x = 0 := of_decide_eq_true h
  rw [f32Units_signed, hmag, magUnits_zero, signed_zero]

theorem f32Key_signed (x : F32) : f32Key x = signed (f32Sign x) (f32Mag x) := rfl

/-- Numbers of one value stand at one place of the order: they are the same number, or both are zeros. -/
theorem f32Key_eq_of_units {a b : F32} (h : f32Units a = f32Units b) : f32Key a = f32Key b := by
  have hmag : f32Mag a = f32Mag b := by
    rw [f32Units_signed, f32Units_signed] at h
    exact magUnits_inj (by simpa only [natAbs_signed] using congrArg Int.natAbs h)
  rw [f32Key_signed, f32Key_signed, hmag]
  by_cases hs : f32Sign a = f32Sign b
  · rw [hs]
  · have hdist := abs_signed_sub_opposite hs (magUnits (f32Mag a)) (magUnits (f32Mag b))
    rw [← f32Units_signed, ← f32Units_signed, h, sub_self, abs_zero] at hdist
    have hb : f32Mag b = 0 := magUnits_inj (by rw [magUnits_zero]; omega)
    rw [hb, signed_zero, signed_zero]

/-- Finite numbers of one value are numerically equal (R110 (b)). -/
theorem f32Eq_of_units {a b : F32} (ha : f32IsFinite a = true) (hb : f32IsFinite b = true) (h : f32Units a = f32Units b) :
    f32Eq a b = true := by
  have hna := (f32_of_finite ha).1
  have hnb := (f32_of_finite hb).1
  have hkey := f32Key_eq_of_units h
  rw [f32Eq, Bool.and_eq_true, f32Le_iff, f32Le_iff]
  exact ⟨⟨hna, hnb, hkey.le⟩, hnb, hna, hkey.ge⟩

/-- The value of a finite number lies below the limit of R91. -/
theorem f32Units_lt_limit {x : F32} (h : f32IsFinite x = true) :
    (f32Units x * 2 ^ 149).natAbs < (2 ^ 25 - 1) * 2 ^ 401 := by
  have hmag : f32Mag x ≤ infMag - 1 := Nat.le_sub_one_of_lt (of_decide_eq_true h)
  have hmax : magUnits (infMag - 1) * unitScale < (2 ^ 25 - 1) * 2 ^ 401 := by decide +kernel
  rw [f32Units_scaled, natAbs_signed]
  exact (Nat.mul_le_mul_right _ (magUnits_mono hmag)).trans_lt hmax

/-- An exact value that a finite number has is rounded to a finite number of that value (R91). -/
theorem Rounds.exact {r x : F32} (h : Rounds r (f32Units x * 2 ^ 149)) (hx : f32IsFinite x = true) :
    f32IsFinite r = true ∧ f32Units r = f32Units x := by
  have hr := h.finite_iff.2 (f32Units_lt_limit hx)
  have hnear := (h.nearest_units hr x).1
  rw [sub_self, abs_zero, abs_nonpos_iff, sub_eq_zero] at hnear
  exact ⟨hr, mul_right_cancel₀ (by positivity) hnear⟩

/-- Settles O21: the product is worth nothing, so the sum is the old channel. -/
theorem zeroWeightBlendKeepsTheChannel : Obligations.ZeroWeightBlendKeepsTheChannel := by
  intro old new weight hold hdiff hweight
  have hmul := fmul_rounds hdiff (f32_of_zero hweight)
  rw [f32Units_of_zero hweight, mul_zero] at hmul
  obtain ⟨hfin, hunits⟩ := Rounds.exact (x := 0) hmul (by decide)
  have hadd := fadd_rounds hold hfin
  rw [hunits, show f32Units 0 = 0 from rfl, add_zero] at hadd
  obtain ⟨hblend, hvalue⟩ := hadd.exact hold
  exact f32Eq_of_units hblend hold hvalue

/-- Settles O22: the difference, the product and the sum are each exact, and of the value of the new channel. -/
theorem fullWeightBlendOnZeroGivesTheNewChannel : Obligations.FullWeightBlendOnZeroGivesTheNewChannel := by
  intro old new hold hnew
  have hold0 := f32Units_of_zero hold
  have hfinOld := f32_of_zero hold
  have hsub := fsub_rounds hnew hfinOld
  rw [hold0, sub_zero] at hsub
  obtain ⟨hdiff, hdiffUnits⟩ := hsub.exact hnew
  have hmul := fmul_rounds hdiff (by decide : f32IsFinite 0x3F800000 = true)
  rw [hdiffUnits, show f32Units 0x3F800000 = 2 ^ 149 by decide] at hmul
  obtain ⟨hprod, hprodUnits⟩ := hmul.exact hnew
  have hadd := fadd_rounds hfinOld hprod
  rw [hold0, zero_add, hprodUnits] at hadd
  obtain ⟨hblend, hvalue⟩ := hadd.exact hnew
  exact f32Eq_of_units hblend hnew hvalue

end Sys2Proof.Machine

namespace Sys2Proof.Machine

/-! ## Which bytes a run of host operations puts on the bus -/

/-- From `s` to `t` a run of host operations stays one, and what it adds to the history transfers only bytes of the init table, of the
window words, or of a pixel (R127). -/
def sendsOwnBytes (s t : State) : Prop :=
  hostRun t ∧ ∃ new, t.trace = s.trace ++ new ∧ ∀ bytes o, Event.xfer bytes o ∈ new → ownBytes s.cfg s.fb bytes

/-- A step that adds no event sends nothing. -/
theorem sendsOwnBytes_of_trace_eq {s t : State} (hrun : hostRun t) (htr : t.trace = s.trace) : sendsOwnBytes s t :=
  ⟨hrun, [], by rw [htr, List.append_nil], fun _ _ h => absurd h List.not_mem_nil⟩

/-- A micro-operation keeps the micro-program, or a halt drops it (R173). -/
theorem perform_prog_subset (m : MicroOp) (s : State) : (perform m s).prog ⊆ s.prog := by
  by_cases hp : s.phase = .halted
  · rw [perform_halted hp]; exact List.Subset.refl _
  by_cases hh : haltsOn m s
  · rw [perform_halting hp hh, callOf_prog, if_pos (show m = .openr .cs ∧ envAnswer s ≠ .ok from hh)]; exact List.nil_subset _
  · rw [(perform_attempts hp hh).2.2.1]; exact List.Subset.refl _

/-- The micro-program stays until the operation is complete, and is then empty (R20). -/
theorem settle_prog_subset (s : State) : (settle s).prog ⊆ s.prog := by
  have hfinish : (finish s).prog ⊆ s.prog := by unfold finish; split <;> simp
  unfold settle
  split
  · exact List.Subset.refl _
  · split
    · exact hfinish
    · split <;> exact List.Subset.refl _

/-- A step of SEQ transfers the byte its micro-program holds, or the pixel of a cell that exists (R21, R152). -/
theorem settle_perform_sendsOwnBytes {s : State} {m : MicroOp} (h : hostRun s) (hm : s.prog[s.pc]? = some m)
    (hx : m = .xferpx → 0 < s.pixctr ∧ s.pixctr ≤ fbSize s.cfg) : sendsOwnBytes s (settle (perform m s)) := by
  obtain ⟨hport, hbytes⟩ := h
  obtain ⟨new, htr, hnew⟩ := perform_xfers m s
  refine ⟨⟨by rw [settle_testPort, perform_testPort, hport], fun b hb => ?_⟩, new, by rw [settle_trace, htr], fun bytes o he => ?_⟩
  · rw [settle_cfg, perform_cfg]
    exact hbytes b (perform_prog_subset m s (settle_prog_subset _ hb))
  · rcases hnew bytes o he with ⟨hpx, rfl⟩ | ⟨b, rfl, rfl⟩
    · obtain ⟨hpos, hle⟩ := hx hpx
      exact .inr ⟨s.pixctr - 1, by omega, rfl⟩
    · obtain ⟨w, hw, rfl⟩ := hbytes b (List.mem_of_getElem? hm)
      exact .inl ⟨w, hw, rfl⟩

/-- An instruction that is no sequencer word runs its own micro-program, or sends nothing (R127). -/
theorem exec_sendsOwnBytes {i : Instr} {s t : State} (h : hostRun s) (hi : ∀ word, encode i ≠ .w9 word)
    (ht : exec i s = .next t) : sendsOwnBytes s t := by
  have hport := h.1
  rcases exec_cases ht with ⟨why, rfl⟩ | ⟨r, rfl⟩ | ⟨x, y, c, -, -, rfl⟩ | ⟨-, -, e⟩ | ⟨-, -, hw, hh, e⟩ | ⟨-, -, e⟩ | ⟨w, hw, -⟩
  · exact sendsOwnBytes_of_trace_eq h rfl
  · exact sendsOwnBytes_of_trace_eq h rfl
  · exact sendsOwnBytes_of_trace_eq h rfl
  · rw [e]; exact startRun_own hport
  · rw [e]; exact presentRun_own hport hw hh
  · rw [e]; exact closeRun_own hport
  · exact absurd hw (hi w)

theorem step_sendsOwnBytes {s t : State} (h : hostRun s) (ht : step s = .next t) : sendsOwnBytes s t := by
  rcases step_cases ht with
    ⟨m, -, hm, hx, rfl⟩ | ⟨-, -, rfl⟩ | ⟨w, rest, e, -, -, -, rfl⟩ | ⟨w, rest, i, -, -, hdec, hex⟩ | ⟨w, -, hplaced, -⟩
  · exact settle_perform_sendsOwnBytes h hm hx
  · exact sendsOwnBytes_of_trace_eq h rfl
  · exact sendsOwnBytes_of_trace_eq h rfl
  · exact exec_sendsOwnBytes (s := { s with input := rest }) h (decode_host_encode w i hdec) hex
  · obtain ⟨hport, -⟩ := h
    rw [hport] at hplaced
    cases hplaced

/-- Settles O55: reset has no micro-program, a script leaves the one there is, and every step keeps the run (`step_sendsOwnBytes`). -/
theorem hostCannotSendItsOwnBytes : Obligations.HostCannotSendItsOwnBytes :=
  ⟨decode_host_encode, ⟨rfl, fun _ h => absurd h List.not_mem_nil⟩, fun _ _ h => h, fun _ _ => step_sendsOwnBytes⟩

end Sys2Proof.Machine

namespace Sys2Proof.Machine

/-! ## Calls on a resource that is not open, and releases -/

/-- Such a call fails as its own kind of failure or as an invalid handle, whatever ENV answers (R115, R116; log 5). -/
theorem callResult_closed {own : FailKind} (hown : own ≠ .invalidHandle) (a : Answer) (ownFailure invalid : Failure) :
    ∃ k f, (k = own ∧ f = ownFailure ∨ k = .invalidHandle ∧ f = invalid) ∧ callResult false own a = .fail k ∧
      failureOf k ownFailure invalid = f := by
  cases a with
  | ok => exact ⟨.invalidHandle, invalid, .inr ⟨rfl, rfl⟩, rfl, rfl⟩
  | fail => exact ⟨own, ownFailure, .inl ⟨rfl, rfl⟩, rfl, by cases own <;> simp [failureOf] at hown ⊢⟩
  | invalidHandle => exact ⟨.invalidHandle, invalid, .inr ⟨rfl, rfl⟩, rfl, rfl⟩

/-- A pin write on a line that is not open: the failure recorded and the latch U (R115, R172, R176). -/
theorem callPinw_closed {s : State} {l : Line} (v : Bool) (h : openFlag l.resource s = false) :
    ∃ k f, (k = .writeFailure ∧ f = .writeFailure l s.pc ∨ k = .invalidHandle ∧ f = .invalidHandle l.resource s.pc) ∧
      callPinw l v s = raise f false (setLatch l .undriven (emit (.pin l v (.fail k)) (envNext s))) := by
  obtain ⟨k, f, hkf, hres, hf⟩ := callResult_closed (own := .writeFailure) (by simp) (envAnswer s) (.writeFailure l s.pc)
    (.invalidHandle l.resource s.pc)
  exact ⟨k, f, hkf, by simp only [callPinw, h, hres, hf]⟩

/-- A transfer while the bus is not open: the failure recorded with the length of the transfer (R116, R172). -/
theorem callXfer_closed {s : State} (bytes : List Byte) (h : s.spiOpen = false) :
    ∃ k f, (k = .transferFailure ∧ f = .transferFailure bytes.length s.pc ∨ k = .invalidHandle ∧ f = .invalidHandle .spi s.pc) ∧
      callXfer bytes s = raise f false (emit (.xfer bytes (.fail k)) (envNext s)) := by
  obtain ⟨k, f, hkf, hres, hf⟩ := callResult_closed (own := .transferFailure) (by simp) (envAnswer s)
    (.transferFailure bytes.length s.pc) (.invalidHandle .spi s.pc)
  exact ⟨k, f, hkf, by simp only [callXfer, h, hres, hf]⟩

/-- A failure that is recorded is in the failure set (R172). -/
theorem mem_raise_fault (f : Failure) (fatal : Bool) (s : State) : f ∈ (raise f fatal s).fault := by
  rw [raise_fault]
  exact (addFailure_grows f s.fault).2

/-- Settles O27: `callPinw_closed` for the pin write, `callXfer_closed` for the two transfers. -/
theorem callOnAClosedResourceFails : Obligations.CallOnAClosedResourceFails := by
  intro s hp
  refine ⟨fun l v hclosed => ?_, fun b hclosed => ?_, fun hclosed _ => ?_⟩
  · obtain ⟨k, f, hkf, hcall⟩ := callPinw_closed v hclosed
    have hperf := perform_going (m := .pinw l v) hp (by simp [haltsOn])
    rw [callOf, hcall] at hperf
    rw [hperf]
    exact ⟨k, f, hkf, by simp, mem_raise_fault f _ _, by cases l <;> rfl, rfl⟩
  · obtain ⟨k, f, hkf, hcall⟩ := callXfer_closed [b] hclosed
    have hperf := perform_going (m := .xferb b) hp (by simp [haltsOn])
    rw [callOf, hcall] at hperf
    rw [hperf]
    exact ⟨k, f, hkf, by simp, mem_raise_fault f _ _, rfl⟩
  · obtain ⟨k, f, hkf, hcall⟩ := callXfer_closed (s := { s with pixw := to565 (s.fb.read (s.pixctr - 1)) })
      (wordBytes (to565 (s.fb.read (s.pixctr - 1)))) hclosed
    have hperf := perform_going (m := .xferpx) hp (by simp [haltsOn])
    simp only [callOf, callXferpx, hcall] at hperf
    rw [hperf]
    exact ⟨k, f, hkf, by simp, mem_raise_fault f _ _, rfl, by simp⟩

/-- The open flags after a release: the flag of its resource cleared, the others as they were (R117). -/
theorem openFlag_callRel (q r : Resource) (s : State) : openFlag r (callRel q s) = (openFlag r s && decide (r ≠ q)) := by
  cases q <;> cases r <;> simp [openFlag, callRel, setOpen, setLatch]

/-- The latches after a release: U on the line of its resource, the others as they were (R117). -/
theorem latch_callRel (r : Resource) (l : Line) (s : State) :
    latch l (callRel r s) = if l.resource = r then .undriven else latch l s := by
  cases r <;> cases l <;> rfl

theorem callRel_trace (r : Resource) (s : State) : (callRel r s).trace = s.trace ++ [.rel r] := by cases r <;> rfl

/-- Settles O26: what a release does to the history, the flags and the latches. -/
theorem releaseClosesTheResource : Obligations.ReleaseClosesTheResource := by
  intro r s
  refine ⟨callRel_trace r s, ?_, fun r' hr => ?_, fun l => latch_callRel r l s⟩
  · simp [openFlag_callRel]
  · simp [openFlag_callRel, hr]

end Sys2Proof.Machine

namespace Sys2Proof.Machine

/-! ## What a sequencer word does, and what the panel receives of it -/

/-- The micro-program of a data word (R68, R120). -/
theorem execW9_data (c : Cfg) (b : Byte) : execW9 c (w9Of true b) = senddProg c b := by
  simp [execW9, w9Flag_w9Of, w9Byte_w9Of]

/-- The events of a data word (R68, R120). -/
theorem wordEvents_data (c : Cfg) (b : Byte) : wordEvents c (w9Of true b) =
    [.pin .dc c.dcData .ok, .pin .cs c.csActive .ok, .xfer [b] .ok, .pin .cs c.csIdle .ok] := by
  simp [wordEvents, w9Flag_w9Of, w9Byte_w9Of]

/-- Settles O29: the lone command word. -/
theorem sendcSendsACommandByte : Obligations.SendcSendsACommandByte := by
  intro s b hb hp hspi hcs hdc hok
  exact (exec_sendc b s).trans (wordOp_sendc_ok b hb hp hspi hcs hdc hok)

/-- Settles O30: the lone data word. -/
theorem senddSendsADataByte : Obligations.SenddSendsADataByte := by
  intro s b hb hp hspi hcs hdc hok
  have hword := wordOp_word_ok (w9Of true b) hb hp hspi hcs hdc hok
  rw [execW9_data, wordEvents_data, w9Flag_w9Of] at hword
  exact (exec_sendd b s).trans hword

/-- `rx` is the walk from all lines U, over the history as it is (R35). -/
theorem rx_eq_rxFrom (c : Cfg) (t : List Event) : rx c t = rxFrom c Pins.start t := rxFrom_wire c t Pins.start

/-- Settles O34: the panel receives a word as itself from whatever levels the history leaves (`rxFrom_word`). -/
theorem wordsReachThePanel : Obligations.WordsReachThePanel := by
  constructor
  · intro s w seen hcmd hdata hb hp hspi hcs hdc hok hseen
    refine ⟨_, (exec_decodeW9 w s).trans (wordOp_word_ok w hb hp hspi hcs hdc hok), ?_⟩
    rw [rx_eq_rxFrom] at hseen
    rw [rx_eq_rxFrom, rxFrom_append, hseen, rxFrom_word hcmd hdata]
    rfl
  · intro c ws hcmd hdata
    rw [rx_eq_rxFrom, rxFrom_words hcmd hdata]

/-- Micro-operations that send no pixel leave the pixel word alone. -/
theorem performAll_pixw {ms : List MicroOp} (hx : MicroOp.xferpx ∉ ms) : ∀ s : State, (performAll ms s).pixw = s.pixw := by
  induction ms with
  | nil => intro s; rfl
  | cons m ms ih =>
    intro s
    have hm : m ≠ .xferpx := fun h => hx (by simp [h])
    have hcall : (callOf m s).pixw = s.pixw := by cases m <;> simp_all [callOf]
    rw [performAll_cons, ih (fun h => hx (List.mem_cons_of_mem _ h))]
    by_cases hp : s.phase = .halted
    · rw [perform_halted hp]
    by_cases hh : haltsOn m s
    · rw [perform_halting hp hh, hcall]
    · rw [perform_going hp hh, hcall]

/-- A sequencer word, whatever ENV answers, changes at most the position, two latches, the failures, the history and ENV's answers
(R119, R120). -/
theorem performAll_word_frame {s t : State} {w : W9} (hp : s.phase ≠ .halted) (ht : performAll (execW9 s.cfg w) s = t) :
    t = { s with
      pc := t.pc, cs := t.cs, dc := t.dc, fault := t.fault, trace := t.trace, env := t.env, envCount := t.envCount } := by
  have hplain := execWords_plain s.cfg [w]
  have hframe := execWords_frameOps s.cfg [w]
  rw [show execWords s.cfg [w] = execW9 s.cfg w by simp] at hplain hframe
  obtain ⟨hopen, hpx⟩ := hplain
  have hkept := performAll_kept (execW9 s.cfg w) s
  obtain ⟨hphase, hprog, -⟩ := performAll_going hopen hp
  have hflag := fun r => performAll_flags (execW9_flags s.cfg w) r (s := s)
  have hrst := performAll_rst hframe s
  have hpixw := performAll_pixw hpx s
  have hpixctr := performAll_pixctr hpx hopen hp
  rw [ht] at hkept hphase hprog hrst hpixw hpixctr
  simp only [ht] at hflag
  have hspi : t.spiOpen = s.spiOpen := hflag .spi
  have hcs : t.csOpen = s.csOpen := hflag .cs
  have hdc : t.dcOpen = s.dcOpen := hflag .dc
  have hres : t.rstOpen = s.rstOpen := hflag .rst
  unfold kept at hkept
  rwa [hphase, hprog, hspi, hcs, hdc, hres, hrst, hpixw, hpixctr] at hkept

/-- Settles O33: HALTED performs nothing, and elsewhere `performAll_word_frame` and the end of a lone word. -/
theorem wordsFrame : Obligations.WordsFrame := by
  intro s t w hb ht
  rw [exec_decodeW9, wordOp] at ht
  obtain rfl := Host.Outcome.next.inj ht
  by_cases hp : s.phase = .halted
  · rw [performAll_halted hp, settle, if_pos hp]
  · have hword := performAll_word_frame hp (w := w) rfl
    generalize performAll (execW9 s.cfg w) s = u at *
    have hsettle := settle_between (t := u) hb hp (by rw [hword]) (by rw [hword])
    obtain ⟨hprog, -, hpc⟩ := hb
    rw [hsettle, hword]
    simp only [hprog, hpc hp]

end Sys2Proof.Machine

namespace Sys2Proof.Machine

/-! ## The phase after a step -/

/-- The end of an operation, or of the construct program, leads to OFF from no other phase (R26). -/
theorem settle_ne_off {s : State} (h : s.phase ≠ .off) : (settle s).phase ≠ .off := by
  have hfinish : (finish s).phase ≠ .off := by
    unfold finish
    split <;> simp_all
  unfold settle
  split
  · exact h
  · split
    · exact hfinish
    · split
      · simp
      · exact h

theorem perform_ne_off (m : MicroOp) (s : State) (h : s.phase ≠ .off) : (perform m s).phase ≠ .off := by
  by_cases hp : s.phase = .halted
  · rwa [perform_halted hp]
  obtain ⟨hhalts, hgoes⟩ := perform_phase m s hp
  by_cases hh : haltsOn m s
  · rw [hhalts.2 hh]; simp
  · rwa [hgoes hh]

theorem startRun_ne_off (s : State) : (startRun s).phase ≠ .off := by
  by_cases ha : envAnswer (envNext s) = .ok
  · rw [startRun_going ha]; simp
  · rw [startRun_halting ha]
    exact performAll_keeps perform_ne_off _ (beginStart s) (by simp [beginStart])

/-- No instruction returns to OFF: a host operation ends in READY, CLOSED or HALTED, and everything else keeps the phase or goes on
in the running operation (R26). -/
theorem exec_ne_off {i : Instr} {s t : State} (h : s.phase ≠ .off) (ht : exec i s = .next t) : t.phase ≠ .off := by
  rcases exec_cases ht with ⟨why, e⟩ | ⟨r, e⟩ | ⟨x, y, c, -, -, e⟩ | ⟨-, -, e⟩ | ⟨-, -, -, -, e⟩ | ⟨-, -, e⟩ | ⟨w, -, e⟩ <;> rw [e]
  · exact h
  · exact h
  · exact h
  · exact startRun_ne_off s
  · rw [presentRun_completed]; simp
  · rw [closeRun_completed]; simp
  · exact settle_ne_off (performAll_keeps perform_ne_off _ s h)

/-- Settles O52: whatever the step does (`step_cases`), it is a micro-operation, an instruction, or bookkeeping. -/
theorem noStepReturnsToOff : Obligations.NoStepReturnsToOff := by
  intro s t h ht
  rcases step_cases ht with ⟨m, -, -, -, rfl⟩ | ⟨-, -, rfl⟩ | ⟨w, rest, e, -, -, -, rfl⟩ | ⟨w, rest, i, -, -, -, hex⟩ | ⟨w, -, -, hex⟩
  · exact settle_ne_off (perform_ne_off m s h)
  · exact h
  · exact h
  · exact exec_ne_off (s := { s with input := rest }) h hex
  · exact exec_ne_off (s := { s with testPort := .used }) h hex

end Sys2Proof.Machine

namespace Sys2Proof.Machine

/-! ## START outside OFF, and the final phases -/

theorem exec_start_refused {s : State} (h : s.phase ≠ .off) : exec .start s = .next (refuse .badPhase s) := by
  simp [exec, execStart, hostOp, startCheck, h]

/-- A lone sequencer word between operations keeps the phase (log 10, log 11). -/
theorem settle_word_phase {s : State} (hb : betweenOps s) (w : W9) :
    (settle (performAll (execW9 s.cfg w) s)).phase = s.phase := by
  by_cases hp : s.phase = .halted
  · rw [performAll_halted hp, settle, if_pos hp]
  have hno : MicroOp.openr .cs ∉ execW9 s.cfg w := fun hm => ((execW9_flags s.cfg w _ hm) .cs).1 rfl
  obtain ⟨hphase, hprog, -⟩ := performAll_going hno hp
  rw [settle_between hb hp hphase hprog]
  exact hphase

/-- No instruction leads out of CLOSED or HALTED: the operations that move the phase start in OFF or READY (R26). -/
theorem exec_final {i : Instr} {s t : State} (hb : betweenOps s) (hfinal : s.phase = .closed ∨ s.phase = .halted)
    (ht : exec i s = .next t) : t.phase = s.phase := by
  have hoff : s.phase ≠ .off := by rcases hfinal with h | h <;> simp [h]
  have hready : s.phase ≠ .ready := by rcases hfinal with h | h <;> simp [h]
  rcases exec_cases ht with ⟨why, e⟩ | ⟨r, e⟩ | ⟨x, y, c, -, -, e⟩ | ⟨-, hp, -⟩ | ⟨-, hp, -⟩ | ⟨-, hp, -⟩ | ⟨w, -, e⟩
  · rw [e]; rfl
  · rw [e]
  · rw [e]
  · exact absurd hp hoff
  · exact absurd hp hready
  · exact absurd hp hready
  · rw [e]; exact settle_word_phase hb w

/-- Settles O37: the check of `START`, and `exec_final` for the instruction of the step. -/
theorem startRefusedOutsideOff : Obligations.StartRefusedOutsideOff := by
  refine ⟨fun s h => exec_start_refused h, fun s t hb hfinal ht => ?_⟩
  rcases step_cases ht with ⟨m, hrun, -⟩ | ⟨-, -, rfl⟩ | ⟨w, rest, e, -, -, -, rfl⟩ | ⟨w, rest, i, -, -, -, hex⟩ | ⟨w, -, -, hex⟩
  · simp [running, hb.1] at hrun
  · rfl
  · rfl
  · exact exec_final (s := { s with input := rest }) hb hfinal hex
  · exact exec_final (s := { s with testPort := .used }) hb hfinal hex

end Sys2Proof.Machine

namespace Sys2Proof.Machine

/-! ## A word of the init table and its instruction -/

/-- Inside the init program nothing follows a micro-operation (R20, R26). -/
theorem settle_init {s : State} (hp : s.phase = .init) (hl : s.pc < s.prog.length) : settle s = s := by
  unfold settle
  rw [if_neg (by simp [hp]), if_neg (by omega), if_neg (by simp [hp])]

/-- Small steps of the init program perform its next micro-operations; only after the last of them may the operation end (R21). -/
theorem seqRun_init (ms rest : List MicroOp) (hne : ms ≠ []) (hno : MicroOp.openr .cs ∉ ms) : ∀ s : State,
    s.phase = .init → s.prog.drop s.pc = ms ++ rest → seqRun ms.length s = settle (performAll ms s) := by
  induction ms with
  | nil => exact absurd rfl hne
  | cons m ms ih =>
    intro s hp hd
    have hpn : s.phase ≠ .halted := by simp [hp]
    have hh : ¬ haltsOn m s := by rintro ⟨rfl, -⟩; simp at hno
    obtain ⟨-, hpc, hprog, hphase⟩ := perform_attempts hpn hh
    rw [List.length_cons, seqRun, seqStep_of hpn (getElem?_of_drop hd), performAll_cons]
    by_cases he : ms = []
    · subst he; rfl
    · have hlen : s.prog.length - s.pc = ms.length + 1 + rest.length := by
        simpa [Nat.add_right_comm] using congrArg List.length hd
      have hpos : 0 < ms.length := List.length_pos_iff.2 he
      rw [settle_init (hphase.trans hp) (by rw [hpc, hprog]; omega)]
      refine ih he (fun h => hno (List.mem_cons_of_mem _ h)) _ (hphase.trans hp) ?_
      rw [hprog, hpc, ← List.drop_drop, hd]
      rfl

/-- What is left of the micro-program of a list of words at one of them: that word's micro-operations come first (R122). -/
theorem execWords_drop (c : Cfg) {ws : List W9} {i : Nat} {w : W9} (h : ws[i]? = some w) :
    ∃ rest, (execWords c ws).drop (4 * i) = execW9 c w ++ rest := by
  obtain ⟨hi, rfl⟩ := List.getElem?_eq_some_iff.1 h
  have hcut : execWords c ws = execWords c (ws.take i) ++ (execW9 c ws[i] ++ execWords c (ws.drop (i + 1))) := by
    rw [← execWords_cons, ← List.drop_eq_getElem_cons hi]
    simp only [execWords, ← List.flatten_append, ← List.map_append, List.take_append_drop]
  refine ⟨execWords c (ws.drop (i + 1)), ?_⟩
  rw [hcut, List.drop_left' (by rw [execWords_length, List.length_take]; omega)]

/-- The nine micro-operations before the table are the construct program and the reset pulse (R129, R135). -/
theorem startProg_drop (c : Cfg) (n : Nat) : (startProg c).drop (9 + n) = (execWords c c.initWords).drop n := by
  rw [← List.drop_drop]
  rfl

/-- Settles O39: the four micro-operations of the word are the next ones of the init program (`execWords_drop`, `seqRun_init`). -/
theorem romWordRunsAsItsInstruction : Obligations.RomWordRunsAsItsInstruction := by
  intro s i w hp hprog hpc hw
  obtain ⟨rest, hrest⟩ := execWords_drop s.cfg hw
  have hd : s.prog.drop s.pc = execW9 s.cfg w ++ rest := by rw [hprog, hpc, startProg_drop, hrest]
  have hlen := execW9_length s.cfg w
  have hno : MicroOp.openr .cs ∉ execW9 s.cfg w := fun hm => ((execW9_flags s.cfg w _ hm) .cs).1 rfl
  have hrun := seqRun_init (execW9 s.cfg w) rest (List.ne_nil_of_length_pos (by omega)) hno s hp hd
  rw [exec_decodeW9, wordOp, ← hrun, hlen]

end Sys2Proof.Machine

namespace Sys2Proof.Machine

/-! ## START, all calls successful -/

/-- ENV's answers of a successful run, cut at a place. -/
theorem answersOk_split {a b : Nat} {s : State} (h : answersOk (a + b) s) :
    s.env = List.replicate a .ok ++ (List.replicate b .ok ++ s.env.drop (a + b)) := by
  rw [← List.append_assoc, ← List.replicate_add]
  exact answersOk_iff.1 h

/-- `INIT_PROG`, all calls successful, from chip-select at idle: the reset pulse, then the table (R134, R135). -/
theorem performAll_init_ok {c : Cfg} {s : State} {rest : List Answer} (hcfg : s.cfg = c) (hp : s.phase ≠ .halted)
    (hspi : s.spiOpen = true) (hcs : s.csOpen = true) (hdc : s.dcOpen = true) (hrst : s.rstOpen = true)
    (hidle : s.cs = Level.ofBit c.csIdle)
    (he : s.env = List.replicate 3 .ok ++ (List.replicate (4 * c.initWords.length) .ok ++ rest)) :
    performAll (initProg c) s = { s with
      rst := .high, dc := wordsDc c s.dc c.initWords, pc := s.pc + 3 + 4 * c.initWords.length, env := rest
      trace := s.trace ++ [.pin .rst true .ok, .pin .rst false .ok, .pin .rst true .ok] ++ wordsEvents c c.initWords } := by
  rw [initProg, performAll_append, performAll_reset_ok _ hp hrst he,
    performAll_words_ok c.initWords (by exact hcfg) (by exact hp) (by exact hspi) (by exact hcs) (by exact hdc) (by exact hidle)
      (by rfl)]

/-- The state after the construct program, all calls successful (R130, R132). -/
theorem afterConstruct_ok {s : State} {rest : List Answer} (he : s.env = List.replicate 6 .ok ++ rest) :
    afterConstruct s = { s with
      phase := .init, prog := startProg s.cfg, pc := 6, reply := .nothing, env := rest
      spiOpen := true, csOpen := true, dcOpen := true, rstOpen := true
      cs := Level.ofBit s.cfg.csIdle, dc := Level.ofBit s.cfg.dcIdle
      trace := s.trace ++ [.opened .spi .ok, .opened .cs .ok, .opened .dc .ok, .opened .rst .ok, .pin .cs s.cfg.csIdle .ok,
        .pin .dc s.cfg.dcIdle .ok] } := by
  have hconstruct := performAll_construct_ok (s := beginStart s) rest (by simp [beginStart]) he
  rw [afterConstruct, show s.cfg = (beginStart s).cfg from rfl, hconstruct]
  simp [enterInit, beginStart]

/-- `START`, all calls successful (R129 to R140). -/
theorem startRun_ok {s : State} (hok : answersOk (9 + 4 * s.cfg.initWords.length) s) :
    startRun s = { s with
      phase := .ready, prog := [], pc := 0, reply := .done
      spiOpen := true, csOpen := true, dcOpen := true, rstOpen := true
      cs := Level.ofBit s.cfg.csIdle, rst := .high
      dc := wordsDc s.cfg (Level.ofBit s.cfg.dcIdle) s.cfg.initWords
      trace := s.trace ++ startEvents s.cfg, env := s.env.drop (9 + 4 * s.cfg.initWords.length) } := by
  have he : s.env = List.replicate 6 .ok ++ (List.replicate 3 .ok ++ (List.replicate (4 * s.cfg.initWords.length) .ok ++
    s.env.drop (9 + 4 * s.cfg.initWords.length))) := answersOk_split hok
  have hsecond : envAnswer (envNext s) = .ok := by rw [envNext_cons he]; rfl
  rw [startRun_going hsecond, afterConstruct_ok he, performAll_init_ok (by rfl) (by simp) rfl rfl rfl rfl rfl (by rfl)]
  simp [completed, startEvents]

/-- A table that ends as law (c) of R70 says leaves the data/command line at the command level: its last word is display-on (R140). -/
theorem wordsDc_of_lawInitLast {c : Cfg} (h : c.lawInitLast = true) (d : Level) :
    wordsDc c d c.initWords = Level.ofBit c.dcCmd := by
  obtain ⟨before, hwords⟩ := of_decide_eq_true h
  have hlast : c.initWords.getLast? = some 0x029 := by rw [← hwords]; simp
  rw [wordsDc, hlast]
  rfl

/-- Settles O35: `startRun_ok`, with the data/command level read off the last word of the table. -/
theorem startBringsTheBlockToReady : Obligations.StartBringsTheBlockToReady := by
  constructor
  · intro s hp hok
    rw [exec_start hp, startRun_ok hok, wordsDc]
    cases s.cfg.initWords.getLast? with
    | none => rfl
    | some w => rfl
  · intro s hp hok hlaw
    exact ⟨_, exec_start hp, by rw [startRun_ok hok]; exact wordsDc_of_lawInitLast hlaw _⟩

/-- What the panel receives of `START`: nothing before the table (R130, R134), then the table, from whatever levels. -/
theorem rxFrom_startEvents {c : Cfg} (hcmd : c.dcCmd = false) (hdata : c.dcData = true) (p : Pins) :
    rxFrom c p (startEvents c) = some c.initWords := by
  rw [startEvents]
  simp [rxFrom, rxFrom_words hcmd hdata]

/-- Settles O38: what the panel receives of the history that `startRun_ok` gives. -/
theorem startSendsTheInitTable : Obligations.StartSendsTheInitTable := by
  intro s hp htrace hcmd hdata hok
  refine ⟨_, exec_start hp, ?_⟩
  rw [startRun_ok hok, rx_eq_rxFrom, htrace]
  exact rxFrom_startEvents hcmd hdata Pins.start

end Sys2Proof.Machine

namespace Sys2Proof.Machine

/-! ## PRESENT, all calls successful -/

/-- A list of words that is not empty ends with chip-select at idle, whatever its level before (R121, R122). -/
theorem performAll_words_ok_of_ne_nil {c : Cfg} {ws : List W9} (hne : ws ≠ []) {rest : List Answer} {s : State} (hcfg : s.cfg = c)
    (hp : s.phase ≠ .halted) (hspi : s.spiOpen = true) (hcs : s.csOpen = true) (hdc : s.dcOpen = true)
    (he : s.env = List.replicate (4 * ws.length) .ok ++ rest) :
    performAll (execWords c ws) s = { s with
      cs := Level.ofBit c.csIdle, dc := wordsDc c s.dc ws
      trace := s.trace ++ wordsEvents c ws, env := rest, pc := s.pc + 4 * ws.length } := by
  cases ws with
  | nil => exact absurd rfl hne
  | cons w ws =>
    subst hcfg
    have he' : s.env = List.replicate 4 .ok ++ (List.replicate (4 * ws.length) .ok ++ rest) := by
      rw [he, List.length_cons, Nat.mul_succ, Nat.add_comm, List.replicate_add, List.append_assoc]
    rw [execWords_cons, performAll_append, performAll_word_ok w hp hspi hcs hdc he',
      performAll_words_ok ws (by rfl) (by exact hp) (by exact hspi) (by exact hcs) (by exact hdc) (by rfl) (by rfl)]
    simp only [wordsEvents_cons, List.append_assoc, List.length_cons, wordsDc_cons]
    congr 1
    omega

/-- The two writes before the pixels, all calls successful (R150). -/
theorem performAll_streamSetup_ok {c : Cfg} {s : State} {rest : List Answer} (hp : s.phase ≠ .halted)
    (hcs : s.csOpen = true) (hdc : s.dcOpen = true) (he : s.env = List.replicate 2 .ok ++ rest) :
    performAll (streamSetupProg c) s = { s with
      cs := Level.ofBit c.csActive, dc := Level.ofBit c.dcData
      trace := s.trace ++ setupEvents c, env := rest, pc := s.pc + 2 } := by
  have he' : s.env = .ok :: .ok :: rest := he
  unfold streamSetupProg setupEvents
  cases c.streamSetup with
  | csFirst =>
    simp only [performAll_cons, performAll_nil]
    rw [perform_pinw_ok hp (by exact hcs) he', perform_pinw_ok (by exact hp) (by exact hdc) rfl]
    simp [setLatch]
  | dcFirst =>
    simp only [performAll_cons, performAll_nil]
    rw [perform_pinw_ok hp (by exact hdc) he', perform_pinw_ok (by exact hp) (by exact hcs) rfl]
    simp [setLatch]

/-- `PRESENT_PROG`, all calls successful: window, set-up, every pixel, chip-select idle (R148 to R153). -/
theorem performAll_present_ok {s : State} {rest : List Answer} (hp : s.phase ≠ .halted) (hspi : s.spiOpen = true)
    (hcs : s.csOpen = true) (hdc : s.dcOpen = true) (hctr : s.pixctr = s.cfg.nPix)
    (he : s.env = List.replicate 44 .ok ++ (List.replicate 2 .ok ++ (List.replicate s.cfg.nPix .ok ++ .ok :: rest))) :
    performAll (presentProg s.cfg) s = { s with
      cs := Level.ofBit s.cfg.csIdle, dc := Level.ofBit s.cfg.dcData
      pixw := if s.cfg.nPix = 0 then s.pixw else to565 (s.fb.read 0), pixctr := 0
      trace := s.trace ++ presentEvents s.cfg s.fb, env := rest, pc := s.pc + (47 + s.cfg.nPix) } := by
  have hwindow := performAll_words_ok_of_ne_nil (c := s.cfg) (ws := windowWords s.cfg) (by simp [windowWords]) rfl hp hspi hcs hdc he
  rw [presentProg, performAll_append, performAll_append, performAll_append, hwindow]
  rw [performAll_streamSetup_ok (by exact hp) (by exact hcs) (by exact hdc) (by rfl),
    performAll_pixels_ok s.cfg.nPix (by exact hp) (by exact hspi) (by exact hctr) (by rfl),
    performAll_cons, performAll_nil, perform_pinw_ok (by exact hp) (by exact hcs) (by rfl)]
  have hpc : s.pc + 4 * (windowWords s.cfg).length + 2 + s.cfg.nPix + 1 = s.pc + (47 + s.cfg.nPix) := by
    simp only [show (windowWords s.cfg).length = 11 from rfl]; omega
  simp [setLatch, presentEvents, hpc]

/-- `PRESENT`, all calls successful (R146 to R153). -/
theorem presentRun_ok {s : State} (hspi : s.spiOpen = true) (hcs : s.csOpen = true) (hdc : s.dcOpen = true)
    (hok : answersOk (47 + s.cfg.nPix) s) :
    presentRun s = { s with
      phase := .ready, prog := [], pc := 0, reply := .done
      cs := Level.ofBit s.cfg.csIdle, dc := Level.ofBit s.cfg.dcData
      pixw := if s.cfg.nPix = 0 then s.pixw else to565 (s.fb.read 0), pixctr := 0
      trace := s.trace ++ presentEvents s.cfg s.fb, env := s.env.drop (47 + s.cfg.nPix) } := by
  have he : s.env = List.replicate 44 .ok ++ (List.replicate 2 .ok ++ (List.replicate s.cfg.nPix .ok ++
      .ok :: s.env.drop (47 + s.cfg.nPix))) := by
    have hlast : List.replicate (1 + s.cfg.nPix) Answer.ok = List.replicate s.cfg.nPix .ok ++ [.ok] := by
      rw [Nat.add_comm, List.replicate_succ']
    have hcut := answersOk_split (a := 46) (b := 1 + s.cfg.nPix) (by rwa [← Nat.add_assoc])
    rw [hlast, ← Nat.add_assoc, List.append_assoc] at hcut
    exact hcut
  have hrun := performAll_present_ok (s := beginPresent s) (by simp [beginPresent]) hspi hcs hdc rfl he
  rw [presentRun_completed, show s.cfg = (beginPresent s).cfg from rfl, hrun]
  rfl

end Sys2Proof.Machine

namespace Sys2Proof.Machine

/-! ## How many events -/

/-- A kind of event that every word has `k` times, a list of words has `k` times for every word. -/
theorem wordsEvents_countP {c : Cfg} {p : Event → Bool} {k : Nat} (h : ∀ w, (wordEvents c w).countP p = k) (ws : List W9) :
    (wordsEvents c ws).countP p = k * ws.length := by
  induction ws with
  | nil => rfl
  | cons w ws ih => rw [wordsEvents_cons, List.countP_append, h, ih, List.length_cons, Nat.mul_succ, Nat.add_comm]

theorem wordsEvents_length (c : Cfg) (ws : List W9) : (wordsEvents c ws).length = 4 * ws.length := by
  have hword : ∀ w, (wordEvents c w).countP (fun _ => true) = 4 := by intro w; unfold wordEvents; split <;> rfl
  simpa using wordsEvents_countP hword ws

theorem wordsEvents_opens (c : Cfg) (ws : List W9) : (wordsEvents c ws).countP Event.isOpen = 0 := by
  have hword : ∀ w, (wordEvents c w).countP Event.isOpen = 0 := by intro w; unfold wordEvents; split <;> rfl
  simpa using wordsEvents_countP hword ws

theorem wordsEvents_pins (c : Cfg) (ws : List W9) : (wordsEvents c ws).countP Event.isPin = 3 * ws.length := by
  have hword : ∀ w, (wordEvents c w).countP Event.isPin = 3 := by intro w; unfold wordEvents; split <;> rfl
  exact wordsEvents_countP hword ws

/-- Every word transfers one byte (R119, R120). -/
theorem wordsEvents_xferSizes (c : Cfg) (ws : List W9) :
    (wordsEvents c ws).filterMap Event.xferSize = List.replicate ws.length 1 := by
  have hword : ∀ w, (wordEvents c w).filterMap Event.xferSize = [1] := by intro w; unfold wordEvents; split <;> rfl
  induction ws with
  | nil => rfl
  | cons w ws ih => rw [wordsEvents_cons, List.filterMap_append, hword, ih]; rfl

/-- Every word writes chip-select active once and idle once, if the two levels differ (R119, R120). -/
theorem wordsEvents_chipSelect {c : Cfg} (h : c.csActive ≠ c.csIdle) (ws : List W9) :
    (wordsEvents c ws).count (.pin .cs c.csActive .ok) = ws.length ∧ (wordsEvents c ws).count (.pin .cs c.csIdle .ok) = ws.length := by
  have hactive : ∀ w, (wordEvents c w).countP (· == .pin .cs c.csActive .ok) = 1 := by
    intro w; unfold wordEvents; split <;> simp [h.symm]
  have hidle : ∀ w, (wordEvents c w).countP (· == .pin .cs c.csIdle .ok) = 1 := by
    intro w; unfold wordEvents; split <;> simp [h]
  rw [List.count, List.count, wordsEvents_countP hactive, wordsEvents_countP hidle, Nat.one_mul]
  exact ⟨rfl, rfl⟩

theorem pixelEvents_length (m : Memory) (n : Nat) : (pixelEvents m n).length = n := by
  induction n with
  | zero => rfl
  | succ n ih => rw [pixelEvents, List.length_cons, ih]

/-- The pixels are transfers alone (R151). -/
theorem pixelEvents_countP {p : Event → Bool} (h : ∀ bytes, p (.xfer bytes .ok) = false) (m : Memory) (n : Nat) :
    (pixelEvents m n).countP p = 0 := by
  induction n with
  | zero => rfl
  | succ n ih => rw [pixelEvents, List.countP_cons_of_neg (by simp [h]), ih]

/-- Every pixel transfers two bytes (R152). -/
theorem pixelEvents_xferSizes (m : Memory) (n : Nat) : (pixelEvents m n).filterMap Event.xferSize = List.replicate n 2 := by
  induction n with
  | zero => rfl
  | succ n ih => rw [pixelEvents, List.filterMap_cons_some (Event.xferSize_xfer _ _), ih]; rfl

/-- The two pin writes before the pixels, whichever comes first (R150). -/
theorem setupEvents_perm (c : Cfg) : (setupEvents c).Perm [.pin .cs c.csActive .ok, .pin .dc c.dcData .ok] := by
  unfold setupEvents
  cases c.streamSetup with
  | csFirst => exact List.Perm.refl _
  | dcFirst => exact List.Perm.swap _ _ _

theorem windowWords_length (c : Cfg) : (windowWords c).length = 11 := rfl

theorem presentEvents_length (c : Cfg) (m : Memory) : (presentEvents c m).length = 47 + c.nPix := by
  simp only [presentEvents, List.length_append, wordsEvents_length, windowWords_length, (setupEvents_perm c).length_eq,
    pixelEvents_length, List.length_cons, List.length_nil]
  omega

/-- A kind of event that is no transfer, in one `PRESENT`: as often as in the window words, the set-up and the last write. -/
theorem presentEvents_countP {p : Event → Bool} (h : ∀ bytes, p (.xfer bytes .ok) = false) (c : Cfg) (m : Memory) :
    (presentEvents c m).countP p = (wordsEvents c (windowWords c)).countP p +
      [Event.pin .cs c.csActive .ok, .pin .dc c.dcData .ok, .pin .cs c.csIdle .ok].countP p := by
  simp only [presentEvents, List.countP_append, (setupEvents_perm c).countP_eq, pixelEvents_countP h, List.countP_cons,
    List.countP_nil]
  omega

theorem presentEvents_pins (c : Cfg) (m : Memory) : (presentEvents c m).countP Event.isPin = 36 := by
  rw [presentEvents_countP (fun _ => rfl), wordsEvents_pins, windowWords_length]
  rfl

theorem presentEvents_xferSizes (c : Cfg) (m : Memory) :
    (presentEvents c m).filterMap Event.xferSize = List.replicate 11 1 ++ List.replicate c.nPix 2 := by
  have hsetup : (setupEvents c).filterMap Event.xferSize = [] := ((setupEvents_perm c).filterMap _).eq_nil
  simp only [presentEvents, List.filterMap_append, wordsEvents_xferSizes, windowWords_length, hsetup, pixelEvents_xferSizes]
  simp

/-- One `PRESENT` selects and deselects the panel twelve times: for each window word, and around the pixels (R155). -/
theorem presentEvents_chipSelect {c : Cfg} (h : c.csActive ≠ c.csIdle) (m : Memory) :
    (presentEvents c m).count (.pin .cs c.csActive .ok) = 12 ∧ (presentEvents c m).count (.pin .cs c.csIdle .ok) = 12 := by
  obtain ⟨hactive, hidle⟩ := wordsEvents_chipSelect h (windowWords c)
  rw [List.count] at hactive hidle
  rw [List.count, List.count, presentEvents_countP (fun _ => rfl), presentEvents_countP (fun _ => rfl), hactive, hidle,
    windowWords_length]
  simp [h, h.symm]

theorem startEvents_length (c : Cfg) : (startEvents c).length = 9 + 4 * c.initWords.length := by
  rw [startEvents, List.length_append, wordsEvents_length]
  rfl

theorem startEvents_opens (c : Cfg) : (startEvents c).countP Event.isOpen = 4 := by
  rw [startEvents, List.countP_append, wordsEvents_opens]
  rfl

theorem startEvents_pins (c : Cfg) : (startEvents c).countP Event.isPin = 5 + 3 * c.initWords.length := by
  rw [startEvents, List.countP_append, wordsEvents_pins]
  rfl

theorem startEvents_xferSizes (c : Cfg) : (startEvents c).filterMap Event.xferSize = List.replicate c.initWords.length 1 := by
  rw [startEvents, List.filterMap_append, wordsEvents_xferSizes]
  rfl

/-- Settles O46: the events appended are those of `startRun_ok` and `presentRun_ok`, counted by kind. -/
theorem eventCounts : Obligations.EventCounts := by
  constructor
  · intro s hp hok
    refine ⟨startRun s, startEvents s.cfg, exec_start hp, by rw [startRun_ok hok], startEvents_length s.cfg, ?_, ?_,
      startEvents_xferSizes s.cfg⟩
    · rw [← List.countP_eq_length_filter, startEvents_opens]
    · rw [← List.countP_eq_length_filter, startEvents_pins]
  · intro s hp hw hh hspi hcs hdc hok
    refine ⟨presentRun s, presentEvents s.cfg s.fb, exec_present hp hw hh, by rw [presentRun_ok hspi hcs hdc hok],
      presentEvents_length s.cfg s.fb, ?_, presentEvents_xferSizes s.cfg s.fb, ?_, fun h => presentEvents_chipSelect h s.fb⟩
    · rw [← List.countP_eq_length_filter, presentEvents_pins]
    · rw [presentEvents_xferSizes]
      simp only [List.sum_append, List.sum_replicate, smul_eq_mul]
      omega

end Sys2Proof.Machine

namespace Sys2Proof.Machine

/-! ## What PRESENT sends, and when it is refused -/

/-- Settles O41: `presentRun_ok` in a state that the check of `PRESENT` lets through. -/
theorem presentStreamsTheFrame : Obligations.PresentStreamsTheFrame := by
  intro s hp hw hh hspi hcs hdc hok
  rw [exec_present hp hw hh, presentRun_ok hspi hcs hdc hok]

theorem presentCheck_phase {s : State} (h : s.phase ≠ .ready) : presentCheck s = some .badPhase := if_pos h

theorem presentCheck_size {s : State} (hp : s.phase = .ready) (h : s.cfg.fbW ≠ s.cfg.panelW ∨ s.cfg.fbH ≠ s.cfg.panelH) :
    presentCheck s = some .dimMismatch := by
  rw [presentCheck, if_neg (not_not.mpr hp), if_pos h]

/-- Settles O43: the check of `PRESENT` in its two failing branches, and a refusal's only effects are its mark and the answer. -/
theorem presentRefused : Obligations.PresentRefused := by
  constructor
  · intro s h
    rw [exec_present_hostOp, presentCheck_phase h]
    rfl
  · intro s hp h
    rw [exec_present_hostOp, presentCheck_size hp h]
    rfl

/-- What the panel receives of two pieces of history, the second from the levels the first leaves. -/
theorem rxFrom_append_some {c : Cfg} {p : Pins} {t u : List Event} {a b : List W9} (ht : rxFrom c p t = some a)
    (hu : rxFrom c (walkPins p t) u = some b) : rxFrom c p (t ++ u) = some (a ++ b) := by
  simp [rxFrom_append, ht, hu]

/-- The stream set-up sends nothing, in either order of its two writes (R150). -/
theorem rxFrom_setupEvents (c : Cfg) (p : Pins) : rxFrom c p (setupEvents c) = some [] := by
  cases h : c.streamSetup <;> simp [setupEvents, h, rxFrom]

/-- The stream set-up selects the panel and puts the data level on the line, in either order of its two writes (R150). -/
theorem walkPins_setupEvents (c : Cfg) (p : Pins) :
    (walkPins p (setupEvents c)).cs = Level.ofBit c.csActive ∧ (walkPins p (setupEvents c)).dc = Level.ofBit c.dcData := by
  cases h : c.streamSetup <;> simp [setupEvents, h, walkPins, Pins.set]

/-- What the panel receives of `PRESENT`, from whatever levels: the window words, then the pixels after the set-up (R156). -/
theorem rxFrom_presentEvents {c : Cfg} (hcmd : c.dcCmd = false) (hdata : c.dcData = true) (m : Memory) (p : Pins) :
    rxFrom c p (presentEvents c m) = some (windowWords c ++ pixelWords m c.nPix) := by
  have hsetup : rxFrom c p (wordsEvents c (windowWords c) ++ setupEvents c) = some (windowWords c ++ []) :=
    rxFrom_append_some (rxFrom_words hcmd hdata _ p) (rxFrom_setupEvents c _)
  obtain ⟨hcs, hdc⟩ := walkPins_setupEvents c (walkPins p (wordsEvents c (windowWords c)))
  rw [← walkPins_append] at hcs hdc
  rw [hdata] at hdc
  have hpixels := rxFrom_append_some hsetup (rxFrom_pixels m hcs hdc c.nPix)
  have hlast := rxFrom_append_some hpixels (u := [.pin .cs c.csIdle .ok]) rfl
  rwa [List.append_nil, List.append_nil] at hlast

/-- Settles O44: what the panel receives of the events that `presentRun_ok` appends, after what it had received. -/
theorem panelReceivesTheFrame : Obligations.PanelReceivesTheFrame := by
  intro s seen hp hw hh hspi hcs hdc hcmd hdata hok hseen
  refine ⟨_, exec_present hp hw hh, ?_⟩
  rw [rx_eq_rxFrom] at hseen
  rw [presentRun_ok hspi hcs hdc hok, rx_eq_rxFrom, List.append_assoc]
  exact rxFrom_append_some hseen (rxFrom_presentEvents hcmd hdata s.fb _)

end Sys2Proof.Machine

namespace Sys2Proof.Machine

/-! ## What CLOSE releases, and when it is refused -/

/-- What the releases of a list of resources leave of a state (R117). -/
def released (rs : List Resource) (s : State) : State :=
  { s with
    pc := s.pc + rs.length
    spiOpen := s.spiOpen && decide (.spi ∉ rs), csOpen := s.csOpen && decide (.cs ∉ rs)
    dcOpen := s.dcOpen && decide (.dc ∉ rs), rstOpen := s.rstOpen && decide (.rst ∉ rs)
    cs := if .cs ∈ rs then .undriven else s.cs, dc := if .dc ∈ rs then .undriven else s.dc
    rst := if .rst ∈ rs then .undriven else s.rst
    trace := s.trace ++ rs.map .rel }

/-- A release as a micro-operation: it has no outcome, and cannot halt the block (R117, R118). -/
theorem perform_relr {s : State} (hp : s.phase ≠ .halted) (r : Resource) : perform (.relr r) s = released [r] s := by
  rw [perform_going hp (by simp [haltsOn])]
  cases r <;> simp [callOf, callRel, setOpen, setLatch, emit, released]

theorem released_nil (s : State) : released [] s = s := by simp [released]

theorem released_cons (r : Resource) (rs : List Resource) (s : State) : released rs (released [r] s) = released (r :: rs) s := by
  simp [released, Bool.and_assoc, ← ite_or, or_comm, Nat.add_comm, Nat.add_left_comm]

/-- A list of releases performed in order, in a block that is not halted. -/
theorem performAll_relr (rs : List Resource) : ∀ {s : State}, s.phase ≠ .halted →
    performAll (rs.map .relr) s = released rs s := by
  induction rs with
  | nil => intro s _; exact (released_nil s).symm
  | cons r rs ih =>
    intro s hp
    have hp' : (released [r] s).phase ≠ .halted := hp
    rw [List.map_cons, performAll_cons, perform_relr hp, ih hp', released_cons]

/-- The open resources in the order SPI, CS, DC, RST (R163). -/
def openResources (s : State) : List Resource := ([.spi, .cs, .dc, .rst] : List Resource).filter (fun r => openFlag r s)

theorem closeProg_openResources (s : State) : closeProg s = (openResources s).map .relr := rfl

theorem mem_openResources (r : Resource) (s : State) : r ∈ openResources s ↔ openFlag r s = true := by
  cases r <;> simp [openResources]

/-- The events of `CLOSE` are one release for every open resource, as its micro-program is (R163). -/
theorem closeEvents_openResources (s : State) : closeEvents s = (openResources s).map .rel := by
  have hparts : ([.spi, .cs, .dc, .rst] : List Resource) = [.spi] ++ [.cs] ++ [.dc] ++ [.rst] := rfl
  simp only [closeEvents, openResources, hparts, List.filter_append, List.filter_singleton, Bool.cond_eq_ite, List.map_append,
    apply_ite (List.map Event.rel), List.map_cons, List.map_nil, openFlag]

/-- Settles O48: the micro-program of `CLOSE` is the releases of the open resources, and a flag or a line that was not open is as it
was. -/
theorem closeReleasesWhatIsOpen : Obligations.CloseReleasesWhatIsOpen := by
  intro s hp
  have hperformed : performAll (closeProg s) (beginClose s) = released (openResources s) (beginClose s) := by
    rw [closeProg_openResources, performAll_relr _ (by simp [beginClose])]
  rw [exec_close hp, closeRun_completed, hperformed, closeEvents_openResources]
  simp [completed, released, beginClose, mem_openResources, openFlag]

theorem closeCheck_phase {s : State} (h : s.phase ≠ .ready) : closeCheck s = some .badPhase := if_neg h

theorem exec_close_hostOp (s : State) : exec .close s = hostOp (closeCheck s) s closeRun := rfl

/-- Settles O49: the check of `CLOSE` fails, and a refusal's only effects are its mark and the answer. -/
theorem closeRefusedOutsideReady : Obligations.CloseRefusedOutsideReady := by
  intro s h
  rw [exec_close_hostOp, closeCheck_phase h]
  rfl

end Sys2Proof.Machine

namespace Sys2Proof.Machine

/-! ## A history without a recorded failure -/

/-- What every call keeps and the bookkeeping fields do not touch, every micro-operation keeps (R118). -/
theorem keeps_of_callOf {P : State → Prop} (hcall : ∀ m s, P s → P (callOf m s))
    (hbook : ∀ s ph pr pc r i tp rf px, P s →
      P { s with phase := ph, prog := pr, pc := pc, reply := r, input := i, testPort := tp, refused := rf, pixctr := px }) :
    Keeps P where
  perform m s hs := by
    by_cases hp : s.phase = .halted
    · rwa [perform_halted hp]
    by_cases hh : haltsOn m s
    · rw [perform_halting hp hh]
      exact hcall m s hs
    · rw [perform_going hp hh]
      exact hbook _ _ _ _ _ _ _ _ _ (hcall m s hs)
  bookkeeping := hbook

/-- R194's premise together with R16: the two are kept together, since only a call on an open line drives it without a failure. -/
def cleanHistory (s : State) : Prop := (s.fault = [] → allOk s.trace) ∧ closedLinesUndriven s

theorem cleanHistory_keeps : Keeps cleanHistory :=
  keeps_of_callOf (fun m _ ⟨htrace, hlines⟩ => ⟨callOf_okTrace m htrace, callOf_closedLines m hlines⟩)
    (fun _ _ _ _ _ _ _ _ _ h => h)

/-- Settles O54: the pair is kept by every call, and a write of a cell touches neither the history nor the lines. -/
theorem failureFreeHistoryIsSuccessful : Obligations.FailureFreeHistoryIsSuccessful := by
  intro s t hs ht
  exact cleanHistory_keeps.step (fun _ _ _ _ h _ => h) hs ht

end Sys2Proof.Machine

namespace Sys2Proof.Machine

/-! ## Failures that ENV chooses -/

/-- The failure that ENV chooses for a call: the call's own kind, or an invalid handle, with the information recorded (R170, R171). -/
def chosenFailure (a : Answer) (own : FailKind) (ownFailure invalid : Failure) (k : FailKind) (f : Failure) : Prop :=
  a = .fail ∧ k = own ∧ f = ownFailure ∨ a = .invalidHandle ∧ k = .invalidHandle ∧ f = invalid

/-- A call to which ENV does not answer "ok" fails with the kind ENV gave, the resource open or not (R171, R172). -/
theorem callResult_failed {a : Answer} (ha : a ≠ .ok) {own : FailKind} (hown : own ≠ .invalidHandle)
    (ownFailure invalid : Failure) :
    ∃ k f, chosenFailure a own ownFailure invalid k f ∧
      (∀ isOpen, callResult isOpen own a = .fail k) ∧ failureOf k ownFailure invalid = f := by
  cases a with
  | ok => exact absurd rfl ha
  | fail => exact ⟨own, ownFailure, .inl ⟨rfl, rfl, rfl⟩, fun _ => rfl, by cases own <;> simp [failureOf] at hown ⊢⟩
  | invalidHandle => exact ⟨.invalidHandle, invalid, .inr ⟨rfl, rfl, rfl⟩, fun _ => rfl, rfl⟩

theorem callOpen_failed {s : State} (ha : envAnswer s ≠ .ok) (r : Resource) :
    ∃ k f, chosenFailure (envAnswer s) .openFailure (.openFailure r) (.invalidHandle r s.pc) k f ∧
      callOpen r s = raise f (decide (r = .cs)) (emit (.opened r (.fail k)) (envNext s)) := by
  obtain ⟨k, f, hkf, hres, hf⟩ := callResult_failed ha (own := .openFailure) (by simp) (.openFailure r) (.invalidHandle r s.pc)
  exact ⟨k, f, hkf, by simp only [callOpen, hres, hf]⟩

theorem callPinw_failed {s : State} (ha : envAnswer s ≠ .ok) (l : Line) (v : Bool) :
    ∃ k f, chosenFailure (envAnswer s) .writeFailure (.writeFailure l s.pc) (.invalidHandle l.resource s.pc) k f ∧
      callPinw l v s = raise f false (setLatch l .undriven (emit (.pin l v (.fail k)) (envNext s))) := by
  obtain ⟨k, f, hkf, hres, hf⟩ := callResult_failed ha (own := .writeFailure) (by simp) (.writeFailure l s.pc)
    (.invalidHandle l.resource s.pc)
  exact ⟨k, f, hkf, by simp only [callPinw, hres, hf]⟩

theorem callXfer_failed {s : State} (ha : envAnswer s ≠ .ok) (bytes : List Byte) :
    ∃ k f, chosenFailure (envAnswer s) .transferFailure (.transferFailure bytes.length s.pc) (.invalidHandle .spi s.pc) k f ∧
      callXfer bytes s = raise f false (emit (.xfer bytes (.fail k)) (envNext s)) := by
  obtain ⟨k, f, hkf, hres, hf⟩ := callResult_failed ha (own := .transferFailure) (by simp)
    (.transferFailure bytes.length s.pc) (.invalidHandle .spi s.pc)
  exact ⟨k, f, hkf, by simp only [callXfer, hres, hf]⟩

/-- The block after a failed call that does not halt it (R172, R174): ENV's answer drawn, the event appended, the failure in the set,
the micro-program one further. -/
def recordFailure (f : Failure) (e : Event) (s : State) : State :=
  { envNext s with fault := addFailure f s.fault, trace := s.trace ++ [e], pc := s.pc + 1 }

theorem openFlag_recordFailure (r : Resource) (f : Failure) (e : Event) (s : State) :
    openFlag r (recordFailure f e s) = openFlag r s := by
  cases r <;> simp [openFlag, recordFailure]

theorem latch_recordFailure (l : Line) (f : Failure) (e : Event) (s : State) :
    latch l (recordFailure f e s) = latch l s := by
  cases l <;> simp [latch, recordFailure]

theorem latch_setLatch (l l' : Line) (v : Level) (s : State) :
    latch l' (setLatch l v s) = if l' = l then v else latch l' s := by
  cases l <;> cases l' <;> rfl

/-- A failure that is not fatal, and the `pc + 1` after it (R118, R172). -/
theorem raise_emit_next (f : Failure) (e : Event) (s : State) :
    { raise f false (emit e (envNext s)) with pc := s.pc + 1 } = recordFailure f e s := by
  simp [raise, emit, recordFailure]

theorem perform_pinw_failed {s : State} (hp : s.phase ≠ .halted) (ha : envAnswer s ≠ .ok) (l : Line) (v : Bool) :
    ∃ k f, chosenFailure (envAnswer s) .writeFailure (.writeFailure l s.pc) (.invalidHandle l.resource s.pc) k f ∧
      perform (.pinw l v) s = setLatch l .undriven (recordFailure f (.pin l v (.fail k)) s) := by
  obtain ⟨k, f, hkf, hcall⟩ := callPinw_failed ha l v
  refine ⟨k, f, hkf, ?_⟩
  rw [perform_going hp (by simp [haltsOn]), callOf, hcall, ← raise_emit_next]
  cases l <;> rfl

theorem perform_xferb_failed {s : State} (hp : s.phase ≠ .halted) (ha : envAnswer s ≠ .ok) (b : Byte) :
    ∃ k f, chosenFailure (envAnswer s) .transferFailure (.transferFailure 1 s.pc) (.invalidHandle .spi s.pc) k f ∧
      perform (.xferb b) s = recordFailure f (.xfer [b] (.fail k)) s := by
  obtain ⟨k, f, hkf, hcall⟩ := callXfer_failed ha [b]
  exact ⟨k, f, hkf, by rw [perform_going hp (by simp [haltsOn]), callOf, hcall, raise_emit_next]⟩

/-- The pixel register is loaded before the call, and ENV's answer does not depend on it. -/
theorem envNext_pixw_update (s : State) (v : U16) : envNext { s with pixw := v } = { envNext s with pixw := v } := by
  cases h : s.env <;> simp [envNext, h]

theorem perform_xferpx_failed {s : State} (hp : s.phase ≠ .halted) (ha : envAnswer s ≠ .ok) :
    ∃ k f, chosenFailure (envAnswer s) .transferFailure (.transferFailure 2 s.pc) (.invalidHandle .spi s.pc) k f ∧
      perform .xferpx s = { recordFailure f (.xfer (wordBytes (to565 (s.fb.read (s.pixctr - 1)))) (.fail k)) s with
        pixw := to565 (s.fb.read (s.pixctr - 1)), pixctr := s.pixctr - 1 } := by
  obtain ⟨k, f, hkf, hcall⟩ := callXfer_failed (s := { s with pixw := to565 (s.fb.read (s.pixctr - 1)) }) ha
    (wordBytes (to565 (s.fb.read (s.pixctr - 1))))
  refine ⟨k, f, hkf, ?_⟩
  rw [perform_going hp (by simp [haltsOn])]
  simp only [callOf, callXferpx, hcall, envNext_pixw_update]
  simp [raise, emit, recordFailure]

theorem perform_openr_failed {s : State} (hp : s.phase ≠ .halted) (ha : envAnswer s ≠ .ok) {r : Resource} (hr : r ≠ .cs) :
    ∃ k f, chosenFailure (envAnswer s) .openFailure (.openFailure r) (.invalidHandle r s.pc) k f ∧
      perform (.openr r) s = recordFailure f (.opened r (.fail k)) s := by
  obtain ⟨k, f, hkf, hcall⟩ := callOpen_failed ha r
  refine ⟨k, f, hkf, ?_⟩
  rw [perform_going hp (by simp [haltsOn, hr]), callOf, hcall, decide_eq_false hr, raise_emit_next]

/-- Settles O58: the closed form of each of the four failed calls. -/
theorem failureChosenByEnvIsRecorded : Obligations.FailureChosenByEnvIsRecorded := by
  intro s hp
  have hgrows := fun f => addFailure_grows f s.fault
  refine ⟨fun l v ha => ?_, fun b ha => ?_, fun ha _ => ?_, fun r hr ha => ?_⟩
  · obtain ⟨k, f, hkf, hperf⟩ := perform_pinw_failed hp ha l v
    rw [hperf, setLatch_fault]
    refine ⟨k, f, hkf, (hgrows f).2, (hgrows f).1, ?_, fun l' hl' => ?_, ?_⟩
    · rw [latch_setLatch, if_pos rfl]
    · rw [latch_setLatch, if_neg hl', latch_recordFailure]
    · cases l <;> rfl
  · obtain ⟨k, f, hkf, hperf⟩ := perform_xferb_failed hp ha b
    rw [hperf]
    exact ⟨k, f, hkf, (hgrows f).2, (hgrows f).1, rfl⟩
  · obtain ⟨k, f, hkf, hperf⟩ := perform_xferpx_failed hp ha
    rw [hperf]
    exact ⟨k, f, hkf, (hgrows f).2, (hgrows f).1, rfl⟩
  · obtain ⟨k, f, hkf, hperf⟩ := perform_openr_failed hp ha hr
    rw [hperf]
    exact ⟨k, f, hkf, (hgrows f).2, (hgrows f).1, fun r' => openFlag_recordFailure r' .., rfl⟩

/-- Settles O28: `perform_phase` says when a micro-operation halts the block, `callOpen_failed` what the fatal failure does. -/
theorem onlyAFailedChipSelectOpenHalts : Obligations.OnlyAFailedChipSelectOpenHalts := by
  intro m s hp
  refine ⟨(perform_phase m s hp).1, ?_⟩
  rintro rfl ha
  obtain ⟨k, f, hkf, hcall⟩ := callOpen_failed ha .cs
  rw [perform_halting hp ⟨rfl, ha⟩, callOf, hcall]
  have hkind : k = .openFailure ∧ f = .openFailure .cs ∨ k = .invalidHandle ∧ f = .invalidHandle .cs s.pc :=
    Or.imp And.right And.right hkf
  refine ⟨k, f, hkind, ?_, mem_raise_fault .., rfl, ?_, fun r => ?_⟩
  · simp [raise, emit, haltNow]
  · simp
  · cases r <;> simp [openFlag]

end Sys2Proof.Machine

namespace Sys2Proof.Machine

/-! ## HALTED is terminal -/

/-- In HALTED an instruction can change only what HOST is answered and the mark of a refusal (R173). -/
theorem exec_halted {i : Instr} {s t : State} (hp : s.phase = .halted) (ht : exec i s = .next t) :
    t = { s with reply := t.reply, refused := t.refused } := by
  rcases exec_cases ht with ⟨why, e⟩ | ⟨r, e⟩ | ⟨x, y, c, -, hphase, -⟩ | ⟨-, hphase, -⟩ | ⟨-, hphase, -⟩ | ⟨-, hphase, -⟩ | ⟨w, -, e⟩
  · rw [e]; rfl
  · rw [e]
  · simp [hp] at hphase
  · simp [hp] at hphase
  · simp [hp] at hphase
  · simp [hp] at hphase
  · rw [e, performAll_halted hp, settle, if_pos hp]

theorem not_running_halted {s : State} (hp : s.phase = .halted) : running s = false := by simp [running, hp]

/-- A step in HALTED: SEQ has none (R21), and an instruction changes next to nothing. -/
theorem step_halted {s t : State} (hp : s.phase = .halted) (ht : step s = .next t) :
    t = { s with input := t.input, testPort := t.testPort, reply := t.reply, refused := t.refused } := by
  rcases step_cases ht with ⟨m, hrun, -⟩ | ⟨-, -, rfl⟩ | ⟨w, rest, e, -, -, -, rfl⟩ | ⟨w, rest, i, -, -, -, hex⟩ | ⟨w, -, -, hex⟩
  · simp [not_running_halted hp] at hrun
  · rfl
  · rfl
  · rw [exec_halted (s := { s with input := rest }) hp hex]
  · rw [exec_halted (s := { s with testPort := .used }) hp hex]

/-- Settles O53: `step_halted`, and the check of each operation in a phase that is neither OFF nor READY. -/
theorem haltedIsTerminal : Obligations.HaltedIsTerminal := by
  intro s hp
  obtain ⟨t, ht⟩ := step_next (not_running_halted hp)
  refine ⟨⟨t, ht, step_halted hp ht⟩, fun i x y c hi => ?_⟩
  have hpixel := fun hi => (pixelOperationsRefused s x y c i hi).2.2 hp
  rcases hi with hi | hi | hi | rfl | rfl | rfl
  · exact hpixel (.inl hi)
  · exact hpixel (.inr (.inl hi))
  · exact hpixel (.inr (.inr hi))
  · exact exec_start_refused (by simp [hp])
  · exact presentRefused.1 s (by simp [hp])
  · exact closeRefusedOutsideReady s (by simp [hp])

end Sys2Proof.Machine

namespace Sys2Proof.Machine

/-! ## The encoder and the decoder undo each other -/

/-- A word with flag 0 is the command of its byte (R68, R69). -/
@[simp] theorem decodeW9_command (b : Byte) : decodeW9 (w9Of false b) = decodeCommand b := by
  simp [decodeW9, w9Flag_w9Of, w9Byte_w9Of]

/-- A word with flag 1 is `SENDD` of its byte (R68, R69). -/
@[simp] theorem decodeW9_data (b : Byte) : decodeW9 (w9Of true b) = .sendd b := by
  simp [decodeW9, w9Flag_w9Of, w9Byte_w9Of]

/-- Every row of the panel command table is encoded as the command word of its byte (R76, R77). -/
theorem encode_panelTable : ∀ p ∈ panelTable, encode p.2 = .w9 (w9Of false p.1) := by decide

theorem wellFormed_panelTable : ∀ p ∈ panelTable, p.2.wellFormed = true := by decide

theorem wellFormed_sendc_iff (b : Byte) : (Instr.sendc b).wellFormed = true ↔ isPanelByte b = false := by simp [Instr.wellFormed]

/-- What a command byte decodes to is well formed and encoded as the command word of that byte. -/
theorem decodeCommand_encodesBack (b : Byte) :
    encode (decodeCommand b) = .w9 (w9Of false b) ∧ (decodeCommand b).wellFormed = true := by
  cases hb : isPanelByte b with
  | false => rw [decodeCommand_sendc b hb]; exact ⟨rfl, (wellFormed_sendc_iff b).2 hb⟩
  | true => exact ⟨encode_panelTable _ (decodeCommand_row b hb), wellFormed_panelTable _ (decodeCommand_row b hb)⟩

/-- The same for a sequencer word of either flag (R68). -/
theorem decodeW9_encodesBack (w : W9) : encode (decodeW9 w) = .w9 w ∧ (decodeW9 w).wellFormed = true := by
  rw [← w9Of_flag_byte w]
  cases w9Flag w with
  | false => rw [decodeW9_command]; exact decodeCommand_encodesBack _
  | true => rw [decodeW9_data]; exact ⟨rfl, rfl⟩

/-- A host operation decodes only with the operands of R66, which the encoder writes after the same number. -/
theorem decode_host_encodesBack {hop : BitVec 4} {operands : List Operand} {i : Instr} (h : decode (.h hop operands) = .ok i) :
    encode i = .h hop operands ∧ i.wellFormed = true := by
  have assigned : hop ∈ operationNumbers := by
    by_contra hhop
    rw [decode_unassigned operands hhop] at h
    cases h
  simp only [operationNumbers, List.mem_cons, List.not_mem_nil, or_false] at assigned
  rcases assigned with rfl | rfl | rfl | rfl | rfl | rfl | rfl
  all_goals
    simp only [decode, decodeH, hopTo565, hopGetpixel, hopSetpixelOver, hopSetpixelBlend, hopStart, hopPresent, hopClose,
      BitVec.reduceEq, if_true, if_false] at h
    split at h
    · obtain rfl := Except.ok.inj h
      exact ⟨rfl, rfl⟩
    · cases h

/-- Settles O2: only `SENDC` is decoded through the panel table, and a well-formed one has no row there. -/
theorem decodeEncodeRoundTrip : Obligations.DecodeEncodeRoundTrip := by
  intro i hi
  cases i with
  | sendc b =>
    calc decode (encode (.sendc b)) = .ok (decodeCommand b) := congrArg Except.ok (decodeW9_command b)
      _ = .ok (.sendc b) := by rw [decodeCommand_sendc b ((wellFormed_sendc_iff b).1 hi)]
  | sendd b => exact congrArg Except.ok (decodeW9_data b)
  | _ => rfl

/-- Settles O3: a host operation by its number, a sequencer word by its flag. -/
theorem decodedWordsEncodeBack : Obligations.DecodedWordsEncodeBack := by
  intro f i h
  cases f with
  | h hop operands => exact decode_host_encodesBack h
  | w9 w =>
    obtain rfl : decodeW9 w = i := Except.ok.inj h
    exact decodeW9_encodesBack w

end Sys2Proof.Machine
